-- ==== Sys2Proof/Word.lean ====
section
/-! DEFINITION. The words of the machine: bytes, 32-bit register words and binary64 data.
Rules R6, R7 and R32 of the spec fix the widths. -/

namespace Sys2Proof

/-- An 8-bit byte: a channel of a pixel or a character of the hash (R7, R72, R55). -/
abbrev Byte := BitVec 8

/-- A 32-bit word: every register of the window and every command word (R32, R100). -/
abbrev Word32 := BitVec 32

/-- A binary64 datum as its 64-bit pattern (R7): a finite number, a signed zero, an infinity or a NaN. -/
abbrev F64 := BitVec 64

end Sys2Proof
end

