-- ==== Sys2Proof/Syntax.lean ====
section
/-! DEFINITION. The nine commands of interface DQE-1, one constructor per row of the opcode table (R105).
A constructor carries every bit of the command word below the opcode, the reserved bits too: an opcode
selects its command whatever the reserved bits are (R105), and the command itself then fails with
RESERVED_FIELD (R107), so the reserved bits are operands of the meaning (log entry 10). -/

namespace Sys2Proof

/-- A command. Fields stand in the order of the word, high bits first (R101 to R104). -/
inductive Instr where
  /-- NOP, format N (R264). -/
  | nop (rsv : BitVec 24)
  /-- ENCODE, format N (R263). -/
  | encode (rsv : BitVec 24)
  /-- LIN, format N (R146). -/
  | lin (rsv : BitVec 24)
  /-- GAM, format N (R147). -/
  | gam (rsv : BitVec 24)
  /-- BASIS I, J, format IJ (R102, R177). -/
  | basis (rsv : BitVec 16) (j i : BitVec 4)
  /-- QDC, format N (R201). -/
  | qdc (rsv : BitVec 24)
  /-- QSCALE, format N (R212). -/
  | qscale (rsv : BitVec 24)
  /-- QAC K, format K (R103, R222). -/
  | qac (rsv : BitVec 17) (k : BitVec 7)
  /-- B83 LEN, OFF, format LO (R104, R242). -/
  | b83 (rsvHi : BitVec 8) (off : BitVec 8) (rsvLo : BitVec 4) (len : BitVec 4)
  deriving DecidableEq, Repr

end Sys2Proof
end

