-- ==== Sys2Proof/WellFormed.lean ====
section
/-! DEFINITION. Which commands a host may write without breaking the encoding: the reserved bits of the
format are 0 (R101 to R104, R107). The operand ranges of R307 depend on the state and are checked at
completion (Machine/Operands.lean). -/

namespace Sys2Proof

/-- The reserved bits of the command's format are all 0 (R107). -/
def Instr.reservedClear : Instr → Bool
  | .nop rsv => rsv == 0
  | .encode rsv => rsv == 0
  | .lin rsv => rsv == 0
  | .gam rsv => rsv == 0
  | .basis rsv _ _ => rsv == 0
  | .qdc rsv => rsv == 0
  | .qscale rsv => rsv == 0
  | .qac rsv _ => rsv == 0
  | .b83 rsvHi _ rsvLo _ => rsvHi == 0 && rsvLo == 0

/-- A well-formed command: "The reserved bits of its format must be 0" (R105). -/
abbrev Instr.WellFormed (i : Instr) : Prop := i.reservedClear = true

end Sys2Proof
end

