-- ==== Sys2Proof/Decode.lean ====
section
/-! DEFINITION. Decoding a command word and encoding a command (R100 to R109).
A decoder reads the opcode in bits 31..24 and applies the one format it selects (R100). It rejects, by
name, the 247 opcodes of rule R106, and nothing else: a set reserved bit never changes the command (R107). -/

namespace Sys2Proof

/-- Why a word is no command: its opcode is not in the map of R105 (R106). -/
inductive DecodeError where
  | illegalOpcode (opc : BitVec 8)
  deriving DecidableEq, Repr

/-- The opcode field OPC, bits 31..24 (R100). -/
def opcodeField (w : Word32) : BitVec 8 := w.extractLsb' 24 8

/-- The opcode map of rule R105, with the formats of R101 to R104. -/
def decode (w : Word32) : Except DecodeError Instr :=
  let opc := opcodeField w
  let low24 := w.extractLsb' 0 24
  if opc = 0x00#8 then .ok (.nop low24)
  else if opc = 0x01#8 then .ok (.encode low24)
  else if opc = 0x10#8 then .ok (.lin low24)
  else if opc = 0x11#8 then .ok (.gam low24)
  else if opc = 0x20#8 then
    .ok (.basis (w.extractLsb' 8 16) (w.extractLsb' 4 4) (w.extractLsb' 0 4))
  else if opc = 0x30#8 then .ok (.qdc low24)
  else if opc = 0x31#8 then .ok (.qscale low24)
  else if opc = 0x32#8 then .ok (.qac (w.extractLsb' 7 17) (w.extractLsb' 0 7))
  else if opc = 0x40#8 then
    .ok (.b83 (w.extractLsb' 16 8) (w.extractLsb' 8 8) (w.extractLsb' 4 4) (w.extractLsb' 0 4))
  else .error (.illegalOpcode opc)

/-- The opcode of a command (R105). -/
def Instr.opcode : Instr → BitVec 8
  | .nop _ => 0x00#8
  | .encode _ => 0x01#8
  | .lin _ => 0x10#8
  | .gam _ => 0x11#8
  | .basis _ _ _ => 0x20#8
  | .qdc _ => 0x30#8
  | .qscale _ => 0x31#8
  | .qac _ _ => 0x32#8
  | .b83 _ _ _ _ => 0x40#8

/-- The operand field, bits 23..0, laid out by the command's format (R101 to R104). -/
def Instr.operandField : Instr → BitVec 24
  | .nop rsv => rsv
  | .encode rsv => rsv
  | .lin rsv => rsv
  | .gam rsv => rsv
  | .basis rsv j i => rsv ++ j ++ i
  | .qdc rsv => rsv
  | .qscale rsv => rsv
  | .qac rsv k => rsv ++ k
  | .b83 rsvHi off rsvLo len => rsvHi ++ off ++ rsvLo ++ len

/-- The command word of a command (R100, R105). -/
def encode (i : Instr) : Word32 := i.opcode ++ i.operandField

/-- The reserved mask of the command's format over the 32-bit word (R107). -/
def Instr.reservedMask : Instr → Word32
  | .nop _ | .encode _ | .lin _ | .gam _ | .qdc _ | .qscale _ => 0x00FFFFFF#32
  | .basis _ _ _ => 0x00FFFF00#32
  | .qac _ _ => 0x00FFFF80#32
  | .b83 _ _ _ _ => 0x00FF00F0#32

/-- What the decoder reads from an instruction whose bits are `w`, of which the table gives `nbits`; every bit
above them is 0. A command is one 32-bit word, so no byte order arises (R75, R108). -/
def decodeTableWord (nbits w : Nat) : Option Instr :=
  match decode (BitVec.ofNat 32 (w % 2 ^ nbits)) with
  | .ok i => some i
  | .error _ => none

end Sys2Proof
end

