-- ==== Sys2Proof/Config.lean ====
section
/-! DEFINITION. The parameters rule R5 leaves OPEN, and the free values of the model.
The functions of the model that use a parameter take a `Config`; the machine runs with `Config.hw`, an
opaque constant, so a claim about the machine holds for every choice of the parameters (R5, R30). -/

namespace Sys2Proof

/-- The binary64 operators of rule R8, as the index of a free NaN pattern. -/
inductive FpOp where
  | add | sub | mul | div
  deriving DecidableEq, Repr

/-- The OPEN parameters of rule R5. They are parameters of the step, never part of the state (R30). -/
structure Config where
  /-- COS, the cosine the basis uses (R171). -/
  cos : F64 → F64
  /-- POW, the power function of the colour converter and the quantizer (R141). -/
  pow : F64 → F64 → F64
  /-- How many bytes PIX has beyond the four that rule R5 requires. -/
  pixExtra : Nat
  /-- REG_BASE, the platform address of the register window (R71). -/
  regBase : Nat
  deriving Inhabited

/-- PIX_BYTES, at least 4 (R5, R72). -/
def Config.pixBytes (c : Config) : Nat := c.pixExtra + 4

/-- The parameters of the machine at hand: free (log entry 7). -/
opaque Config.hw : Config

/-- The n-th draw of the model: the unspecified values of rules R53, R55, R80 and R81 (log entries 1 and 2). -/
opaque Config.draw : Nat → BitVec 64

/-- The sign and payload of the NaN an operator delivers: the spec states none (log entry 6). -/
opaque Config.nanBits : FpOp → F64 → F64 → F64

end Sys2Proof
end

