-- ==== Sys2Proof/Machine/State.lean ====
section
/-! DEFINITION. The state of the block and of the host side that drives it, as plain data, the reasons a
step can stop, and the state after reset (10_state.md, 20_memory.md, R340). -/

namespace Sys2Proof.Machine

/-- A Triplet: the three channels of one component slot, R, G and B (R12, R53). -/
structure Triplet where
  r : F64
  g : F64
  b : F64
  deriving DecidableEq, Repr

/-- The fields of STATUS (R35). Bits 31..8 are reserved and hold nothing. -/
structure Status where
  /-- Bit 0: a command is accepted and not yet complete (R36). -/
  busy : Bool
  /-- Bit 1: a command has completed since this was last cleared (R37). -/
  done : Bool
  /-- Bit 2: the last completed command failed (R38). -/
  err : Bool
  /-- Bit 3: a host write was dropped because the block was busy (R39). -/
  ovr : Bool
  /-- Bits 7..4: the error code of the last completed command (R40). -/
  ecode : BitVec 4
  deriving DecidableEq, Repr

/-- The five command errors (R308). -/
inductive ErrorCode where
  | illegalOpcode | reservedField | badNcomp | badDim | badOperand
  deriving DecidableEq, Repr

/-- An access of the host to the register window: its byte offset from REG_BASE and its size in bytes (R71, R76). -/
structure Access where
  offset : Nat
  size : Nat
  deriving DecidableEq, Repr

/-- What can happen next at the block (R30, R70, R341): an access of the host, a fill of pixel memory, the
host's WAIT loop, a reset, or the turn of the block sequencer (log entries 4 and 19). -/
inductive Event where
  /-- The host reads a register. -/
  | read (a : Access)
  /-- The host writes a register. -/
  | write (a : Access) (v : Word32)
  /-- The host writes bytes of PIX from an address on. -/
  | pixWrite (addr : Nat) (bytes : List Byte)
  /-- The host reads STATUS until BUSY is 0 (the WAIT of R111). -/
  | wait
  /-- The platform resets the block (R340, R341). -/
  | reset
  /-- The block sequencer takes its step, if a command is held (R52). -/
  | complete
  deriving DecidableEq, Repr

/-- Everything the spec gives the machine, and the model's own fields at the end. -/
@[ext]
structure State where
  /-- CMD: the last accepted command word (R34). -/
  cmd : Word32
  /-- STATUS (R35). -/
  status : Status
  /-- CTRL.IE: the interrupt enable (R41). -/
  ie : Bool
  /-- DIM.W: the width of the pixel grid (R42). -/
  width : BitVec 16
  /-- DIM.H: the height of the pixel grid (R42). -/
  height : BitVec 16
  /-- NCOMP.NX: the component count along x (R43). -/
  nx : BitVec 4
  /-- NCOMP.NY: the component count along y (R43). -/
  ny : BitVec 4
  /-- ARG: the integer operand (R44). -/
  arg : Word32
  /-- ARGF: the binary64 operand (R45). -/
  argf : F64
  /-- RESI: the integer result (R46). -/
  resi : Word32
  /-- RESF: the binary64 result (R47). -/
  resf : F64
  /-- SCALE: quantized_scale (R48). -/
  scale : BitVec 7
  /-- MAX: the normalization of the AC terms (R49). -/
  max : F64
  /-- ACTMAX: actual_max (R50). -/
  actmax : F64
  /-- HASHLEN: the length of the last ENCODE output (R51). -/
  hashlen : Byte
  /-- COMP: the component buffer (R53). -/
  comp : Vector Triplet 81
  /-- HASH: the hash buffer (R55). -/
  hash : Vector Byte 166
  /-- PIX: the pixel memory, in the canonical form of `Memory.wf` (R72; log entry 3). -/
  pix : List Host.Cell
  /-- The mark `pix_disturbed` of rule R81: a pixel byte the command reads was written while BUSY. -/
  pixDisturbed : Bool
  /-- The model's own: what the last host read returned (log entry 5). -/
  readData : Word32
  /-- The model's own: how many draws were taken so far (log entry 2). -/
  draws : Nat
  /-- The model's own: what is still to happen, first first (log entry 4). -/
  agenda : List Event
  deriving DecidableEq, Repr

/-- A host step that reaches no storage the spec gives. No command raises a fault. -/
inductive Fault where
  /-- Raised by a host write to PIX with a byte at or above PIX_BYTES: the spec gives PIX no such address
  (R70, R72). Safe: the model stops where a platform would do something of its own. -/
  | pixAddress
  deriving DecidableEq, Repr

/-- A host step or an instruction that has no meaning in the model. -/
inductive Refusal where
  /-- An instruction the model does not give a meaning yet. Safe. No arm answers it. -/
  | notModelled (mnemonic : String)
  /-- Raised by a register access that is not 32-bit, not 4-byte aligned or outside the window (R76: "A model
  refuses such a host step"). Safe. -/
  | registerAccess
  deriving DecidableEq, Repr

/-- How many draws a reset takes: 81 slots of three channels, then 166 bytes (R340). -/
def resetDraws : Nat := 409

/-- COMP after a reset that starts at draw `d`: three draws per slot (R53). -/
@[irreducible] def drawnComp (d : Nat) : Vector Triplet 81 :=
  Vector.ofFn fun n =>
    ⟨Config.draw (d + 3 * n), Config.draw (d + 3 * n + 1), Config.draw (d + 3 * n + 2)⟩

/-- HASH after a reset that starts at draw `d`: a draw per byte, after those of COMP (R55). -/
@[irreducible] def drawnHash (d : Nat) : Vector Byte 166 :=
  Vector.ofFn fun p => (Config.draw (d + 243 + p)).setWidth 8

/-- The state right after a reset that starts at draw `d` (R58, R340). COMP and HASH are unspecified, so each
entry is a draw (R53, R55). -/
def State.resetAt (d : Nat) : State where
  cmd := 0x00000000#32
  status := ⟨false, false, false, false, 0x0#4⟩
  ie := false
  width := 0
  height := 0
  nx := 0
  ny := 0
  arg := 0
  argf := 0x0000000000000000#64
  resi := 0
  resf := 0x0000000000000000#64
  scale := 0
  max := 0x3FF0000000000000#64
  actmax := 0x0000000000000000#64
  hashlen := 0
  comp := drawnComp d
  hash := drawnHash d
  pix := []
  pixDisturbed := false
  readData := 0
  draws := d + resetDraws
  agenda := []

/-- The machine right after power-on reset, with nothing written to PIX and nothing on the agenda. -/
def State.reset : State := State.resetAt 0

end Sys2Proof.Machine
end

