-- ==== Sys2Proof/Machine/Flags.lean ====
section
/-! DEFINITION. The flags of the block: the STATUS word, its write-one-to-clear bits, what acceptance and
completion leave in it, and the interrupt line (R34 to R41, R52, R310). -/

namespace Sys2Proof.Machine

/-- The error code of R308. -/
def ErrorCode.code : ErrorCode → BitVec 4
  | .illegalOpcode => 1
  | .reservedField => 2
  | .badNcomp => 3
  | .badDim => 4
  | .badOperand => 5

/-- STATUS as the host reads it (R35). -/
def Status.word (t : Status) : Word32 :=
  0#24 ++ t.ecode ++ BitVec.ofBool t.ovr ++ BitVec.ofBool t.err ++ BitVec.ofBool t.done ++ BitVec.ofBool t.busy

/-- A host write of STATUS: a 1 in bit 1 clears DONE, a 1 in bit 3 clears OVR, nothing else changes (R35, R37, R39). -/
def Status.clearedBy (t : Status) (v : Word32) : Status :=
  { t with done := t.done && !v.getLsbD 1, ovr := t.ovr && !v.getLsbD 3 }

/-- Acceptance sets BUSY and clears DONE (R34, R36, R37). -/
def Status.accepted (t : Status) : Status := { t with busy := true, done := false }

/-- A dropped write sets OVR and nothing else (R39). -/
def Status.overrun (t : Status) : Status := { t with ovr := true }

/-- A successful completion: ECODE 0, ERR 0, BUSY 0, DONE 1; OVR stays (R52). -/
def Status.succeeded (t : Status) : Status :=
  { t with busy := false, done := true, err := false, ecode := 0 }

/-- A command error: ECODE e, ERR 1, BUSY 0, DONE 1; OVR stays (R301). -/
def Status.failed (t : Status) (e : ErrorCode) : Status :=
  { t with busy := false, done := true, err := true, ecode := e.code }

/-- The interrupt output: `irq = CTRL.IE and STATUS.DONE` (R310). It is a level, so it is computed, not held. -/
def State.irq (s : State) : Bool := s.ie && s.status.done

end Sys2Proof.Machine
end

