-- ==== Sys2Proof/Machine/Ops.lean ====
section
/-! DEFINITION. The shared operations: one byte of pixel memory, the component and hash buffers, draws,
ending a command with success or with a command error, and reset.
A command error is this block's only exception (R300): it saves nothing, changes no mode and transfers no
control (R312), so there is no return from it. -/

namespace Sys2Proof.Machine

/-! Pixel memory (R72). -/

/-- What a byte of PIX that nothing has written reads as (log entry 3). -/
def Memory.unlisted : Byte := 0#8

/-- The canonical form of pixel memory: addresses strictly rising, and no entry equal to what an unlisted
address reads as. -/
abbrev Memory.wf (m : List Host.Cell) : Prop :=
  m.Pairwise (fun x y => x.1 < y.1) ∧ ∀ c ∈ m, c.2 ≠ Memory.unlisted

/-- `MemRead(PIX, addr, 1)` (R10, R73). -/
def Memory.read : List Host.Cell → Nat → Byte
  | [], _ => Memory.unlisted
  | (x, b) :: rest, a => if x = a then b else Memory.read rest a

/-- Put one byte at an address, or take the entry away when the byte is what an unlisted address reads as. -/
def Memory.write : List Host.Cell → Nat → Byte → List Host.Cell
  | [], a, b => if b = Memory.unlisted then [] else [(a, b)]
  | (x, c) :: rest, a, b =>
    if a < x then (if b = Memory.unlisted then (x, c) :: rest else (a, b) :: (x, c) :: rest)
    else if a = x then (if b = Memory.unlisted then rest else (a, b) :: rest)
    else (x, c) :: Memory.write rest a b

/-- Put bytes at an address and the ones after it, in order (the PIXW of R110). -/
def Memory.writeBytes : List Host.Cell → Nat → List Byte → List Host.Cell
  | m, _, [] => m
  | m, a, b :: rest => Memory.writeBytes (Memory.write m a b) (a + 1) rest

/-! The component and hash buffers (R53, R55). -/

/-- A Triplet of +0.0. -/
def Triplet.zero : Triplet := ⟨0#64, 0#64, 0#64⟩

/-- The channels of a Triplet in the order 0 = R, 1 = G, 2 = B (R10). -/
def Triplet.channels (t : Triplet) : List F64 := [t.r, t.g, t.b]

/-- `COMP[n]`. There is no slot above 80 (R53); no rule reads one. -/
def State.slot (s : State) (n : Nat) : Triplet := s.comp.getD n Triplet.zero

/-- `HASH[p]`. There is no byte above 165 (R55); no rule reads one. -/
def State.hashByte (s : State) (p : Nat) : Byte := s.hash.getD p 0#8

/-- Write one component slot. -/
def State.setSlot (s : State) (n : Nat) (t : Triplet) : State :=
  { s with comp := s.comp.setIfInBounds n t }

/-- A buffer whose entries from `off` on are replaced by those of a list; the others are kept. -/
def splice {α : Type} {n : Nat} (v : Vector α n) (off : Nat) : List α → Vector α n
  | [] => v
  | x :: xs => splice (v.setIfInBounds off x) (off + 1) xs

/-- Write slots 0, 1, … with the triplets of a list; the other slots keep their values (R263). -/
def State.setSlots (s : State) (ts : List Triplet) : State := { s with comp := splice s.comp 0 ts }

/-- Write the bytes of a list at `off` and after; the other bytes keep their values (R242, R263). -/
def State.writeHash (s : State) (off : Nat) (bytes : List Byte) : State :=
  { s with hash := splice s.hash off bytes }

/-! Draws: the unspecified values of R80 and R81 (93_implementation_defined.md, "any value"). -/

/-- The k-th draw from here on. -/
def State.draw (s : State) (k : Nat) : BitVec 64 := Config.draw (s.draws + k)

/-- Three draws, as a Triplet. -/
def State.drawTriplet (s : State) (k : Nat) : Triplet := ⟨s.draw k, s.draw (k + 1), s.draw (k + 2)⟩

/-- Count draws taken, so that none is taken twice. -/
def State.drew (s : State) (n : Nat) : State := { s with draws := s.draws + n }

/-! Ending a command (R52, R301). The mark of R81 clears at every completion. -/

/-- The end of a successful command. -/
def State.completed (s : State) : State :=
  { s with status := s.status.succeeded, pixDisturbed := false }

/-- `raise CmdError(e)`: the command ends with an error code and nothing else changes (R10, R301). -/
def State.commandError (s : State) (e : ErrorCode) : State :=
  { s with status := s.status.failed e, pixDisturbed := false }

/-- The first check that fails, in the order of R302, gives the error code. -/
def firstError : List (Bool × ErrorCode) → Option ErrorCode
  | [] => none
  | (ok, e) :: rest => if ok then firstError rest else some e

/-- The Complete step of a command: its checks in order, then its writes, then the STATUS fields (R52, R302). -/
def runCommand (checks : List (Bool × ErrorCode)) (effect : State → State) (s : State) :
    Host.Outcome State Fault Refusal :=
  match firstError checks with
  | some e => .next (s.commandError e)
  | none => .next (effect s).completed

/-! Reset (R340, R342). -/

/-- A reset of the block at any time: a command in flight is abandoned, PIX is not changed, and the host's
side (what it last read, what it still has to do) is not the block's (log entry 17). -/
def State.resetBlock (s : State) : State :=
  { State.resetAt s.draws with pix := s.pix, readData := s.readData, agenda := s.agenda }

end Sys2Proof.Machine
end

