-- ==== Sys2Proof/Machine/Operands.lean ====
section
/-! DEFINITION. What a command reads and what it checks: the fields of DIM and NCOMP as naturals, a channel
of a pixel, and the checks of R302 with the operand ranges of R307. -/

namespace Sys2Proof.Machine

/-- The number of components, NX·NY. -/
def State.components (s : State) : Nat := s.nx.toNat * s.ny.toNat

/-- The byte address of channel `c` of pixel (x, y) in a grid `w` pixels wide (R73). -/
def pixelAddress (w x y c : Nat) : Nat := 4 * (y * w + x) + c

/-- `channel(x, y, c)` (R73). -/
def channel (pix : List Host.Cell) (w x y c : Nat) : Byte := Memory.read pix (pixelAddress w x y c)

/-- A byte address is an R, G or B byte of the W×H grid: what BASIS and ENCODE read (R74, R81). -/
def State.readsPixelByte (s : State) (a : Nat) : Bool :=
  decide (a < 4 * (s.width.toNat * s.height.toNat)) && decide (a % 4 ≠ 3)

/-- NX and NY lie in [1, 9] (R303). -/
def State.ncompOk (s : State) : Bool :=
  decide (1 ≤ s.nx.toNat ∧ s.nx.toNat ≤ 9 ∧ 1 ≤ s.ny.toNat ∧ s.ny.toNat ≤ 9)

/-- W and H are at least 1 and the grid lies in PIX (R306). -/
def State.dimOk (cfg : Config) (s : State) : Bool :=
  decide (1 ≤ s.width.toNat ∧ 1 ≤ s.height.toNat ∧ 4 * s.width.toNat * s.height.toNat ≤ cfg.pixBytes)

/-- OperandOK of BASIS I, J: the component lies in the grid (R307). -/
def State.basisOperandOk (s : State) (j i : BitVec 4) : Bool :=
  decide (i.toNat < s.nx.toNat ∧ j.toNat < s.ny.toNat)

/-- OperandOK of QAC K: slot K is an AC slot (R307). -/
def State.qacOperandOk (s : State) (k : BitVec 7) : Bool :=
  decide (1 ≤ k.toNat ∧ k.toNat < s.components)

/-- OperandOK of B83 LEN, OFF: one to eight digits inside the hash buffer (R307). -/
def b83OperandOk (off : BitVec 8) (len : BitVec 4) : Bool :=
  decide (1 ≤ len.toNat ∧ len.toNat ≤ 8 ∧ off.toNat + len.toNat ≤ 166)

end Sys2Proof.Machine
end

