-- ==== Sys2Proof/Machine/Base83.lean ====
section
/-! DEFINITION. The Base-83 Encoder and the command B83 (43_base83.md), with the alphabet of R121. -/

namespace Sys2Proof.Machine

/-- The 83 ASCII codes of the alphabet, index 0 through 82 (R121). -/
def alphabet : List Byte :=
  -- 0-9
  [0x30, 0x31, 0x32, 0x33, 0x34, 0x35, 0x36, 0x37, 0x38, 0x39] ++
  -- A-Z
  [0x41, 0x42, 0x43, 0x44, 0x45, 0x46, 0x47, 0x48, 0x49, 0x4A, 0x4B, 0x4C, 0x4D] ++
  [0x4E, 0x4F, 0x50, 0x51, 0x52, 0x53, 0x54, 0x55, 0x56, 0x57, 0x58, 0x59, 0x5A] ++
  -- a-z
  [0x61, 0x62, 0x63, 0x64, 0x65, 0x66, 0x67, 0x68, 0x69, 0x6A, 0x6B, 0x6C, 0x6D] ++
  [0x6E, 0x6F, 0x70, 0x71, 0x72, 0x73, 0x74, 0x75, 0x76, 0x77, 0x78, 0x79, 0x7A] ++
  -- # $ % * + , - . : ; = ? @ [ ] ^ _ and the last four
  [0x23, 0x24, 0x25, 0x2A, 0x2B, 0x2C, 0x2D, 0x2E, 0x3A, 0x3B, 0x3D, 0x3F, 0x40] ++
  [0x5B, 0x5D, 0x5E, 0x5F, 0x7B, 0x7C, 0x7D, 0x7E]

/-- `ASCII(ALPHABET[d])` for a digit d below 83 (R121). -/
def digitChar (d : Nat) : Byte := alphabet.getD d 0

/-- Digit k of a value written in `length` digits, most significant first (R240). -/
def base83Digit (value length k : Nat) : Nat := value / 83 ^ (length - 1 - k) % 83

/-- `Base83(value, length)` (R240); a value of 83^length or more wraps silently (R241). -/
def base83 (value length : Nat) : List Byte :=
  (List.range length).map fun k => digitChar (base83Digit value length k)

/-- B83 (R242). It uses none of the parameters. -/
def execB83 (rsvHi off : BitVec 8) (rsvLo len : BitVec 4) (s : State) : Host.Outcome State Fault Refusal :=
  runCommand
    [(rsvHi == 0 && rsvLo == 0, .reservedField), (b83OperandOk off len, .badOperand)]
    (fun s => s.writeHash off.toNat (base83 s.arg.toNat len.toNat)) s

end Sys2Proof.Machine
end

