-- ==== Sys2Proof/Machine/Arith.lean ====
section
/-! DEFINITION. Binary64 arithmetic on bit patterns (R8, R9, R13).
Every finite binary64 is a whole number of units of 2^-1074. A datum is split into its sign and its
magnitude (the low 63 bits), the exact result is formed in units, as a ratio of naturals, and
`roundRatio` rounds it once, to nearest with ties to even. -/

namespace Sys2Proof.Arith

/-- The hidden bit of a significand: 2^52. -/
abbrev hiddenBit : Nat := 0x10000000000000

/-- The magnitude pattern of an infinity: exponent field 2047, fraction 0. -/
abbrev infMag : Nat := 0x7FF0000000000000

/-- The sign bit as a number: 2^63. -/
abbrev signBit : Nat := 0x8000000000000000

/-- How many units of 2^-1074 make 1.0. -/
def unitsPerOne : Nat := 2 ^ 1074

/-- The sign bit of a datum. -/
def sign (a : F64) : Bool := a.msb

/-- The magnitude pattern of a datum: its bits 62..0. -/
def mag (a : F64) : Nat := a.toNat % signBit

/-- The datum with a given sign and magnitude pattern. -/
def ofMag (s : Bool) (m : Nat) : F64 := BitVec.ofNat 64 (m + if s then signBit else 0)

def isNaN (a : F64) : Bool := decide (infMag < mag a)

def isInf (a : F64) : Bool := decide (mag a = infMag)

def isFinite (a : F64) : Bool := decide (mag a < infMag)

/-- The units of 2^-1074 that a finite magnitude pattern stands for. -/
def unitsOfMag (m : Nat) : Nat :=
  if m / hiddenBit = 0 then m
  else (hiddenBit + m % hiddenBit) * 2 ^ (m / hiddenBit - 1)

/-- The absolute value of a finite datum, in units. -/
def units (a : F64) : Nat := unitsOfMag (mag a)

/-- A finite datum in units, with its sign. -/
def signedUnits (a : F64) : Int := if sign a then -(units a : Int) else (units a : Int)

/-- The magnitude pattern nearest to `n / d` units, ties to even, overflowing to infinity (R8). -/
def roundRatio (n d : Nat) : Nat :=
  let k := (n / d).log2 - 52
  let e := d * 2 ^ k
  let m := n / e
  let r := n % e
  let up := if e < 2 * r ∨ (2 * r = e ∧ m % 2 = 1) then m + 1 else m
  min (up + k * hiddenBit) infMag

/-- The NaN an operator delivers: quiet, its sign and payload free (log entry 6). -/
def nanResult (op : FpOp) (a b : F64) : F64 := Config.nanBits op a b ||| 0x7FF8000000000000#64

/-- Flip the sign bit. -/
def neg (a : F64) : F64 := a ^^^ 0x8000000000000000#64

/-- The sum of two data neither of which is a NaN. -/
def addNumbers (op : FpOp) (a b c : F64) : F64 :=
  if isInf a then (if isInf c && (sign a != sign c) then nanResult op a b else a)
  else if isInf c then c
  else
    let sum := signedUnits a + signedUnits c
    if sum = 0 then ofMag (sign a && sign c) 0
    else ofMag (decide (sum < 0)) (roundRatio sum.natAbs 1)

/-- Binary64 addition (R8). -/
def add (a b : F64) : F64 :=
  if isNaN a || isNaN b then nanResult .add a b else addNumbers .add a b b

/-- Binary64 subtraction (R8). -/
def sub (a b : F64) : F64 :=
  if isNaN a || isNaN b then nanResult .sub a b else addNumbers .sub a b (neg b)

/-- Binary64 multiplication (R8). -/
def mul (a b : F64) : F64 :=
  let s := sign a != sign b
  if isNaN a || isNaN b then nanResult .mul a b
  else if isInf a || isInf b then
    (if mag a = 0 ∨ mag b = 0 then nanResult .mul a b else ofMag s infMag)
  else ofMag s (roundRatio (units a * units b) unitsPerOne)

/-- Binary64 division (R8). -/
def div (a b : F64) : F64 :=
  let s := sign a != sign b
  if isNaN a || isNaN b then nanResult .div a b
  else if isInf a then (if isInf b then nanResult .div a b else ofMag s infMag)
  else if isInf b then ofMag s 0
  else if mag b = 0 then (if mag a = 0 then nanResult .div a b else ofMag s infMag)
  else ofMag s (roundRatio (units a * unitsPerOne) (units b))

/-- The order of the data that are not NaN: both zeros are 0, and the patterns of one sign rise with the value. -/
def order (a : F64) : Int := if sign a then -(mag a : Int) else (mag a : Int)

/-- `a < b`, false when either is a NaN. -/
def lt (a b : F64) : Bool := !isNaN a && !isNaN b && decide (order a < order b)

/-- `a ≤ b`, false when either is a NaN. -/
def le (a b : F64) : Bool := !isNaN a && !isNaN b && decide (order a ≤ order b)

/-- `f64(n)` (R8): exact for n below 2^53. -/
def ofNat (n : Nat) : F64 :=
  match n with
  | 0 => 0#64
  | k + 1 => ofMag false (roundRatio ((k + 1) * unitsPerOne) 1)

/-- `fabs(a)` (R9). -/
def fabs (a : F64) : F64 := a &&& 0x7FFFFFFFFFFFFFFF#64

/-- `fsign(a)` (R9): ±1.0 by the sign bit. -/
def fsign (a : F64) : F64 := if sign a then 0xBFF0000000000000#64 else 0x3FF0000000000000#64

/-- The datum is a whole number. -/
def isIntegral (a : F64) : Bool := decide (units a % unitsPerOne = 0)

/-- `ffloor(a)` (R9). For 0 < a < 1, where R9 does not say which zero, the result is +0.0 (log entry 14). -/
def ffloor (a : F64) : F64 :=
  if !isFinite a || isIntegral a then a
  else if sign a then neg (ofNat (units a / unitsPerOne + 1))
  else ofNat (units a / unitsPerOne)

/-- `ftrunc(a)` (R9). The sign of a zero result is the sign of the operand (log entry 14). -/
def ftrunc (a : F64) : F64 :=
  if !isFinite a || isIntegral a then a
  else ofMag (sign a) (mag (ofNat (units a / unitsPerOne)))

/-- `fmax(a, b)` (R9). -/
def fmax (a b : F64) : F64 :=
  if isNaN a then (if isNaN b then a else b)
  else if isNaN b then a
  else if lt a b then b else a

/-- `fclamp(a, lo, hi)` (R9). -/
def fclamp (a lo hi : F64) : F64 :=
  if isNaN a || lt a lo then lo else if lt hi a then hi else a

/-- `toNat(a)` (R9), for an integral datum with 0 ≤ a. -/
def toNat (a : F64) : Nat := if sign a then 0 else units a / unitsPerOne

/-! The literals of rule R13. -/

def zero : F64 := 0x0000000000000000#64
def one : F64 := 0x3FF0000000000000#64
def two : F64 := 0x4000000000000000#64
def half : F64 := 0x3FE0000000000000#64
def c255 : F64 := 0x406FE00000000000#64
def c0_04045 : F64 := 0x3FA4B5DCC63F1412#64
def c12_92 : F64 := 0x4029D70A3D70A3D7#64
def c0_055 : F64 := 0x3FAC28F5C28F5C29#64
def c1_055 : F64 := 0x3FF0E147AE147AE1#64
def c2_4 : F64 := 0x4003333333333333#64
def cInv2_4 : F64 := 0x3FDAAAAAAAAAAAAB#64
def c0_0031308 : F64 := 0x3F69A5C37387B719#64
def c166 : F64 := 0x4064C00000000000#64
def c82 : F64 := 0x4054800000000000#64
def c9 : F64 := 0x4022000000000000#64
def c9_5 : F64 := 0x4023000000000000#64
def c18 : F64 := 0x4032000000000000#64
def pi : F64 := 0x400921FB54442D18#64

end Sys2Proof.Arith
end

