-- ==== Sys2Proof/Machine/Color.lean ====
section
/-! DEFINITION. The Color Space Converter: to_linear, to_gamma, and the commands LIN and GAM (40_color.md). -/

namespace Sys2Proof.Machine

open Sys2Proof.Arith

/-- `to_linear(b)` (R140). -/
def toLinear (cfg : Config) (b : Byte) : F64 :=
  let v := div (ofNat b.toNat) c255
  if le v c0_04045 then div v c12_92
  else cfg.pow (div (add v c0_055) c1_055) c2_4

/-- `SatByte(r)` (R145). -/
def satByte (r : F64) : Byte :=
  if isNaN r || le r zero then 0#8
  else if le c255 r then 255#8
  else BitVec.ofNat 8 (toNat r)

/-- `RoundByte(t)` (R144). -/
def roundByte (t : F64) : Byte := satByte (ftrunc (add t half))

/-- `to_gamma(f)` (R143). -/
def toGamma (cfg : Config) (f : F64) : Byte :=
  let v := fclamp f zero one
  if le v c0_0031308 then roundByte (mul (mul v c12_92) c255)
  else roundByte (mul (sub (mul (cfg.pow v cInv2_4) c1_055) c0_055) c255)

/-- LIN under given parameters (R146): RESF takes to_linear of ARG[7:0]. -/
def linCommand (cfg : Config) (rsv : BitVec 24) (s : State) : Host.Outcome State Fault Refusal :=
  runCommand [(rsv == 0, .reservedField)]
    (fun s => { s with resf := toLinear cfg (s.arg.extractLsb' 0 8) }) s

/-- LIN (R146). -/
def execLin (rsv : BitVec 24) (s : State) : Host.Outcome State Fault Refusal :=
  linCommand Config.hw rsv s

/-- GAM under given parameters (R147): RESI takes to_gamma of ARGF, zero-extended. -/
def gamCommand (cfg : Config) (rsv : BitVec 24) (s : State) : Host.Outcome State Fault Refusal :=
  runCommand [(rsv == 0, .reservedField)]
    (fun s => { s with resi := (toGamma cfg s.argf).setWidth 32 }) s

/-- GAM (R147). -/
def execGam (rsv : BitVec 24) (s : State) : Host.Outcome State Fault Refusal :=
  gamCommand Config.hw rsv s

end Sys2Proof.Machine
end

