-- ==== Sys2Proof/Machine/Basis.lean ====
section
/-! DEFINITION. The Basis Function Evaluator and the command BASIS (41_basis.md). -/

namespace Sys2Proof.Machine

open Sys2Proof.Arith

/-- An argument of COS: `((π * f64(i)) * f64(x)) / f64(W)` (R173). -/
def basisArgument (i x w : Nat) : F64 := div (mul (mul pi (ofNat i)) (ofNat x)) (ofNat w)

/-- The normalization (R172). -/
def basisNorm (i j : Nat) : F64 := if i = 0 ∧ j = 0 then one else two

/-- The weight of a pixel: `(norm * COS(a)) * COS(b)` (R173). -/
def basisWeight (cfg : Config) (i j x y w h : Nat) : F64 :=
  mul (mul (basisNorm i j) (cfg.cos (basisArgument i x w))) (cfg.cos (basisArgument j y h))

/-- One pixel added to the accumulators: `acc[c] + (bw * l)`, multiply, round, add, round (R174). -/
def addPixel (cfg : Config) (pix : List Host.Cell) (w h i j y : Nat) (acc : Triplet) (x : Nat) : Triplet :=
  let bw := basisWeight cfg i j x y w h
  { r := add acc.r (mul bw (toLinear cfg (channel pix w x y 0)))
    g := add acc.g (mul bw (toLinear cfg (channel pix w x y 1)))
    b := add acc.b (mul bw (toLinear cfg (channel pix w x y 2))) }

/-- One row of pixels, left to right (R174). -/
def addRow (cfg : Config) (pix : List Host.Cell) (w h i j : Nat) (acc : Triplet) (y : Nat) : Triplet :=
  (List.range w).foldl (addPixel cfg pix w h i j y) acc

/-- The sum over the whole grid: rows top first, from +0.0 (R174). -/
def basisSum (cfg : Config) (pix : List Host.Cell) (w h i j : Nat) : Triplet :=
  (List.range h).foldl (addRow cfg pix w h i j) Triplet.zero

/-- Every channel times one factor. -/
def Triplet.scaledBy (t : Triplet) (k : F64) : Triplet := ⟨mul t.r k, mul t.g k, mul t.b k⟩

/-- `Basis(i, j)` (R170): the sum times the rounded reciprocal of W·H (R175). -/
def basis (cfg : Config) (pix : List Host.Cell) (w h i j : Nat) : Triplet :=
  (basisSum cfg pix w h i j).scaledBy (div one (ofNat (w * h)))

/-- `Basis(i, j)` on the grid the state holds. -/
def State.basis (cfg : Config) (s : State) (i j : Nat) : Triplet :=
  Machine.basis cfg s.pix s.width.toNat s.height.toNat i j

/-- The slot of component (i, j): `n = j * nx + i` (R176). -/
def State.slotOf (s : State) (i j : Nat) : Nat := j * s.nx.toNat + i

/-- What a successful BASIS writes: one slot (R177), three draws if a pixel byte was disturbed (R81). -/
def basisEffect (cfg : Config) (j i : BitVec 4) (s : State) : State :=
  let n := s.slotOf i.toNat j.toNat
  if s.pixDisturbed then (s.setSlot n (s.drawTriplet 0)).drew 3
  else s.setSlot n (s.basis cfg i.toNat j.toNat)

/-- BASIS under given parameters, its checks in the order of R302 (R177). -/
def basisCommand (cfg : Config) (rsv : BitVec 16) (j i : BitVec 4) (s : State) :
    Host.Outcome State Fault Refusal :=
  runCommand
    [(rsv == 0, .reservedField), (s.ncompOk, .badNcomp), (s.dimOk cfg, .badDim),
     (s.basisOperandOk j i, .badOperand)]
    (basisEffect cfg j i) s

/-- BASIS (R177). -/
def execBasis (rsv : BitVec 16) (j i : BitVec 4) (s : State) : Host.Outcome State Fault Refusal :=
  basisCommand Config.hw rsv j i s

end Sys2Proof.Machine
end

