-- ==== Sys2Proof/Machine/Quantize.lean ====
section
/-! DEFINITION. The Quantizer: QuantDC, ScaleSelect, QuantAC, and the commands QDC, QSCALE and QAC
(42_quantize.md). -/

namespace Sys2Proof.Machine

open Sys2Proof.Arith

/-- `QuantDC(t)` (R200): the three gamma bytes, packed as `(r << 16) | (g << 8) | b`. -/
def quantDC (cfg : Config) (t : Triplet) : BitVec 24 := toGamma cfg t.r ++ toGamma cfg t.g ++ toGamma cfg t.b

/-- The three results of ScaleSelect (R210). -/
structure Scale where
  actmax : F64
  q : Nat
  maximum : F64
  deriving DecidableEq, Repr

/-- `actual_max`: the fold of fmax over the absolute values of every channel, from +0.0 (R210). -/
def actualMax (acs : List Triplet) : F64 :=
  acs.foldl (fun m t => t.channels.foldl (fun m v => fmax m (fabs v)) m) zero

/-- `quantized_scale` for a given actual_max (R210). -/
def quantizedScale (m : F64) : Nat := toNat (fclamp (ffloor (sub (mul m c166) half)) zero c82)

/-- `maximum` for a given quantized_scale (R210). -/
def maximumOf (q : Nat) : F64 := div (ofNat (q + 1)) c166

/-- `ScaleSelect` over the AC triplets; with none, the case of R211. -/
def scaleSelect (acs : List Triplet) : Scale :=
  if acs.isEmpty then ⟨zero, 0, one⟩
  else
    let m := actualMax acs
    let q := quantizedScale m
    ⟨m, q, maximumOf q⟩

/-- `QuantACch(v, maximum)` (R220). -/
def quantACch (cfg : Config) (v maximum : F64) : Nat :=
  let x := div v maximum
  let p := mul (fsign x) (cfg.pow (fabs x) half)
  toNat (fclamp (ffloor (add (mul p c9) c9_5)) zero c18)

/-- `QuantAC(t, maximum)` (R221). -/
def quantAC (cfg : Config) (t : Triplet) (maximum : F64) : Nat :=
  quantACch cfg t.r maximum * 361 + quantACch cfg t.g maximum * 19 + quantACch cfg t.b maximum

/-- COMP[1] .. COMP[NX·NY − 1]: the AC terms (R210). -/
def State.acSlots (s : State) : List Triplet := (List.range (s.components - 1)).map fun k => s.slot (k + 1)

/-- Write ACTMAX, SCALE and MAX (R212, R263). -/
def State.setScale (s : State) (c : Scale) : State :=
  { s with actmax := c.actmax, scale := BitVec.ofNat 7 c.q, max := c.maximum }

/-- QDC under given parameters (R201): it reads slot 0 and no configuration register. -/
def qdcCommand (cfg : Config) (rsv : BitVec 24) (s : State) : Host.Outcome State Fault Refusal :=
  runCommand [(rsv == 0, .reservedField)]
    (fun s => { s with resi := (quantDC cfg (s.slot 0)).setWidth 32 }) s

/-- QDC (R201). -/
def execQdc (rsv : BitVec 24) (s : State) : Host.Outcome State Fault Refusal :=
  qdcCommand Config.hw rsv s

/-- What a successful QSCALE writes: ACTMAX, SCALE, MAX and RESI (R212). -/
def qscaleEffect (s : State) : State :=
  let c := scaleSelect s.acSlots
  { s.setScale c with resi := BitVec.ofNat 32 c.q }

/-- QSCALE (R212). It uses none of the parameters. -/
def execQscale (rsv : BitVec 24) (s : State) : Host.Outcome State Fault Refusal :=
  runCommand [(rsv == 0, .reservedField), (s.ncompOk, .badNcomp)] qscaleEffect s

/-- QAC under given parameters (R222): it uses MAX as it stands. -/
def qacCommand (cfg : Config) (rsv : BitVec 17) (k : BitVec 7) (s : State) :
    Host.Outcome State Fault Refusal :=
  runCommand
    [(rsv == 0, .reservedField), (s.ncompOk, .badNcomp), (s.qacOperandOk k, .badOperand)]
    (fun s => { s with resi := BitVec.ofNat 32 (quantAC cfg (s.slot k.toNat) s.max) }) s

/-- QAC (R222). -/
def execQac (rsv : BitVec 17) (k : BitVec 7) (s : State) : Host.Outcome State Fault Refusal :=
  qacCommand Config.hw rsv k s

end Sys2Proof.Machine
end

