-- ==== Sys2Proof/Machine/Encode.lean ====
section
/-! DEFINITION. The Orchestrator: the size flag, Hash, and the commands ENCODE and NOP (44_encode.md). -/

namespace Sys2Proof.Machine

/-- `SizeFlag(nx, ny)` (R260). -/
def sizeFlag (nx ny : Nat) : Nat := (nx - 1) + (ny - 1) * 9

/-- The hash length `L = 6 + 2*(nx*ny - 1)` (R122). -/
def hashLength (n : Nat) : Nat := 6 + 2 * (n - 1)

/-- `comp[0 .. nx*ny − 1]` of R262: slot n holds component (n mod nx, n div nx) (R176). -/
def components (cfg : Config) (pix : List Host.Cell) (w h nx ny : Nat) : List Triplet :=
  (List.range (nx * ny)).map fun n => basis cfg pix w h (n % nx) (n / nx)

/-- The string of R262 for given component triplets and AC scale, in wire order (R120). -/
def hashString (cfg : Config) (nx ny : Nat) (comps : List Triplet) (c : Scale) : List Byte :=
  base83 (sizeFlag nx ny) 1 ++ base83 c.q 1 ++ base83 (quantDC cfg (comps.headD Triplet.zero)).toNat 4 ++
    comps.tail.flatMap fun t => base83 (quantAC cfg t c.maximum) 2

/-- What ENCODE writes when no pixel byte was disturbed (R263). -/
def encodeWrites (cfg : Config) (s : State) : State :=
  let comps := components cfg s.pix s.width.toNat s.height.toNat s.nx.toNat s.ny.toNat
  let c := scaleSelect comps.tail
  ((s.setSlots comps).setScale c).writeHash 0 (hashString cfg s.nx.toNat s.ny.toNat comps c)

/-- What ENCODE writes after a pixel byte it reads was disturbed: a draw per written value (R81). -/
def encodeDraws (s : State) : State :=
  let n := s.components
  let comps := (List.range n).map fun k => s.drawTriplet (3 * k)
  let bytes := (List.range (hashLength n)).map fun p => (s.draw (3 * n + 3 + p)).setWidth 8
  let s' := (s.setSlots comps).writeHash 0 bytes
  { s' with
    scale := (s.draw (3 * n)).setWidth 7
    max := s.draw (3 * n + 1)
    actmax := s.draw (3 * n + 2)
    draws := s.draws + (3 * n + 3 + hashLength n) }

/-- What a successful ENCODE writes. HASHLEN and RESI are L in every case (R81, R263). -/
def encodeEffect (cfg : Config) (s : State) : State :=
  let s' := if s.pixDisturbed then encodeDraws s else encodeWrites cfg s
  { s' with
    hashlen := BitVec.ofNat 8 (hashLength s.components)
    resi := BitVec.ofNat 32 (hashLength s.components) }

/-- ENCODE under given parameters (R263). -/
def encodeCommand (cfg : Config) (rsv : BitVec 24) (s : State) : Host.Outcome State Fault Refusal :=
  runCommand
    [(rsv == 0, .reservedField), (s.ncompOk, .badNcomp), (s.dimOk cfg, .badDim)]
    (encodeEffect cfg) s

/-- ENCODE (R263). -/
def execEncode (rsv : BitVec 24) (s : State) : Host.Outcome State Fault Refusal :=
  encodeCommand Config.hw rsv s

/-- NOP (R264): nothing but STATUS is written. -/
def execNop (rsv : BitVec 24) (s : State) : Host.Outcome State Fault Refusal :=
  runCommand [(rsv == 0, .reservedField)] (fun s => s) s

end Sys2Proof.Machine
end

