-- ==== Sys2Proof/Machine/Dispatch.lean ====
section
/-! DEFINITION. The Exec of R52 and R302: one meaning per command of the opcode map (R105). -/

namespace Sys2Proof.Machine

def exec (i : Instr) (s : State) : Host.Outcome State Fault Refusal :=
  match i with
  | .nop rsv => Sys2Proof.Machine.execNop rsv s
  | .encode rsv => Sys2Proof.Machine.execEncode rsv s
  | .lin rsv => Sys2Proof.Machine.execLin rsv s
  | .gam rsv => Sys2Proof.Machine.execGam rsv s
  | .basis rsv fj fi => Sys2Proof.Machine.execBasis rsv fj fi s
  | .qdc rsv => Sys2Proof.Machine.execQdc rsv s
  | .qscale rsv => Sys2Proof.Machine.execQscale rsv s
  | .qac rsv k => Sys2Proof.Machine.execQac rsv k s
  | .b83 rsvHi off rsvLo len => Sys2Proof.Machine.execB83 rsvHi off rsvLo len s

end Sys2Proof.Machine
end

