-- ==== Sys2Proof/Machine/Window.lean ====
section
/-! DEFINITION. The register window and what the host can do to the block: reads, writes, fills of pixel
memory (10_state.md section 2, 20_memory.md sections 1 and 3). -/

namespace Sys2Proof.Machine

/-- What serves a word of the window (R32). -/
inductive Reg where
  | cmd | status | ctrl | dim | ncomp | arg | argfLo | argfHi
  | resi | resfLo | resfHi | scale | maxLo | maxHi | actmaxLo | actmaxHi | hashlen
  /-- The low (h = 0) or high (h = 1) word of channel c of component slot n (R54). -/
  | comp (n c h : Nat)
  /-- Word w of the hash window (R56). -/
  | hash (w : Nat)
  /-- A reserved offset (R33). -/
  | reserved
  deriving DecidableEq, Repr

/-- The map of rule R32: the register at an aligned offset. -/
def regAt (o : Nat) : Reg :=
  if o = 0x000 then .cmd
  else if o = 0x004 then .status
  else if o = 0x008 then .ctrl
  else if o = 0x00C then .dim
  else if o = 0x010 then .ncomp
  else if o = 0x014 then .arg
  else if o = 0x018 then .argfLo
  else if o = 0x01C then .argfHi
  else if o = 0x020 then .resi
  else if o = 0x024 then .resfLo
  else if o = 0x028 then .resfHi
  else if o = 0x02C then .scale
  else if o = 0x030 then .maxLo
  else if o = 0x034 then .maxHi
  else if o = 0x038 then .actmaxLo
  else if o = 0x03C then .actmaxHi
  else if o = 0x040 then .hashlen
  else if 0x400 ≤ o ∧ o < 0xB98 then
    .comp ((o - 0x400) / 24) ((o - 0x400) % 24 / 8) ((o - 0x400) % 8 / 4)
  else if 0xC00 ≤ o ∧ o < 0xCA8 then .hash ((o - 0xC00) / 4)
  else .reserved

/-- The offset a register stands for in a host program (R110): the inverse of `regAt`. -/
def Reg.offset : Reg → Nat
  | .cmd => 0x000 | .status => 0x004 | .ctrl => 0x008 | .dim => 0x00C | .ncomp => 0x010
  | .arg => 0x014 | .argfLo => 0x018 | .argfHi => 0x01C | .resi => 0x020
  | .resfLo => 0x024 | .resfHi => 0x028 | .scale => 0x02C | .maxLo => 0x030 | .maxHi => 0x034
  | .actmaxLo => 0x038 | .actmaxHi => 0x03C | .hashlen => 0x040
  | .comp n c h => 0x400 + 24 * n + 8 * c + 4 * h
  | .hash w => 0xC00 + 4 * w
  | .reserved => 0x044

/-- The 32-bit aligned access to a register. -/
def Reg.access (r : Reg) : Access := ⟨r.offset, 4⟩

/-- The accesses that have a meaning: 32-bit, 4-byte aligned, inside the window (R71, R76). -/
def Access.legal (a : Access) : Bool :=
  decide (a.size = 4 ∧ a.offset % 4 = 0 ∧ a.offset < 4096)

/-- The access at a platform address, for a window that starts at REG_BASE (R71, R87). -/
def Access.ofPlatform (cfg : Config) (address size : Nat) : Option Access :=
  if cfg.regBase ≤ address then some ⟨address - cfg.regBase, size⟩ else none

/-- The low word of a 64-bit value: it sits at the lower offset (R75). -/
def lowWord (v : F64) : Word32 := v.extractLsb' 0 32

/-- The high word of a 64-bit value (R75). -/
def highWord (v : F64) : Word32 := v.extractLsb' 32 32

/-- Replace the low word of a 64-bit value (R45, R54). -/
def setLowWord (v : F64) (w : Word32) : F64 := highWord v ++ w

/-- Replace the high word of a 64-bit value (R45, R54). -/
def setHighWord (v : F64) (w : Word32) : F64 := w ++ lowWord v

/-- Channel c of a Triplet: 0 = R, 1 = G, 2 = B (R10). -/
def Triplet.channel (t : Triplet) (c : Nat) : F64 :=
  if c = 0 then t.r else if c = 1 then t.g else t.b

/-- Replace channel c of a Triplet. -/
def Triplet.setChannel (t : Triplet) (c : Nat) (v : F64) : Triplet :=
  if c = 0 then { t with r := v } else if c = 1 then { t with g := v } else { t with b := v }

/-- The value a register holds, reserved bits reading 0 (R32 to R56). -/
def State.regValue (s : State) : Reg → Word32
  | .cmd => s.cmd
  | .status => s.status.word
  | .ctrl => 0#31 ++ BitVec.ofBool s.ie
  | .dim => s.height ++ s.width
  | .ncomp => 0#24 ++ s.ny ++ s.nx
  | .arg => s.arg
  | .argfLo => lowWord s.argf
  | .argfHi => highWord s.argf
  | .resi => s.resi
  | .resfLo => lowWord s.resf
  | .resfHi => highWord s.resf
  | .scale => 0#25 ++ s.scale
  | .maxLo => lowWord s.max
  | .maxHi => highWord s.max
  | .actmaxLo => lowWord s.actmax
  | .actmaxHi => highWord s.actmax
  | .hashlen => 0#24 ++ s.hashlen
  | .comp n c h =>
    let v := (s.slot n).channel c
    if h = 0 then lowWord v else highWord v
  | .hash w =>
    s.hashByte (4 * w + 3) ++ s.hashByte (4 * w + 2) ++ s.hashByte (4 * w + 1) ++ s.hashByte (4 * w)
  | .reserved => 0#32

/-- The registers whose reads are unspecified while BUSY (R80). -/
def Reg.isResult : Reg → Bool
  | .cmd | .status | .ctrl | .dim | .ncomp | .arg | .argfLo | .argfHi | .reserved => false
  | .resi | .resfLo | .resfHi | .scale | .maxLo | .maxHi | .actmaxLo | .actmaxHi | .hashlen => true
  | .comp _ _ _ => true
  | .hash _ => true

/-- The registers whose writes are dropped while BUSY, with OVR (R39, R79). -/
def Reg.isOperand : Reg → Bool
  | .cmd | .dim | .ncomp | .arg | .argfLo | .argfHi => true
  | .comp _ _ _ => true
  | .status | .ctrl | .reserved => false
  | .resi | .resfLo | .resfHi | .scale | .maxLo | .maxHi | .actmaxLo | .actmaxHi | .hashlen => false
  | .hash _ => false

/-- A host read of a register. It changes nothing of the block (R78); a result register read while BUSY gives
a draw (R80). -/
def State.readReg (s : State) (r : Reg) : State :=
  if s.status.busy && r.isResult then
    { s with readData := (s.draw 0).setWidth 32, draws := s.draws + 1 }
  else { s with readData := s.regValue r }

/-- What a performed write stores (R34 to R54). RO registers and reserved offsets ignore it (R33, R79). -/
def State.storeReg (s : State) (r : Reg) (v : Word32) : State :=
  match r with
  | .cmd => { s with cmd := v, status := s.status.accepted }
  | .status => { s with status := s.status.clearedBy v }
  | .ctrl => { s with ie := v.getLsbD 0 }
  | .dim => { s with width := v.extractLsb' 0 16, height := v.extractLsb' 16 16 }
  | .ncomp => { s with nx := v.extractLsb' 0 4, ny := v.extractLsb' 4 4 }
  | .arg => { s with arg := v }
  | .argfLo => { s with argf := setLowWord s.argf v }
  | .argfHi => { s with argf := setHighWord s.argf v }
  | .comp n c h =>
    let t := s.slot n
    let x := t.channel c
    s.setSlot n (t.setChannel c (if h = 0 then setLowWord x v else setHighWord x v))
  | .resi | .resfLo | .resfHi | .scale | .maxLo | .maxHi | .actmaxLo | .actmaxHi | .hashlen => s
  | .hash _ => s
  | .reserved => s

/-- A host write of a register: dropped with OVR when it is an operand register and the block is busy, and
otherwise performed (R34, R39, R79). -/
def State.writeReg (s : State) (r : Reg) (v : Word32) : State :=
  if s.status.busy && r.isOperand then { s with status := s.status.overrun } else s.storeReg r v

/-- A host write of pixel memory. While BUSY it sets the mark of R81 if it touches a byte the command may
read (log entry 8). -/
def State.fillPixels (s : State) (addr : Nat) (bytes : List Byte) : State :=
  let hits := (List.range bytes.length).any fun k => s.readsPixelByte (addr + k)
  { s with
    pix := Memory.writeBytes s.pix addr bytes
    pixDisturbed := s.pixDisturbed || (s.status.busy && hits) }

/-- A host read access (R71, R76). -/
def hostRead (a : Access) (s : State) : Host.Outcome State Fault Refusal :=
  if a.legal then .next (s.readReg (regAt a.offset)) else .refused .registerAccess

/-- A host write access (R71, R76). -/
def hostWrite (a : Access) (v : Word32) (s : State) : Host.Outcome State Fault Refusal :=
  if a.legal then .next (s.writeReg (regAt a.offset) v) else .refused .registerAccess

/-- A host write of pixel memory (R72): the addresses are 0 .. PIX_BYTES − 1 (R70). -/
def hostPixWrite (cfg : Config) (addr : Nat) (bytes : List Byte) (s : State) :
    Host.Outcome State Fault Refusal :=
  if addr + bytes.length ≤ cfg.pixBytes then .next (s.fillPixels addr bytes) else .fault .pixAddress

end Sys2Proof.Machine
end

