-- ==== Sys2Proof/Machine/Sequencer.lean ====
section
/-! DEFINITION. The block sequencer: the Complete step of R52 on the command word CMD holds, and the host's
WAIT loop, whose turns it takes between (R82, R111, R352). -/

namespace Sys2Proof.Machine

/-- The Complete step (R52): Exec of CMD. A word whose opcode is not in the map ends with ILLEGAL_OPCODE (R304). -/
def complete (s : State) : Host.Outcome State Fault Refusal :=
  match decode s.cmd with
  | .ok i => exec i s
  | .error (.illegalOpcode _) => .next (s.commandError .illegalOpcode)

/-- The block's turn: enabled iff BUSY (R52); a block that holds no command takes no step (R318). -/
def blockTurn (s : State) : Host.Outcome State Fault Refusal :=
  if s.status.busy then complete s else .next s

/-- The WAIT loop of R111, with the rest of the agenda after it: while BUSY the block takes its turn and the
loop goes on; the STATUS read that finds BUSY clear ends it (log entry 19). -/
def hostWait (rest : List Event) (s : State) : Host.Outcome State Fault Refusal :=
  if s.status.busy then complete s else .next ({ s with agenda := rest }.readReg .status)

/-- One event, already taken off the agenda. -/
def happen (cfg : Config) (e : Event) (s : State) : Host.Outcome State Fault Refusal :=
  match e with
  | .read a => hostRead a s
  | .write a v => hostWrite a v s
  | .pixWrite addr bytes => hostPixWrite cfg addr bytes s
  | .wait => hostWait s.agenda { s with agenda := .wait :: s.agenda }
  | .reset => .next s.resetBlock
  | .complete => blockTurn s

end Sys2Proof.Machine
end

