-- ==== Sys2Proof/Machine/Step.lean ====
section
/-! DEFINITION. The step. The next event of the agenda happens; with an empty agenda the host does nothing
more and the block has its turn (R52, R82, R352). -/

namespace Sys2Proof.Machine

/-- One step of the block and its host. -/
def step (s : State) : Host.Outcome State Fault Refusal :=
  match s.agenda with
  | [] => blockTurn s
  | e :: rest => happen Config.hw e { s with agenda := rest }

/-- The state in which the very next step is the Complete step of the command word `w`: the word stands in CMD
as the Accept step leaves it (R34, R52), and the block has its turn next (log entry 15). -/
def State.withFetchWord (s : State) (nbits w : Nat) : State :=
  { s with
    cmd := BitVec.ofNat 32 (w % 2 ^ nbits)
    status := s.status.accepted
    agenda := .complete :: s.agenda }

end Sys2Proof.Machine
end

