-- ==== Sys2Proof/Machine/HostProgram.lean ====
section
/-! DEFINITION. Host programs: the lines of R110 and the expansions of R111, as the events they put on the
agenda. WAIT is the only control flow of a host program (R111), so a program is a list of events. -/

namespace Sys2Proof.Machine

/-- The registers that are pairs of words (R45, R47, R49, R50). -/
inductive PairReg where
  | argf | resf | max | actmax
  deriving DecidableEq, Repr

/-- `<reg>_LO`. -/
def PairReg.lo : PairReg → Reg
  | .argf => .argfLo
  | .resf => .resfLo
  | .max => .maxLo
  | .actmax => .actmaxLo

/-- `<reg>_HI`. -/
def PairReg.hi : PairReg → Reg
  | .argf => .argfHi
  | .resf => .resfHi
  | .max => .maxHi
  | .actmax => .actmaxHi

/-- One line of a host program (R110, R111). A register is given by its offset, which its name stands for. -/
inductive HostLine where
  /-- `WR <reg>, <v32>`. -/
  | wr (offset : Nat) (v : Word32)
  /-- `RD <reg>`. -/
  | rd (offset : Nat)
  /-- `PIXW <addr>, <b0>, <b1>, …`. -/
  | pixw (addr : Nat) (bytes : List Byte)
  /-- A command mnemonic with its operands. -/
  | command (i : Instr)
  /-- `WAIT`. -/
  | wait
  /-- `WR64 <reg>, <f64>`. -/
  | wr64 (reg : PairReg) (v : F64)
  /-- `WRCOMP <n>, <c>, <f64>`. -/
  | wrcomp (n c : Nat) (v : F64)
  /-- `RDHASH <w>`. -/
  | rdhash (w : Nat)
  deriving DecidableEq, Repr

/-- A 32-bit write at an offset. -/
def writeEvent (offset : Nat) (v : Word32) : Event := .write ⟨offset, 4⟩ v

/-- A 32-bit read at an offset. -/
def readEvent (offset : Nat) : Event := .read ⟨offset, 4⟩

/-- The expansion of a line (R110, R111). -/
def HostLine.expand : HostLine → List Event
  | .wr o v => [writeEvent o v]
  | .rd o => [readEvent o]
  | .pixw addr bytes => [.pixWrite addr bytes]
  | .command i => [writeEvent Reg.cmd.offset (encode i), .wait]
  | .wait => [.wait]
  | .wr64 r v => [writeEvent r.lo.offset (lowWord v), writeEvent r.hi.offset (highWord v)]
  | .wrcomp n c v =>
    [writeEvent (0x400 + 24 * n + 8 * c) (lowWord v), writeEvent (0x404 + 24 * n + 8 * c) (highWord v)]
  | .rdhash w => [readEvent (0xC00 + 4 * w)]

/-- A host program as the events it puts on the agenda. -/
def assemble (lines : List HostLine) : List Event := lines.flatMap HostLine.expand

/-- The per-unit commands of R266 that build the components and the scale: BASIS for every (i, j), j outer and
i inner, then QSCALE. -/
def componentCommands (nx ny : Nat) : List Instr :=
  ((List.range ny).flatMap fun j =>
    (List.range nx).map fun i => .basis 0 (BitVec.ofNat 4 j) (BitVec.ofNat 4 i)) ++ [.qscale 0]

/-- The Complete steps of several commands, one after another, stopping at a fault or a refusal. -/
def execAll : List Instr → State → Host.Outcome State Fault Refusal
  | [], s => .next s
  | i :: rest, s =>
    match exec i s with
    | .next t => execAll rest t
    | .fault f => .fault f
    | .refused r => .refused r

end Sys2Proof.Machine
end

