-- ==== Sys2Proof/Machine/DefaultConfig.lean ====
section
/-! DEFINITION. The named properties of COS and POW, and the default configuration CR_COS and CR_POW
(R5, R141, R171). The machine does not run with the default: its parameters are free (`Config.hw`). The
default stands here so that a claim can name it, and so that the spec's vectors can be worked out.
CR_COS and CR_POW are computed in fixed point with hundreds of bits beyond binary64, the value is snapped to
300 significant bits, so that an exact tie is seen as one, and then rounded once (log entry 13). -/

namespace Sys2Proof

open Sys2Proof.Arith

/-! The properties a claim may assume of the parameters. -/

/-- COS-ZERO (R171). -/
def Config.CosZero (c : Config) : Prop := c.cos zero = one

/-- COS-RANGE (R171): `-1.0 ≤ COS(a) ≤ 1.0` for every finite a. -/
def Config.CosRange (c : Config) : Prop :=
  ∀ a, isFinite a = true → le (neg one) (c.cos a) = true ∧ le (c.cos a) one = true

/-- POW-ONE (R141): `POW(1.0, y) = 1.0` for every finite y. -/
def Config.PowOne (c : Config) : Prop := ∀ y, isFinite y = true → c.pow one y = one

/-- POW-ZERO (R141): `POW(+0.0, y) = +0.0` for every y > 0. -/
def Config.PowZero (c : Config) : Prop := ∀ y, lt zero y = true → c.pow zero y = zero

/-- POW-RANGE (R141): for 0 ≤ x ≤ 1 and y > 0, `0 ≤ POW(x, y) ≤ 1`. -/
def Config.PowRange (c : Config) : Prop :=
  ∀ x y, le zero x = true → le x one = true → lt zero y = true →
    le zero (c.pow x y) = true ∧ le (c.pow x y) one = true

/-- POW-INF (R141): `POW(+Inf, 0.5) = +Inf`. -/
def Config.PowInf (c : Config) : Prop := c.pow 0x7FF0000000000000#64 half = 0x7FF0000000000000#64

/-- POW-NAN (R141): `POW(NaN, y)` is NaN. -/
def Config.PowNaN (c : Config) : Prop := ∀ x y, isNaN x = true → isNaN (c.pow x y) = true

/-! CR_COS and CR_POW. -/

namespace DefaultConfig

/-- The fixed-point precision: 2^700 stands for 1. -/
def prec : Nat := 700

/-- π/2 times 2^1800, rounded down. -/
def halfPi : Nat :=
  0x1921fb54442d18469898cc51701b839a252049c1114cf98e804177d4c76273644a29410f31c6809bbdf2a33679a748636605614dbe4be286e9fc26adadaa3848bc90b6aecc4bcfd8de89885d34c6fdad617feb96de80d6fdbdc70d7f6b5133f4b5d3e4822f8963fcc9250cca3d9c8b67b8400f97142c77e0b31b4906c38aba734d22c7f51fa499ebf06caba47b9475b2c38c5e6ac410aa5773daa520ee12d2cdace186a9c95793009e2e8d811943042f86520bc8c5c6d9c77c73cee58301d0c07364f0745d80f451f6b8abbe0de98a593bc5797ed2ab02e30732a92f9d52ad5ca2b

/-- ln 2 times 2^700, rounded down. -/
def ln2 : Nat :=
  0xb17217f7d1cf79abc9e3b39803f2f6af40f343267298b62d8a0d175b8baafa2be7b876206debac98559552fb4afa1b10ed2eae35c138214427573b291169b8253e96ca16224ae8c51acbda11317c387eb9ea9bc3b136603

/-- Keep the 300 leading bits of a positive number, rounded to nearest. -/
def snap (v : Nat) : Nat :=
  let k := v.log2 - 300
  (v + 2 ^ k / 2) / 2 ^ k * 2 ^ k

/-- `Σ (-1)^n p r²ⁿ / ((m+1)(m+2)…(m+2n))`, the alternating Taylor tail from the term `p` of degree `m`. -/
def alternating : Nat → Nat → Nat → Nat → Int
  | 0, _, _, _ => 0
  | fuel + 1, r2, p, m =>
    (p : Int) - alternating fuel r2 (p * r2 / 2 ^ prec / ((m + 1) * (m + 2))) (m + 2)

/-- cos r, for r in [0, π/2], in fixed point. -/
def cosFixed (r : Nat) : Nat := (alternating 100 (r * r / 2 ^ prec) (2 ^ prec) 0).toNat

/-- sin r, for r in [0, π/2], in fixed point. -/
def sinFixed (r : Nat) : Nat := (alternating 100 (r * r / 2 ^ prec) r 1).toNat

/-- CR_COS: the real cosine of the datum, rounded to nearest, ties to even (R171). DESIGN CHOICE: of an infinity or a
NaN, of which R171 says nothing, it is the positive quiet NaN 0x7FF8000000000000 (log entry 23). -/
def crCos (a : F64) : F64 :=
  if !isFinite a then 0x7FF8000000000000#64
  else if mag a = 0 then one
  else
    let x := units a * 2 ^ 726
    let r := x % halfPi / 2 ^ 1100
    let q := x / halfPi % 4
    let v := if q % 2 = 0 then cosFixed r else sinFixed r
    ofMag (decide (q = 1 ∨ q = 2)) (roundRatio (snap v * unitsPerOne) (2 ^ prec))

/-- `Σ p z²ⁿ / (m + 2n)`, the series of the inverse hyperbolic tangent from the power `p`. -/
def atanhSeries : Nat → Int → Int → Int → Int
  | 0, _, _, _ => 0
  | fuel + 1, z2, p, m => p / m + atanhSeries fuel z2 (p * z2 / 2 ^ prec) (m + 2)

/-- ln of a positive datum given in units, in fixed point. -/
def lnFixed (u : Nat) : Int :=
  let l := u.log2
  let small := decide (2 * u < 3 * 2 ^ l)
  let den : Int := if small then 2 ^ l else 2 ^ (l + 1)
  let e : Int := (if small then (l : Int) else (l : Int) + 1) - 1074
  let z := (u - den) * 2 ^ prec / (u + den)
  2 * atanhSeries 170 (z * z / 2 ^ prec) z 1 + e * (ln2 : Int)

/-- `Σ p rⁿ / ((m+1)…(m+n))`, the exponential series from the term `p` of degree `m`. -/
def expSeries : Nat → Nat → Nat → Nat → Nat
  | 0, _, _, _ => 0
  | fuel + 1, r, p, m => p + expSeries fuel r (p * r / 2 ^ prec / (m + 1)) (m + 1)

/-- Square n times, in fixed point. -/
def squareTimes : Nat → Nat → Nat
  | 0, v => v
  | n + 1, v => squareTimes n (v * v / 2 ^ prec)

/-- e^r, for r in [0, ln 2], in fixed point. -/
def expFixed (r : Nat) : Nat := squareTimes 16 (expSeries 50 (r / 2 ^ 16) (2 ^ prec) 0)

/-- The magnitude pattern of x^y for a positive finite x, given in units, and a finite y. -/
def powFinite (u : Nat) (y : F64) : Nat :=
  let t : Int := lnFixed u * signedUnits y / 2 ^ 1074
  if 800 * 2 ^ prec ≤ t then infMag
  else if t ≤ -(800 * 2 ^ prec) then 0
  else
    let k : Int := t / (ln2 : Int)
    let e := snap (expFixed (t - k * (ln2 : Int)).toNat)
    roundRatio (e * 2 ^ (k + 1074).toNat) (2 ^ prec * 2 ^ (-(k + 1074)).toNat)

/-- The magnitude pattern of |x|^y for y neither NaN nor zero, with the cases of zeros and infinities. -/
def powMag (x : Nat) (y : F64) : Nat :=
  if x = mag one then mag one
  else if isInf y then (if decide (mag one < x) = !sign y then infMag else 0)
  else if x = 0 then (if sign y then infMag else 0)
  else if x = infMag then (if sign y then 0 else infMag)
  else powFinite (unitsOfMag x) y

/-- A finite odd whole number. -/
def isOdd (y : F64) : Bool := isFinite y && decide (units y % (2 * unitsPerOne) = unitsPerOne)

/-- CR_POW: the real x^y rounded to nearest, ties to even, with the IEEE 754 special cases (R141). DESIGN CHOICE: where
it delivers a NaN (a NaN operand, a negative base with a power that is no whole number), of which the spec says only
that it is a NaN, it is the positive quiet NaN 0x7FF8000000000000 (log entry 23). -/
def crPow (x y : F64) : F64 :=
  if isNaN x then 0x7FF8000000000000#64
  else if mag y = 0 ∨ x = one then one
  else if isNaN y then 0x7FF8000000000000#64
  else if sign x && isFinite x && decide (mag x ≠ 0) && isFinite y && !isIntegral y then
    0x7FF8000000000000#64
  else ofMag (sign x && isOdd y) (powMag (mag x) y)

end DefaultConfig

/-- The default configuration (R5), with the smallest pixel memory and the window at address 0. -/
def Config.default : Config where
  cos := DefaultConfig.crCos
  pow := DefaultConfig.crPow
  pixExtra := 0
  regBase := 0

end Sys2Proof
end

