-- ==== Sys2Proof/Safety.lean ====
section
/-! DEFINITION. What a consistent state and a safe run are, in the terms the claims use. -/

namespace Sys2Proof.Machine

/-- What every run of the machine keeps, from reset or from any consistent state. -/
structure State.Consistent (s : State) : Prop where
  /-- PIX is in canonical form. -/
  pixWf : Memory.wf s.pix
  /-- PIX lists no address outside 0 .. PIX_BYTES − 1 (R70). -/
  pixInRange : ∀ c ∈ s.pix, c.1 < Config.hw.pixBytes
  /-- "STATUS.ERR equals (ECODE ≠ 0) at all times" (R38). -/
  errIffEcode : s.status.err = decide (s.status.ecode ≠ 0)
  /-- "Values 6..15 are never written" (R40). -/
  ecodeLegal : s.status.ecode.toNat ≤ 5
  /-- Acceptance clears DONE and completion clears BUSY (R36, R37). -/
  busyNotDone : s.status.busy = true → s.status.done = false
  /-- The mark of R81 stands only while a command is held. -/
  markOnlyBusy : s.pixDisturbed = true → s.status.busy = true
  /-- HASHLEN is 0, or the length of a hash for some legal (nx, ny) (R51, R122). -/
  hashlenLegal : s.hashlen = 0 ∨
    ∃ nx ny, 1 ≤ nx ∧ nx ≤ 9 ∧ 1 ≤ ny ∧ ny ≤ 9 ∧ s.hashlen.toNat = hashLength (nx * ny)

/-- `maximum` as R49 describes it: 1.0, or `f64(q+1) / 166.0` for some q in [0, 82]. -/
def MaxLegal (m : F64) : Prop := m = Arith.one ∨ ∃ q, q ≤ 82 ∧ m = maximumOf q

/-- An event the block can serve: its register access has a meaning (R71, R76), its bytes lie in PIX (R70). -/
def Event.legal (cfg : Config) : Event → Bool
  | .read a => a.legal
  | .write a _ => a.legal
  | .pixWrite addr bytes => decide (addr + bytes.length ≤ cfg.pixBytes)
  | .wait | .reset | .complete => true

/-- What a command that ends with the error code `e` leaves: STATUS changes and nothing else (R301). -/
def State.failedWith (s : State) (e : BitVec 4) : State :=
  { s with status := ⟨false, true, true, s.status.ovr, e⟩, pixDisturbed := false }

/-- A run that never stops: whatever the number of steps, the machine is in a state. -/
def SafeRun (s : State) : Prop := ∀ k, ∃ t, Sys2Proof.core.run k s = .next t

end Sys2Proof.Machine

namespace Sys2Proof.Arith

/-- The real number a finite datum stands for. -/
def value (a : F64) : ℚ := (signedUnits a : ℚ) / (unitsPerOne : ℚ)

/-- The datum `c` is the real number `x` rounded to nearest, ties to even, with overflow to infinity (R8). -/
structure RoundsTo (x : ℚ) (c : F64) : Prop where
  /-- The result is a number. -/
  number : isNaN c = false
  /-- It has the sign of a non-zero x. -/
  signed : x ≠ 0 → sign c = decide (x < 0)
  /-- It is infinite exactly from halfway above the largest finite magnitude on. -/
  overflow : isFinite c = false ↔ 2 ^ 1024 - 2 ^ 970 ≤ |x|
  /-- No finite datum is nearer. -/
  nearest : isFinite c = true → ∀ d, isFinite d = true → |x - value c| ≤ |x - value d|
  /-- When another value is equally near, the significand taken is even. -/
  even : isFinite c = true → ∀ d, isFinite d = true → value d ≠ value c →
    |x - value d| = |x - value c| → mag c % 2 = 0

end Sys2Proof.Arith
end

