-- ==== Sys2Proof/Certificates/Slice0/Obligations.lean ====
section
/-! DEFINITION. The statements for the provers. Each docstring names the rules of the spec it formalises. -/

open Sys2Proof Sys2Proof.Machine

/-! ## Encoding -/

/-- R100 to R105: decoding the word of any command, with every operand and every reserved bit at every value,
gives the command back. -/
def Obligations.DecodeOfEncodeIsTheCommand : Prop :=
  ∀ i : Instr, decode (encode i) = .ok i

/-- R100, R107: a word that decodes is the word of the command it decodes to, so a set reserved bit never
selects another command and no bit is lost. -/
def Obligations.EncodeOfDecodeIsTheWord : Prop :=
  ∀ (w : Word32) (i : Instr), decode w = .ok i → encode i = w

/-- R107: the reserved bits of a command are all clear exactly when its word has no bit of its format's mask. -/
def Obligations.WellFormedIsTheReservedMask : Prop :=
  ∀ i : Instr, i.WellFormed ↔ encode i &&& i.reservedMask = 0

/-- R106, R304: the words refused are exactly those of the 247 opcodes outside the map, and such a word, once
accepted, completes with ECODE 1 and nothing else changes. -/
def Obligations.IllegalOpcodesFailWithCodeOne : Prop :=
  (∀ w : Word32, (∃ e, decode w = .error e) ↔
    opcodeField w ∉ [0x00#8, 0x01#8, 0x10#8, 0x11#8, 0x20#8, 0x30#8, 0x31#8, 0x32#8, 0x40#8]) ∧
  ((List.range 256).filter fun o =>
    decide (o ∉ [0x00, 0x01, 0x10, 0x11, 0x20, 0x30, 0x31, 0x32, 0x40])).length = 247 ∧
  ∀ s : State, (∃ e, decode s.cmd = .error e) → complete s = .next (s.failedWith 1)

/-- R105, R111: words written out from the opcode map decode to the commands they stand for. -/
def Obligations.WrittenOutWordsDecode : Prop :=
  decode 0x00000000#32 = .ok (.nop 0) ∧
  decode 0x01000000#32 = .ok (.encode 0) ∧
  decode 0x10000000#32 = .ok (.lin 0) ∧
  decode 0x11000000#32 = .ok (.gam 0) ∧
  decode 0x20000021#32 = .ok (.basis 0 2 1) ∧
  decode 0x30000000#32 = .ok (.qdc 0) ∧
  decode 0x31000000#32 = .ok (.qscale 0) ∧
  decode 0x32000005#32 = .ok (.qac 0 5) ∧
  decode 0x40000204#32 = .ok (.b83 0 2 0 4)

/-! ## The machine -/

/-- R52, R82, R304, R318: a step in which the block has its turn runs the command CMD decodes to if BUSY is 1,
completes with ILLEGAL_OPCODE and changes nothing else if the opcode is one of the 247 illegal ones, and does nothing
if BUSY is 0; a host read, write or finished WAIT on the agenda is that access; and the step after a command
word is placed runs exactly that command, or is exactly that completion (the agenda, WAIT, the placing and the idle step are the model's, log
entries 4, 15, 16, 19 and 20). -/
def Obligations.StepRunsTheDecodedCommand : Prop :=
  (∀ (s : State) (i : Instr), s.status.busy = true → decode s.cmd = .ok i →
    (s.agenda = [] → step s = exec i s) ∧
    (∀ rest, s.agenda = .complete :: rest → step s = exec i { s with agenda := rest }) ∧
    (∀ rest, s.agenda = .wait :: rest → step s = exec i s)) ∧
  (∀ (s : State) (e : DecodeError), s.status.busy = true → decode s.cmd = .error e →
    (s.agenda = [] → step s = .next (s.failedWith 1)) ∧
    (∀ rest, s.agenda = .complete :: rest → step s = .next (State.failedWith { s with agenda := rest } 1)) ∧
    (∀ rest, s.agenda = .wait :: rest → step s = .next (s.failedWith 1))) ∧
  (∀ s : State, s.status.busy = false →
    (s.agenda = [] → step s = .next s) ∧
    (∀ rest, s.agenda = .complete :: rest → step s = .next { s with agenda := rest }) ∧
    (∀ rest, s.agenda = .wait :: rest → step s = hostRead ⟨0x004, 4⟩ { s with agenda := rest })) ∧
  (∀ (s : State) (rest : List Event) (a : Access) (v : Word32),
    (s.agenda = .read a :: rest → step s = hostRead a { s with agenda := rest }) ∧
    (s.agenda = .write a v :: rest → step s = hostWrite a v { s with agenda := rest })) ∧
  (∀ (s : State) (w : Word32),
    let accepted := { s with cmd := w, status := { s.status with busy := true, done := false } }
    (∀ i, decode w = .ok i → step (s.withFetchWord 32 w.toNat) = exec i accepted) ∧
    (∀ e, decode w = .error e → step (s.withFetchWord 32 w.toNat) = .next (accepted.failedWith 1)))

/-- R34: what a host write and a host read of CMD do, and its reset value. -/
def Obligations.CommandWritesAreAcceptedOrDropped : Prop :=
  ∀ (s : State) (v : Word32),
    (s.status.busy = false → hostWrite ⟨0x000, 4⟩ v s =
      .next { s with cmd := v, status := { s.status with busy := true, done := false } }) ∧
    (s.status.busy = true → hostWrite ⟨0x000, 4⟩ v s =
      .next { s with status := { s.status with ovr := true } }) ∧
    hostRead ⟨0x000, 4⟩ s = .next { s with readData := s.cmd } ∧
    State.reset.cmd = 0

/-- R35: the bits of STATUS, and what a host write of STATUS does in any state. -/
def Obligations.StatusBitsAndStatusWrites : Prop :=
  ∀ (s : State) (v : Word32),
    (s.regValue (regAt 0x004)).getLsbD 0 = s.status.busy ∧
    (s.regValue (regAt 0x004)).getLsbD 1 = s.status.done ∧
    (s.regValue (regAt 0x004)).getLsbD 2 = s.status.err ∧
    (s.regValue (regAt 0x004)).getLsbD 3 = s.status.ovr ∧
    (s.regValue (regAt 0x004)).extractLsb' 4 4 = s.status.ecode ∧
    (s.regValue (regAt 0x004)).extractLsb' 8 24 = 0 ∧
    hostWrite ⟨0x004, 4⟩ v s = .next { s with status := { s.status with
      done := s.status.done && !v.getLsbD 1, ovr := s.status.ovr && !v.getLsbD 3 } } ∧
    State.reset.regValue (regAt 0x004) = 0

/-- R79, R39: a host write while BUSY. A write of an operand register is dropped and sets OVR, a write of STATUS
or CTRL is performed, and every other write is ignored. -/
def Obligations.WritesWhileBusy : Prop :=
  ∀ (s : State) (o : Nat) (v : Word32), s.status.busy = true → o % 4 = 0 → o < 4096 →
    (o ∈ [0x000, 0x00C, 0x010, 0x014, 0x018, 0x01C] ∨ (0x400 ≤ o ∧ o < 0xB98) →
      hostWrite ⟨o, 4⟩ v s = .next { s with status := { s.status with ovr := true } }) ∧
    (o = 0x004 → hostWrite ⟨o, 4⟩ v s = .next { s with status := { s.status with
      done := s.status.done && !v.getLsbD 1, ovr := s.status.ovr && !v.getLsbD 3 } }) ∧
    (o = 0x008 → hostWrite ⟨o, 4⟩ v s = .next { s with ie := v.getLsbD 0 }) ∧
    ((0x020 ≤ o ∧ o < 0x400) ∨ 0xB98 ≤ o → hostWrite ⟨o, 4⟩ v s = .next s)

/-- R79: whatever the host does while BUSY, short of a reset, the operands a command reads stay as they are (the
events are the model's, log entry 4). -/
def Obligations.OperandsAreStableWhileBusy : Prop :=
  ∀ (s t : State) (e : Event) (rest : List Event), s.status.busy = true → s.agenda = e :: rest →
    e ≠ .reset → e ≠ .complete → e ≠ .wait → step s = .next t →
    t.status.busy = true ∧ t.cmd = s.cmd ∧ t.width = s.width ∧ t.height = s.height ∧ t.nx = s.nx ∧
    t.ny = s.ny ∧ t.arg = s.arg ∧ t.argf = s.argf ∧ t.comp = s.comp ∧ t.hash = s.hash ∧ t.max = s.max

/-- R78, R80: a host read changes nothing of the block. It gives the value the register holds, except that a
result register, a word of COMP or a word of HASH read while BUSY gives the next draw, whatever that is (the
numbering of draws is the model's, log entry 2). R32, R41 to R51, R75: what the registers from CTRL to HASHLEN hold,
field by field, the low word of a 64-bit value at the lower offset. -/
def Obligations.ReadsHaveNoSideEffect : Prop :=
  (∀ (s : State) (o : Nat), o % 4 = 0 → o < 4096 →
    let result := (0x020 ≤ o ∧ o ≤ 0x040) ∨ (0x400 ≤ o ∧ o < 0xB98) ∨ (0xC00 ≤ o ∧ o < 0xCA8)
    (s.status.busy = true → result → hostRead ⟨o, 4⟩ s =
      .next { s with readData := (Config.draw s.draws).setWidth 32, draws := s.draws + 1 }) ∧
    (s.status.busy = false ∨ ¬result →
      hostRead ⟨o, 4⟩ s = .next { s with readData := s.regValue (regAt o) })) ∧
  (∀ s : State,
    (s.regValue (regAt 0x008)).toNat = s.ie.toNat ∧
    (s.regValue (regAt 0x00C)).toNat = s.height.toNat * 65536 + s.width.toNat ∧
    (s.regValue (regAt 0x010)).toNat = s.ny.toNat * 16 + s.nx.toNat ∧
    s.regValue (regAt 0x014) = s.arg ∧
    s.regValue (regAt 0x018) = s.argf.extractLsb' 0 32 ∧ s.regValue (regAt 0x01C) = s.argf.extractLsb' 32 32 ∧
    s.regValue (regAt 0x020) = s.resi ∧
    s.regValue (regAt 0x024) = s.resf.extractLsb' 0 32 ∧ s.regValue (regAt 0x028) = s.resf.extractLsb' 32 32 ∧
    (s.regValue (regAt 0x02C)).toNat = s.scale.toNat ∧
    s.regValue (regAt 0x030) = s.max.extractLsb' 0 32 ∧ s.regValue (regAt 0x034) = s.max.extractLsb' 32 32 ∧
    s.regValue (regAt 0x038) = s.actmax.extractLsb' 0 32 ∧
    s.regValue (regAt 0x03C) = s.actmax.extractLsb' 32 32 ∧
    (s.regValue (regAt 0x040)).toNat = s.hashlen.toNat)

/-- R33: reserved offsets read 0 and ignore writes, in any state, and the reserved bits of CTRL, NCOMP, STATUS,
SCALE and HASHLEN read 0 whatever was written. -/
def Obligations.ReservedSpaceReadsZero : Prop :=
  (∀ (s : State) (o : Nat) (v : Word32), o % 4 = 0 →
    (0x044 ≤ o ∧ o < 0x400) ∨ (0xB98 ≤ o ∧ o < 0xC00) ∨ (0xCA8 ≤ o ∧ o < 0x1000) →
    hostRead ⟨o, 4⟩ s = .next { s with readData := 0 } ∧ hostWrite ⟨o, 4⟩ v s = .next s) ∧
  (∀ s : State,
    (s.regValue (regAt 0x008)).extractLsb' 1 31 = 0 ∧
    (s.regValue (regAt 0x010)).extractLsb' 8 24 = 0 ∧
    (s.regValue (regAt 0x004)).extractLsb' 8 24 = 0 ∧
    (s.regValue (regAt 0x02C)).extractLsb' 7 25 = 0 ∧
    (s.regValue (regAt 0x040)).extractLsb' 8 24 = 0)

/-- R71, R76: a register access is refused exactly when it is not 32-bit, not 4-byte aligned, or outside the
4096-byte window. -/
def Obligations.OnlyAlignedWordAccessesHaveMeaning : Prop :=
  ∀ (s : State) (a : Access) (v : Word32),
    (hostRead a s = .refused .registerAccess ↔ a.size ≠ 4 ∨ a.offset % 4 ≠ 0 ∨ 4096 ≤ a.offset) ∧
    (hostWrite a v s = .refused .registerAccess ↔ a.size ≠ 4 ∨ a.offset % 4 ≠ 0 ∨ 4096 ≤ a.offset)

/-- R41 to R45: an idle host write of CTRL, DIM, NCOMP, ARG or a half of ARGF stores the fields and does nothing
else. R32, R79: a host write of a read-only register, RESI to HASHLEN, is ignored at any time. -/
def Obligations.OperandWritesStoreTheFields : Prop :=
  (∀ (s : State) (o : Nat) (v : Word32), o % 4 = 0 → 0x020 ≤ o → o ≤ 0x040 → hostWrite ⟨o, 4⟩ v s = .next s) ∧
  ∀ (s : State) (v : Word32), s.status.busy = false →
    hostWrite ⟨0x008, 4⟩ v s = .next { s with ie := v.getLsbD 0 } ∧
    hostWrite ⟨0x00C, 4⟩ v s =
      .next { s with width := v.extractLsb' 0 16, height := v.extractLsb' 16 16 } ∧
    hostWrite ⟨0x010, 4⟩ v s = .next { s with nx := v.extractLsb' 0 4, ny := v.extractLsb' 4 4 } ∧
    hostWrite ⟨0x014, 4⟩ v s = .next { s with arg := v } ∧
    hostWrite ⟨0x018, 4⟩ v s = .next { s with argf := s.argf.extractLsb' 32 32 ++ v } ∧
    hostWrite ⟨0x01C, 4⟩ v s = .next { s with argf := v ++ s.argf.extractLsb' 0 32 }

/-- R54, R75: the words of the COMP window are the halves of COMP[n][c], which an idle host reads, while a busy
one gets an unspecified value and changes nothing of the block; an idle host write replaces those 32 bits only, and
every other word of the window, every other register and all memory stay. -/
def Obligations.CompWindowWordsAreHalvesOfEntries : Prop :=
  (∀ (s : State) (n c h : Nat), n < 81 → c < 3 → h < 2 →
    s.regValue (regAt (0x400 + 24 * n + 8 * c + 4 * h)) = ((s.slot n).channel c).extractLsb' (32 * h) 32 ∧
    (s.status.busy = false → hostRead ⟨0x400 + 24 * n + 8 * c + 4 * h, 4⟩ s =
      .next { s with readData := ((s.slot n).channel c).extractLsb' (32 * h) 32 }) ∧
    (s.status.busy = true → ∃ v d, hostRead ⟨0x400 + 24 * n + 8 * c + 4 * h, 4⟩ s =
      .next { s with readData := v, draws := d })) ∧
  (∀ (s : State) (n c h : Nat) (v : Word32), s.status.busy = false → n < 81 → c < 3 → h < 2 →
    ∃ t, hostWrite ⟨0x400 + 24 * n + 8 * c + 4 * h, 4⟩ v s = .next t ∧
      t.regValue (regAt (0x400 + 24 * n + 8 * c + 4 * h)) = v ∧
      (∀ n' c' h', n' < 81 → c' < 3 → h' < 2 → (n', c', h') ≠ (n, c, h) →
        t.regValue (regAt (0x400 + 24 * n' + 8 * c' + 4 * h')) =
          s.regValue (regAt (0x400 + 24 * n' + 8 * c' + 4 * h'))) ∧
      { t with comp := s.comp } = s)

/-- R56, R75: byte lane b of word w of the HASH window is HASH[4w + b], and 0 above byte 165; an idle host reads
it, a busy one gets an unspecified value, and a host write of the window is ignored. -/
def Obligations.HashWindowWordsAreHashBytes : Prop :=
  ∀ (s : State) (w b : Nat) (v : Word32), w < 42 → b < 4 →
    (∀ h : 4 * w + b < 166,
      (s.regValue (regAt (0xC00 + 4 * w))).extractLsb' (8 * b) 8 = s.hash[4 * w + b]) ∧
    (166 ≤ 4 * w + b → (s.regValue (regAt (0xC00 + 4 * w))).extractLsb' (8 * b) 8 = 0) ∧
    (s.status.busy = false → hostRead ⟨0xC00 + 4 * w, 4⟩ s =
      .next { s with readData := s.regValue (regAt (0xC00 + 4 * w)) }) ∧
    (s.status.busy = true → ∃ v d, hostRead ⟨0xC00 + 4 * w, 4⟩ s =
      .next { s with readData := v, draws := d }) ∧
    hostWrite ⟨0xC00 + 4 * w, 4⟩ v s = .next s

/-- R310, R311: when the interrupt line is asserted and what deasserts it. -/
def Obligations.InterruptLineFollowsCompletion : Prop :=
  (∀ s : State, s.irq = true ↔ s.ie = true ∧ s.status.done = true) ∧
  (∀ s t : State, complete s = .next t → t.irq = s.ie) ∧
  (∀ (s t : State) (v : Word32), hostWrite ⟨0x008, 4⟩ v s = .next t →
    t.irq = (v.getLsbD 0 && s.status.done) ∧ t.status = s.status) ∧
  (∀ (s t : State) (v : Word32), v.getLsbD 1 = true → hostWrite ⟨0x004, 4⟩ v s = .next t → t.irq = false) ∧
  (∀ (s t : State) (v : Word32), s.status.busy = false → hostWrite ⟨0x000, 4⟩ v s = .next t → t.irq = false) ∧
  (∀ s : State, s.resetBlock.irq = false)

/-- R58: the values right after reset, for all the state whose reset value the spec states. -/
def Obligations.ResetStateHoldsTheStatedValues : Prop :=
  State.reset.cmd = 0 ∧ State.reset.status = ⟨false, false, false, false, 0⟩ ∧ State.reset.ie = false ∧
  State.reset.width = 0 ∧ State.reset.height = 0 ∧ State.reset.nx = 0 ∧ State.reset.ny = 0 ∧
  State.reset.arg = 0 ∧ State.reset.argf = 0 ∧ State.reset.resi = 0 ∧ State.reset.resf = 0 ∧
  State.reset.scale = 0 ∧ State.reset.max = 0x3FF0000000000000#64 ∧ State.reset.actmax = 0 ∧
  State.reset.hashlen = 0 ∧ State.reset.pixDisturbed = false ∧ State.reset.irq = false

/-- R340, R342: a reset event at any time, a command in flight or not, gives every register its reset value in
one step, leaves PIX as it is, and takes away the pending Complete step (the events are the model's, log entries 4
and 17). -/
def Obligations.ResetEventAbandonsTheCommand : Prop :=
  ∀ (s : State) (rest : List Event), s.agenda = .reset :: rest →
    ∃ t, step s = .next t ∧
      t.cmd = 0 ∧ t.status = ⟨false, false, false, false, 0⟩ ∧ t.ie = false ∧ t.width = 0 ∧ t.height = 0 ∧
      t.nx = 0 ∧ t.ny = 0 ∧ t.arg = 0 ∧ t.argf = 0 ∧ t.resi = 0 ∧ t.resf = 0 ∧ t.scale = 0 ∧
      t.max = 0x3FF0000000000000#64 ∧ t.actmax = 0 ∧ t.hashlen = 0 ∧ t.pixDisturbed = false ∧
      t.irq = false ∧ t.pix = s.pix ∧ t.agenda = rest

/-- R72, R110, R81: a host fill of PIX puts its bytes at the addresses named, in order, and leaves every other byte,
every register and every buffer alone; it sets the mark of R81 exactly when it falls in BUSY and one of its addresses
is an R, G or B byte of the W×H grid (that the other fills do not set it is the model's reading, log entry 8). -/
def Obligations.PixelFillsWriteOnlyTheirBytes : Prop :=
  ∀ (s : State) (addr : Nat) (bytes : List Byte) (rest : List Event), Memory.wf s.pix →
    s.agenda = .pixWrite addr bytes :: rest → addr + bytes.length ≤ Config.hw.pixBytes →
    ∃ t, step s = .next t ∧ Memory.wf t.pix ∧
      (∀ (k : Nat) (h : k < bytes.length), Memory.read t.pix (addr + k) = bytes[k]) ∧
      (∀ a, a < addr ∨ addr + bytes.length ≤ a → Memory.read t.pix a = Memory.read s.pix a) ∧
      (t.pixDisturbed = true ↔ s.pixDisturbed = true ∨ (s.status.busy = true ∧
        ∃ k, k < bytes.length ∧ addr + k < 4 * s.width.toNat * s.height.toNat ∧ (addr + k) % 4 ≠ 3)) ∧
      t = { s with pix := t.pix, pixDisturbed := t.pixDisturbed, agenda := rest }

/-- R70, R72: PIX has no address at or above PIX_BYTES; a host fill that reaches one stops with the fault of
that name (the fault is the model's choice, log entry 12). -/
def Obligations.FillsBeyondPixFault : Prop :=
  ∀ (s : State) (addr : Nat) (bytes : List Byte) (rest : List Event),
    s.agenda = .pixWrite addr bytes :: rest → Config.hw.pixBytes < addr + bytes.length →
    step s = .fault .pixAddress

/-! ## The commands: completion, result and frame -/

/-- R264: NOP is the word 0, writes nothing but STATUS, and raises the interrupt when IE is 1; a set reserved bit
gives RESERVED_FIELD; from a state with OVR 0 the STATUS word is 0x00000002. -/
def Obligations.NopWritesOnlyStatus : Prop :=
  encode (.nop 0) = 0x00000000#32 ∧
  ∀ (s : State) (rsv : BitVec 24),
    exec (.nop 0) s =
      .next { s with status := ⟨false, true, false, s.status.ovr, 0⟩, pixDisturbed := false } ∧
    (∀ t, exec (.nop 0) s = .next t →
      t.irq = s.ie ∧ (s.status.ovr = false → t.regValue (regAt 0x004) = 0x00000002#32)) ∧
    (rsv ≠ 0 → exec (.nop rsv) s = .next (s.failedWith 2))

/-- R146: LIN, word 0x10000000, writes to_linear of ARG[7:0] to RESF and nothing else but STATUS; ARG[31:8] is
ignored; a set reserved bit gives RESERVED_FIELD, and no other error applies. -/
def Obligations.LinWritesResfFromTheLowByteOfArg : Prop :=
  encode (.lin 0) = 0x10000000#32 ∧
  ∀ (s : State) (rsv : BitVec 24),
    exec (.lin 0) s = .next { s with
      resf := toLinear Config.hw (BitVec.ofNat 8 (s.arg.toNat % 256))
      status := ⟨false, true, false, s.status.ovr, 0⟩, pixDisturbed := false } ∧
    (rsv ≠ 0 → exec (.lin rsv) s = .next (s.failedWith 2))

/-- R147: GAM, word 0x11000000, writes to_gamma of ARGF to RESI, zero-extended, and nothing else but STATUS; a set
reserved bit gives RESERVED_FIELD, and no other error applies. -/
def Obligations.GamWritesResiFromArgf : Prop :=
  encode (.gam 0) = 0x11000000#32 ∧
  ∀ (s : State) (rsv : BitVec 24),
    (∃ t, exec (.gam 0) s = .next t ∧ t.resi.toNat = (toGamma Config.hw s.argf).toNat ∧
      t = { s with
        resi := t.resi, status := ⟨false, true, false, s.status.ovr, 0⟩, pixDisturbed := false }) ∧
    (rsv ≠ 0 → exec (.gam rsv) s = .next (s.failedWith 2))

/-- R177: BASIS I, J, word `0x20000000 | (J << 4) | I`, writes Basis(I, J) to slot J·NX + I, all three channels, and
leaves every other slot, every register and all memory as they are; its four checks fail in the order stated. -/
def Obligations.BasisWritesOneSlot : Prop :=
  (∀ j i : BitVec 4, (encode (.basis 0 j i)).toNat = 0x20000000 + j.toNat * 16 + i.toNat) ∧
  ∀ (s : State) (rsv : BitVec 16) (j i : BitVec 4),
    let ncompOk := 1 ≤ s.nx.toNat ∧ s.nx.toNat ≤ 9 ∧ 1 ≤ s.ny.toNat ∧ s.ny.toNat ≤ 9
    let dimOk := 1 ≤ s.width.toNat ∧ 1 ≤ s.height.toNat ∧
      4 * s.width.toNat * s.height.toNat ≤ Config.hw.pixBytes
    let operandOk := i.toNat < s.nx.toNat ∧ j.toNat < s.ny.toNat
    (ncompOk → dimOk → operandOk → s.pixDisturbed = false →
      ∃ t, exec (.basis 0 j i) s = .next t ∧
        t.slot (j.toNat * s.nx.toNat + i.toNat) =
          basis Config.hw s.pix s.width.toNat s.height.toNat i.toNat j.toNat ∧
        (∀ n, n < 81 → n ≠ j.toNat * s.nx.toNat + i.toNat → t.slot n = s.slot n) ∧
        t = { s with comp := t.comp, status := ⟨false, true, false, s.status.ovr, 0⟩ }) ∧
    (rsv ≠ 0 → exec (.basis rsv j i) s = .next (s.failedWith 2)) ∧
    (¬ncompOk → exec (.basis 0 j i) s = .next (s.failedWith 3)) ∧
    (ncompOk → ¬dimOk → exec (.basis 0 j i) s = .next (s.failedWith 4)) ∧
    (ncompOk → dimOk → ¬operandOk → exec (.basis 0 j i) s = .next (s.failedWith 5))

/-- R201, R200: QDC, word 0x30000000, packs the gamma bytes of COMP[0] into RESI, whatever NCOMP and DIM hold, and
writes nothing else but STATUS; a set reserved bit gives RESERVED_FIELD, and no other error applies. -/
def Obligations.QdcPacksTheDcTerm : Prop :=
  encode (.qdc 0) = 0x30000000#32 ∧
  ∀ (s : State) (rsv : BitVec 24),
    (∃ t, exec (.qdc 0) s = .next t ∧
      t.resi.toNat = (toGamma Config.hw (s.slot 0).r).toNat * 65536 +
        (toGamma Config.hw (s.slot 0).g).toNat * 256 + (toGamma Config.hw (s.slot 0).b).toNat ∧
      t = { s with
        resi := t.resi, status := ⟨false, true, false, s.status.ovr, 0⟩, pixDisturbed := false }) ∧
    (rsv ≠ 0 → exec (.qdc rsv) s = .next (s.failedWith 2))

/-- R212, R210, R211: QSCALE, word 0x31000000, with NX, NY in [1, 9] writes ACTMAX, SCALE, MAX and RESI and nothing
else but STATUS: the no-AC values when NX·NY = 1, and else actual_max over COMP[1 .. NX·NY − 1], q in [0, 82],
(q+1)/166 and q; its two checks fail in the order stated. -/
def Obligations.QscaleSelectsTheScale : Prop :=
  encode (.qscale 0) = 0x31000000#32 ∧
  ∀ (s : State) (rsv : BitVec 24),
    let ncompOk := 1 ≤ s.nx.toNat ∧ s.nx.toNat ≤ 9 ∧ 1 ≤ s.ny.toNat ∧ s.ny.toNat ≤ 9
    (ncompOk → ∃ t, exec (.qscale 0) s = .next t ∧
      (s.nx.toNat * s.ny.toNat = 1 →
        t.actmax = 0 ∧ t.scale = 0 ∧ t.max = 0x3FF0000000000000#64 ∧ t.resi = 0) ∧
      (1 < s.nx.toNat * s.ny.toNat →
        let m := actualMax ((List.range (s.nx.toNat * s.ny.toNat - 1)).map fun k => s.slot (k + 1))
        let q := Arith.toNat (Arith.fclamp (Arith.ffloor
          (Arith.sub (Arith.mul m 0x4064C00000000000#64) 0x3FE0000000000000#64)) 0 0x4054800000000000#64)
        t.actmax = m ∧ q ≤ 82 ∧ t.scale.toNat = q ∧ t.resi.toNat = q ∧
        t.max = Arith.div (Arith.ofNat (q + 1)) 0x4064C00000000000#64) ∧
      t = { s with
        actmax := t.actmax, scale := t.scale, max := t.max, resi := t.resi
        status := ⟨false, true, false, s.status.ovr, 0⟩, pixDisturbed := false }) ∧
    (rsv ≠ 0 → exec (.qscale rsv) s = .next (s.failedWith 2)) ∧
    (¬ncompOk → exec (.qscale 0) s = .next (s.failedWith 3))

/-- R222, R221, R220: QAC K, word `0x32000000 | K`, for an AC slot of a valid grid packs the three digits of COMP[K]
under MAX into RESI, as they stand, a digit being toNat of ffloor(fsign(x)·POW(|x|, 0.5)·9 + 9.5) clamped to [0, 18]
for x = v/MAX, and writes nothing else but STATUS; its three checks fail in the order stated. -/
def Obligations.QacPacksOneAcTerm : Prop :=
  (∀ k : BitVec 7, (encode (.qac 0 k)).toNat = 0x32000000 + k.toNat) ∧
  ∀ (s : State) (rsv : BitVec 17) (k : BitVec 7),
    let ncompOk := 1 ≤ s.nx.toNat ∧ s.nx.toNat ≤ 9 ∧ 1 ≤ s.ny.toNat ∧ s.ny.toNat ≤ 9
    let operandOk := 1 ≤ k.toNat ∧ k.toNat < s.nx.toNat * s.ny.toNat
    let digit := fun v : F64 =>
      let x := Arith.div v s.max
      let p := Arith.mul (Arith.fsign x) (Config.hw.pow (Arith.fabs x) 0x3FE0000000000000#64)
      Arith.toNat (Arith.fclamp (Arith.ffloor
        (Arith.add (Arith.mul p 0x4022000000000000#64) 0x4023000000000000#64)) 0 0x4032000000000000#64)
    (ncompOk → operandOk → ∃ t, exec (.qac 0 k) s = .next t ∧
      t.resi.toNat = digit (s.slot k.toNat).r * 361 + digit (s.slot k.toNat).g * 19 +
        digit (s.slot k.toNat).b ∧
      t.resi.toNat ≤ 6858 ∧
      t = { s with
        resi := t.resi, status := ⟨false, true, false, s.status.ovr, 0⟩, pixDisturbed := false }) ∧
    (rsv ≠ 0 → exec (.qac rsv k) s = .next (s.failedWith 2)) ∧
    (¬ncompOk → exec (.qac 0 k) s = .next (s.failedWith 3)) ∧
    (ncompOk → ¬operandOk → exec (.qac 0 k) s = .next (s.failedWith 5))

/-- R242, R240: B83 LEN, OFF, word `0x40000000 | (OFF << 8) | LEN`, with LEN in [1, 8] and OFF + LEN ≤ 166 writes the
LEN digits of ARG to HASH[OFF ..], digit k being (ARG div 83^(LEN−1−k)) mod 83, and leaves every other byte and every
register as they are; its two checks fail in the order stated. -/
def Obligations.B83WritesTheDigitsOfArg : Prop :=
  (∀ (off : BitVec 8) (len : BitVec 4),
    (encode (.b83 0 off 0 len)).toNat = 0x40000000 + off.toNat * 256 + len.toNat) ∧
  ∀ (s : State) (rsvHi off : BitVec 8) (rsvLo len : BitVec 4),
    let operandOk := 1 ≤ len.toNat ∧ len.toNat ≤ 8 ∧ off.toNat + len.toNat ≤ 166
    (operandOk → ∃ t, exec (.b83 0 off 0 len) s = .next t ∧
      (∀ k, k < len.toNat → t.hashByte (off.toNat + k) =
        alphabet.getD (s.arg.toNat / 83 ^ (len.toNat - 1 - k) % 83) 0) ∧
      (∀ p, p < off.toNat ∨ off.toNat + len.toNat ≤ p → t.hashByte p = s.hashByte p) ∧
      t = { s with
        hash := t.hash, status := ⟨false, true, false, s.status.ovr, 0⟩, pixDisturbed := false }) ∧
    (rsvHi ≠ 0 ∨ rsvLo ≠ 0 → exec (.b83 rsvHi off rsvLo len) s = .next (s.failedWith 2)) ∧
    (¬operandOk → exec (.b83 0 off 0 len) s = .next (s.failedWith 5))

/-- R263, R262: ENCODE, word 0x01000000, in a valid configuration writes the N components, the string of L bytes,
HASHLEN and RESI (both L), ACTMAX, SCALE and MAX, and leaves slots from N on, bytes from L on, and every other
register as they are; its three checks fail in the order stated. -/
def Obligations.EncodeWritesTheWholeHash : Prop :=
  encode (.encode 0) = 0x01000000#32 ∧
  ∀ (s : State) (rsv : BitVec 24),
    let ncompOk := 1 ≤ s.nx.toNat ∧ s.nx.toNat ≤ 9 ∧ 1 ≤ s.ny.toNat ∧ s.ny.toNat ≤ 9
    let dimOk := 1 ≤ s.width.toNat ∧ 1 ≤ s.height.toNat ∧
      4 * s.width.toNat * s.height.toNat ≤ Config.hw.pixBytes
    let n := s.nx.toNat * s.ny.toNat
    let l := 6 + 2 * (n - 1)
    let comp := fun k => basis Config.hw s.pix s.width.toNat s.height.toNat (k % s.nx.toNat) (k / s.nx.toNat)
    let sel := scaleSelect ((List.range (n - 1)).map fun k => comp (k + 1))
    (ncompOk → dimOk → s.pixDisturbed = false → ∃ t, exec (.encode 0) s = .next t ∧
      (∀ k, k < n → t.slot k = comp k) ∧
      (∀ k, n ≤ k → t.slot k = s.slot k) ∧
      t.hashByte 0 = alphabet.getD ((s.nx.toNat - 1) + (s.ny.toNat - 1) * 9) 0 ∧
      t.hashByte 1 = alphabet.getD sel.q 0 ∧
      (∀ k, k < 4 → t.hashByte (2 + k) =
        alphabet.getD ((quantDC Config.hw (comp 0)).toNat / 83 ^ (3 - k) % 83) 0) ∧
      (∀ k e, 1 ≤ k → k < n → e < 2 → t.hashByte (6 + 2 * (k - 1) + e) =
        alphabet.getD (quantAC Config.hw (comp k) sel.maximum / 83 ^ (1 - e) % 83) 0) ∧
      (∀ p, l ≤ p → t.hashByte p = s.hashByte p) ∧
      t.hashlen.toNat = l ∧ t.resi.toNat = l ∧
      t.actmax = sel.actmax ∧ t.scale.toNat = sel.q ∧ t.max = sel.maximum ∧
      t = { s with
        comp := t.comp, hash := t.hash, hashlen := t.hashlen, resi := t.resi, actmax := t.actmax
        scale := t.scale, max := t.max, status := ⟨false, true, false, s.status.ovr, 0⟩ }) ∧
    (rsv ≠ 0 → exec (.encode rsv) s = .next (s.failedWith 2)) ∧
    (¬ncompOk → exec (.encode 0) s = .next (s.failedWith 3)) ∧
    (ncompOk → ¬dimOk → exec (.encode 0) s = .next (s.failedWith 4))

/-- R81: with the mark `pix_disturbed`, every command still completes with the STATUS its checks give, and the
mark clears. A command that reads no pixel, and one that fails, end as they do without the mark. A disturbed
BASIS changes its one slot and nothing else; a disturbed ENCODE still writes L to HASHLEN and RESI, and leaves
slots from N on, bytes from L on and every other register as they are, whatever the draws are. That the
commands that read no pixel do not feel the mark, and that RESI is L although R81's list of unspecified values names
it, are the model's readings of R81 (log entries 8 and 9). -/
def Obligations.DisturbedPixelsLeaveTheRestDefined : Prop :=
  ∀ (s t u : State) (c : Instr), s.pixDisturbed = true → exec c s = .next t →
    exec c { s with pixDisturbed := false } = .next u →
    t.status = u.status ∧ t.pixDisturbed = false ∧
    (c.opcode ∉ [0x01#8, 0x20#8] ∨ t.status.ecode ≠ 0 → t = u) ∧
    (∀ rsv j i, c = .basis rsv j i →
      (∀ n, n ≠ j.toNat * s.nx.toNat + i.toNat → t.slot n = s.slot n) ∧
      t = { s with
        comp := t.comp, status := t.status, pixDisturbed := false, draws := t.draws }) ∧
    (∀ rsv, c = .encode rsv → t.status.ecode = 0 →
      t.hashlen.toNat = 6 + 2 * (s.nx.toNat * s.ny.toNat - 1) ∧ t.resi.toNat = t.hashlen.toNat ∧
      (∀ n, s.nx.toNat * s.ny.toNat ≤ n → t.slot n = s.slot n) ∧
      (∀ p, t.hashlen.toNat ≤ p → t.hashByte p = s.hashByte p) ∧
      t = { s with
        comp := t.comp, hash := t.hash, hashlen := t.hashlen, resi := t.resi, actmax := t.actmax
        scale := t.scale, max := t.max, status := t.status, pixDisturbed := false, draws := t.draws })

/-! ## Command errors -/

/-- R301: a command that ends with an error code changes nothing but STATUS: ECODE, ERR 1, BUSY 0, DONE 1, OVR
unchanged (and the model's mark of R81 clears). An error is not sticky: the ERR and ECODE an earlier command left
make no difference to a command. -/
def Obligations.CommandErrorsChangeOnlyStatus : Prop :=
  (∀ s t : State, complete s = .next t → t.status.ecode ≠ 0 →
    t = s.failedWith t.status.ecode) ∧
  ∀ (s : State) (err : Bool) (ecode : BitVec 4),
    complete { s with status := { s.status with err := err, ecode := ecode } } = complete s

/-- R302, R303 to R309: the ECODE of a completed command is the first check that fails, in the order opcode,
reserved bits, NCOMP, DIM, operand, read from the word in CMD; so it depends on CMD, NCOMP, DIM and PIX_BYTES
only. -/
def Obligations.ErrorCodesFollowTheValidationOrder : Prop :=
  ∀ s : State, ∃ t, complete s = .next t ∧
    let w := s.cmd.toNat
    let opc := w / 2 ^ 24
    let nx := s.nx.toNat
    let ny := s.ny.toNat
    let mask : Word32 :=
      if opc = 0x20 then 0x00FFFF00#32 else if opc = 0x32 then 0x00FFFF80#32
      else if opc = 0x40 then 0x00FF00F0#32 else 0x00FFFFFF#32
    t.status.ecode.toNat =
      if opc ∉ [0x00, 0x01, 0x10, 0x11, 0x20, 0x30, 0x31, 0x32, 0x40] then 1
      else if s.cmd &&& mask ≠ 0 then 2
      else if opc ∈ [0x01, 0x20, 0x31, 0x32] ∧ ¬(1 ≤ nx ∧ nx ≤ 9 ∧ 1 ≤ ny ∧ ny ≤ 9) then 3
      else if opc ∈ [0x01, 0x20] ∧ ¬(1 ≤ s.width.toNat ∧ 1 ≤ s.height.toNat ∧
        4 * s.width.toNat * s.height.toNat ≤ Config.hw.pixBytes) then 4
      else if opc = 0x20 ∧ ¬(w % 16 < nx ∧ w / 16 % 16 < ny) then 5
      else if opc = 0x32 ∧ ¬(1 ≤ w % 128 ∧ w % 128 < nx * ny) then 5
      else if opc = 0x40 ∧ ¬(1 ≤ w % 16 ∧ w % 16 ≤ 8 ∧ w / 256 % 256 + w % 16 ≤ 166) then 5
      else 0

/-! ## Whole-machine rules -/

/-- R36, R37, R38, R40, R52: every Complete step answers a next state, with BUSY 0, DONE 1, OVR as it was, ERR
equal to (ECODE ≠ 0), ECODE at most 5, and the command word still in CMD. -/
def Obligations.EveryAcceptedCommandCompletes : Prop :=
  ∀ s : State, ∃ t, complete s = .next t ∧ t.status.busy = false ∧ t.status.done = true ∧
    t.status.ovr = s.status.ovr ∧ t.status.err = decide (t.status.ecode ≠ 0) ∧
    t.status.ecode.toNat ≤ 5 ∧ t.cmd = s.cmd ∧ t.pixDisturbed = false

/-- R46, R47, R48, R51, R53, R55: which commands can change each result register and buffer. -/
def Obligations.OnlyTheNamedCommandsWriteEachResult : Prop :=
  ∀ (i : Instr) (s t : State), exec i s = .next t →
    (t.resf ≠ s.resf → i.opcode = 0x10) ∧
    (t.resi ≠ s.resi → i.opcode ∈ [0x11#8, 0x30#8, 0x31#8, 0x32#8, 0x01#8]) ∧
    (t.scale ≠ s.scale ∨ t.max ≠ s.max ∨ t.actmax ≠ s.actmax → i.opcode ∈ [0x31#8, 0x01#8]) ∧
    (t.hashlen ≠ s.hashlen → i.opcode = 0x01) ∧
    (t.comp ≠ s.comp → i.opcode ∈ [0x20#8, 0x01#8]) ∧
    (t.hash ≠ s.hash → i.opcode ∈ [0x40#8, 0x01#8]) ∧
    t.ie = s.ie ∧ t.width = s.width ∧ t.height = s.height ∧ t.nx = s.nx ∧ t.ny = s.ny ∧ t.arg = s.arg ∧
    t.argf = s.argf ∧ t.pix = s.pix

/-- R121: unless a pixel byte was disturbed (log entry 9), no command writes a byte outside the alphabet into HASH.
The alphabet is the 83 codes of R121 in their order, written out here, and none of the printable characters that
R121 excludes is among them. -/
def Obligations.HashBytesComeFromTheAlphabet : Prop :=
  (∀ (i : Instr) (s t : State), s.pixDisturbed = false → exec i s = .next t →
    ∀ p, p < 166 → t.hashByte p = s.hashByte p ∨ t.hashByte p ∈ alphabet) ∧
  alphabet.length = 83 ∧
  (∀ d, d < 10 → alphabet[d]? = some (BitVec.ofNat 8 (0x30 + d))) ∧
  (∀ d, d < 26 → alphabet[10 + d]? = some (BitVec.ofNat 8 (0x41 + d))) ∧
  (∀ d, d < 26 → alphabet[36 + d]? = some (BitVec.ofNat 8 (0x61 + d))) ∧
  alphabet.drop 62 = [0x23#8, 0x24#8, 0x25#8, 0x2A#8, 0x2B#8, 0x2C#8, 0x2D#8, 0x2E#8, 0x3A#8, 0x3B#8, 0x3D#8,
    0x3F#8, 0x40#8, 0x5B#8, 0x5D#8, 0x5E#8, 0x5F#8, 0x7B#8, 0x7C#8, 0x7D#8, 0x7E#8] ∧
  (∀ b ∈ [0x21#8, 0x22#8, 0x26#8, 0x27#8, 0x28#8, 0x29#8, 0x2F#8, 0x3C#8, 0x3E#8, 0x5C#8, 0x60#8], b ∉ alphabet)

/-- R262, R265: two ENCODEs with the same DIM, NCOMP and pixel memory write the same values, whatever the two
states hold otherwise. -/
def Obligations.EncodeDependsOnNoHistory : Prop :=
  ∀ s₁ s₂ t₁ t₂ : State, s₁.width = s₂.width → s₁.height = s₂.height → s₁.nx = s₂.nx → s₁.ny = s₂.ny →
    s₁.pix = s₂.pix → s₁.pixDisturbed = false → s₂.pixDisturbed = false →
    exec (.encode 0) s₁ = .next t₁ → exec (.encode 0) s₂ = .next t₂ →
    t₁.status.ecode = t₂.status.ecode ∧
    (t₁.status.ecode = 0 →
      (∀ k, k < s₁.nx.toNat * s₁.ny.toNat → t₁.slot k = t₂.slot k) ∧
      (∀ p, p < t₁.hashlen.toNat → t₁.hashByte p = t₂.hashByte p) ∧
      t₁.hashlen = t₂.hashlen ∧ t₁.resi = t₂.resi ∧ t₁.actmax = t₂.actmax ∧ t₁.scale = t₂.scale ∧
      t₁.max = t₂.max)

/-- No command depends on an A byte (R74), or on a byte outside the grid (R177, R81): two pixel memories that agree
on every R, G and B byte of the grid give the same next state but for PIX itself. -/
def Obligations.AlphaAndOutsideBytesAreIgnored : Prop :=
  ∀ (s t : State) (pix : List Host.Cell) (i : Instr),
    (∀ a, a < 4 * (s.width.toNat * s.height.toNat) → a % 4 ≠ 3 → Memory.read pix a = Memory.read s.pix a) →
    exec i s = .next t → exec i { s with pix := pix } = .next { t with pix := pix }

/-- R81: host writes to A bytes, or to bytes outside the grid, while BUSY have no effect on the command. -/
def Obligations.FillsOfUnreadBytesAreHarmless : Prop :=
  ∀ (s t : State) (addr : Nat) (bytes : List Byte),
    (∀ k, k < bytes.length →
      (addr + k) % 4 = 3 ∨ 4 * (s.width.toNat * s.height.toNat) ≤ addr + k) →
    complete s = .next t →
    complete (s.fillPixels addr bytes) = .next { t with pix := Memory.writeBytes s.pix addr bytes }

/-- R49: unless a pixel byte was disturbed, MAX stays 1.0 or (q+1)/166 for some q in [0, 82] at every step; and
such a value is a finite number above zero. -/
def Obligations.MaxStaysLegal : Prop :=
  (∀ s t : State, MaxLegal s.max → s.pixDisturbed = false → step s = .next t → MaxLegal t.max) ∧
  MaxLegal State.reset.max ∧
  (∀ m, MaxLegal m → Arith.isFinite m = true ∧ Arith.lt 0 m = true ∧ Arith.le m 0x3FF0000000000000#64 = true)

/-- R266, the values (it runs no B83, whose digits `B83WritesTheDigitsOfArg` states): BASIS for every (i, j), j
outer, then QSCALE, end with the COMP, SCALE, MAX and ACTMAX that ENCODE leaves, and the RESI of QSCALE, QDC and
QAC k after them hold the values whose base-83 digits ENCODE writes. -/
def Obligations.UnitCommandsHoldTheValuesEncodeWrites : Prop :=
  ∀ s : State,
    1 ≤ s.nx.toNat → s.nx.toNat ≤ 9 → 1 ≤ s.ny.toNat → s.ny.toNat ≤ 9 →
    1 ≤ s.width.toNat → 1 ≤ s.height.toNat →
    4 * s.width.toNat * s.height.toNat ≤ Config.hw.pixBytes → s.pixDisturbed = false →
    ∃ t u, execAll (componentCommands s.nx.toNat s.ny.toNat) s = .next t ∧ exec (.encode 0) s = .next u ∧
      (∀ n, n < 81 → t.slot n = u.slot n) ∧ t.scale = u.scale ∧ t.max = u.max ∧ t.actmax = u.actmax ∧
      t.hashlen = s.hashlen ∧
      u.hashByte 1 = digitChar (t.resi.toNat % 83) ∧
      (∃ d, exec (.qdc 0) t = .next d ∧
        ∀ e, e < 4 → u.hashByte (2 + e) = digitChar (d.resi.toNat / 83 ^ (3 - e) % 83)) ∧
      (∀ k : BitVec 7, 1 ≤ k.toNat → k.toNat < s.nx.toNat * s.ny.toNat →
        ∃ a, exec (.qac 0 k) t = .next a ∧
          ∀ e, e < 2 → u.hashByte (6 + 2 * (k.toNat - 1) + e) = digitChar (a.resi.toNat / 83 ^ (1 - e) % 83))

/-! ## Invariants, safety and progress -/

/-- R36 to R38, R40, R51, R72, R81: every step keeps the state consistent. -/
def Obligations.EveryStepKeepsTheStateConsistent : Prop :=
  ∀ s t : State, s.Consistent → step s = .next t → t.Consistent

/-- R58: the state after reset is consistent. -/
def Obligations.ResetStateIsConsistent : Prop := State.reset.Consistent

/-- R11, R52, R76: a run whose host accesses all have a meaning never stops, however long it is. What the host does
is the model's agenda, with its WAIT (log entries 4 and 19), and a fill has a meaning if it lies in PIX (log
entry 12). -/
def Obligations.LegalHostAccessesNeverStopTheMachine : Prop :=
  ∀ s : State, (∀ e ∈ s.agenda, e.legal Config.hw = true) → SafeRun s

/-- R352, as far as the agenda goes: every WAIT loop ends, and a legal agenda of n events is worked off, with the
block idle, within 2n + 1 steps (a reset on the agenda may abandon a command; that each Complete step ends its
command is `EveryAcceptedCommandCompletes`). The agenda and its schedule are the model's (log entries 4 and 19). -/
def Obligations.LegalAgendasAreWorkedOff : Prop :=
  ∀ s : State, (∀ e ∈ s.agenda, e.legal Config.hw = true) →
    ∃ k t, k ≤ 2 * s.agenda.length + 1 ∧ Sys2Proof.core.run k s = .next t ∧ t.agenda = [] ∧
      t.status.busy = false

/-! ## The functions -/

/-- R8: each of + − × ÷ on finite operands gives the exact real result rounded once, to nearest with ties to even,
overflowing to infinity (the divisor not zero). The sign of an exact zero is not stated. -/
def Obligations.ArithmeticRoundsToNearestEven : Prop :=
  ∀ a b : F64, Arith.isFinite a = true → Arith.isFinite b = true →
    Arith.RoundsTo (Arith.value a + Arith.value b) (Arith.add a b) ∧
    Arith.RoundsTo (Arith.value a - Arith.value b) (Arith.sub a b) ∧
    Arith.RoundsTo (Arith.value a * Arith.value b) (Arith.mul a b) ∧
    (Arith.value b ≠ 0 → Arith.RoundsTo (Arith.value a / Arith.value b) (Arith.div a b))

/-- R9: ffloor of a finite datum is the largest whole number below it, and ftrunc rounds toward zero; both are
exact. -/
def Obligations.FloorAndTruncateAreExact : Prop :=
  ∀ a : F64, Arith.isFinite a = true →
    Arith.isFinite (Arith.ffloor a) = true ∧ Arith.value (Arith.ffloor a) = (⌊Arith.value a⌋ : ℚ) ∧
    Arith.isFinite (Arith.ftrunc a) = true ∧
    |Arith.value (Arith.ftrunc a)| = (⌊|Arith.value a|⌋ : ℚ) ∧
    0 ≤ Arith.value (Arith.ftrunc a) * Arith.value a

/-- R140, R142: bytes 0 to 10 take the linear branch, so their values do not depend on POW; bytes 11 to 255 are the
2.4-th power POW gives of (b/255 + 0.055)/1.055, a datum in [0, 1]; and with POW-ONE, to_linear(255) is exactly
1.0. -/
def Obligations.ToLinearBranchesAndEnds : Prop :=
  ∀ cfg : Config,
    toLinear cfg 0 = 0 ∧ toLinear cfg 10 = 0x3F68DD6C15B1D4B4#64 ∧
    (∀ b : Byte, b.toNat ≤ 10 → toLinear cfg b =
      Arith.div (Arith.div (Arith.ofNat b.toNat) 0x406FE00000000000#64) 0x4029D70A3D70A3D7#64) ∧
    (∀ b : Byte, 11 ≤ b.toNat →
      let v := Arith.div (Arith.ofNat b.toNat) 0x406FE00000000000#64
      let x := Arith.div (Arith.add v 0x3FAC28F5C28F5C29#64) 0x3FF0E147AE147AE1#64
      Arith.le 0 x = true ∧ Arith.le x 0x3FF0000000000000#64 = true ∧
      toLinear cfg b = cfg.pow x 0x4003333333333333#64) ∧
    (cfg.PowOne → toLinear cfg 255 = 0x3FF0000000000000#64) ∧
    (cfg.PowRange → ∀ b : Byte, Arith.isFinite (toLinear cfg b) = true ∧
      Arith.le 0 (toLinear cfg b) = true ∧ Arith.le (toLinear cfg b) 0x3FF0000000000000#64 = true)

/-- R143, R144, R145, R147: to_gamma of NaN, −Inf, a negative number, a zero and the smallest subnormal is 0, and of
the threshold 0.0031308 it is 10, whatever POW is. From +0.0 to the threshold it is the byte of (f·12.92)·255, above
it up to 1.0 the byte of (POW(f, 1/2.4)·1.055 − 0.055)·255, the byte of t being t + 0.5 truncated toward zero and
then 0 for a NaN or from 0 down, 255 from 255 on; from 1.0 on it is what it is at 1.0, which is 255 with POW-ONE. -/
def Obligations.ToGammaBranchesAndCorners : Prop :=
  ∀ (cfg : Config) (f : F64),
    let byteOf := fun t : F64 =>
      let r := Arith.ftrunc (Arith.add t 0x3FE0000000000000#64)
      if Arith.isNaN r = true ∨ Arith.le r 0 = true then 0#8
      else if Arith.le 0x406FE00000000000#64 r = true then 255#8
      else BitVec.ofNat 8 (Arith.toNat r)
    let curve := Arith.sub (Arith.mul (cfg.pow f 0x3FDAAAAAAAAAAAAB#64) 0x3FF0E147AE147AE1#64)
      0x3FAC28F5C28F5C29#64
    (Arith.isNaN f = true ∨ Arith.le f 0 = true → toGamma cfg f = 0) ∧
    toGamma cfg 0x0000000000000001#64 = 0 ∧ toGamma cfg 0x3F69A5C37387B719#64 = 10 ∧
    (Arith.le 0 f = true → Arith.le f 0x3F69A5C37387B719#64 = true →
      toGamma cfg f = byteOf (Arith.mul (Arith.mul f 0x4029D70A3D70A3D7#64) 0x406FE00000000000#64)) ∧
    (Arith.lt 0x3F69A5C37387B719#64 f = true → Arith.le f 0x3FF0000000000000#64 = true →
      toGamma cfg f = byteOf (Arith.mul curve 0x406FE00000000000#64)) ∧
    (Arith.le 0x3FF0000000000000#64 f = true → toGamma cfg f = toGamma cfg 0x3FF0000000000000#64) ∧
    (cfg.PowOne → Arith.le 0x3FF0000000000000#64 f = true → toGamma cfg f = 255)

/-- R148: under the default configuration, to_gamma(to_linear(b)) = b for all 256 bytes, with no exception. The
computation of CR_POW is the model's (log entry 13). -/
def Obligations.GammaUndoesLinearUnderTheDefault : Prop :=
  ∀ b : Byte, toGamma Config.default (toLinear Config.default b) = b

/-- R170 to R175: channel c of Basis(i, j) is the sum, pixel k after pixel k in row-major order from +0.0, of the
pixel's weight times to_linear of its channel, product rounded and then sum, times the rounded reciprocal of W·H. R172,
R173: an argument of COS is ((π·i)·x)/W and the weight is (norm·COS(a))·COS(b), norm 2.0 but for (0, 0). R178: with
i = 0 or x = 0 the argument is +0.0, so under COS-ZERO the weight in the DC term is exactly 1.0 and, where POW gives
no NaN for a byte, the DC term is the sum of the linear values times that reciprocal. -/
def Obligations.BasisIsTheWeightedSumOfThePixels : Prop :=
  (∀ (cfg : Config) (pix : List Host.Cell) (w h i j c : Nat), c < 3 →
    (basis cfg pix w h i j).channel c =
      Arith.mul ((List.range (w * h)).foldl (fun acc k => Arith.add acc
        (Arith.mul (basisWeight cfg i j (k % w) (k / w) w h) (toLinear cfg (Memory.read pix (4 * k + c))))) 0)
        (Arith.div 0x3FF0000000000000#64 (Arith.ofNat (w * h)))) ∧
  (∀ (cfg : Config) (i j x y w h : Nat),
    let a := Arith.div (Arith.mul (Arith.mul 0x400921FB54442D18#64 (Arith.ofNat i)) (Arith.ofNat x)) (Arith.ofNat w)
    let b := Arith.div (Arith.mul (Arith.mul 0x400921FB54442D18#64 (Arith.ofNat j)) (Arith.ofNat y)) (Arith.ofNat h)
    let norm : F64 := if i = 0 ∧ j = 0 then 0x3FF0000000000000#64 else 0x4000000000000000#64
    basisWeight cfg i j x y w h = Arith.mul (Arith.mul norm (cfg.cos a)) (cfg.cos b)) ∧
  (∀ i x w, i ≤ 8 → x < 65536 → 1 ≤ w → w < 65536 → i = 0 ∨ x = 0 → basisArgument i x w = 0) ∧
  (∀ (cfg : Config) (x y w h : Nat), cfg.CosZero → x < w → w < 65536 → y < h → h < 65536 →
    basisWeight cfg 0 0 x y w h = 0x3FF0000000000000#64) ∧
  (∀ (cfg : Config) (pix : List Host.Cell) (w h c : Nat), cfg.CosZero →
    (∀ b : Byte, Arith.isNaN (toLinear cfg b) = false) → 1 ≤ w → w < 65536 → 1 ≤ h → h < 65536 → c < 3 →
    (basis cfg pix w h 0 0).channel c =
      Arith.mul ((List.range (w * h)).foldl
        (fun acc k => Arith.add acc (toLinear cfg (Memory.read pix (4 * k + c)))) 0)
        (Arith.div 0x3FF0000000000000#64 (Arith.ofNat (w * h))))

/-- R178: under COS-RANGE and POW-RANGE every component of every grid is finite in all three channels. -/
def Obligations.BasisResultsAreFinite : Prop :=
  ∀ (cfg : Config) (pix : List Host.Cell) (w h i j : Nat), cfg.CosRange → cfg.PowRange →
    1 ≤ w → w < 65536 → 1 ≤ h → h < 65536 → i ≤ 8 → j ≤ 8 →
    Arith.isFinite (basis cfg pix w h i j).r = true ∧ Arith.isFinite (basis cfg pix w h i j).g = true ∧
    Arith.isFinite (basis cfg pix w h i j).b = true

/-- R178, R265: a black image, under COS-RANGE and POW-ZERO, has every component +0.0, and its hash is the size
flag's symbol, then "00000", then "fQ" for each AC term. -/
def Obligations.BlackImageHash : Prop :=
  ∀ (cfg : Config) (pix : List Host.Cell) (w h nx ny : Nat), cfg.CosRange → cfg.PowZero →
    1 ≤ w → w < 65536 → 1 ≤ h → h < 65536 → 1 ≤ nx → nx ≤ 9 → 1 ≤ ny → ny ≤ 9 →
    (∀ a, a < 4 * (w * h) → a % 4 ≠ 3 → Memory.read pix a = 0) →
    components cfg pix w h nx ny = List.replicate (nx * ny) ⟨0, 0, 0⟩ ∧
    hashString cfg nx ny (components cfg pix w h nx ny) (scaleSelect (components cfg pix w h nx ny).tail) =
      digitChar ((nx - 1) + (ny - 1) * 9) ::
        (List.replicate 5 0x30#8 ++ (List.replicate (nx * ny - 1) [0x66#8, 0x51#8]).flatten)

/-- R210: actual_max is never a NaN and never negative, it is at least the absolute value of every channel that
is a number, and it is +0.0 or the absolute value of some channel. -/
def Obligations.ActualMaxIsTheLargestMagnitude : Prop :=
  ∀ acs : List Triplet,
    Arith.isNaN (actualMax acs) = false ∧ Arith.sign (actualMax acs) = false ∧
    (∀ t ∈ acs, ∀ v ∈ t.channels, Arith.isNaN v = false →
      Arith.le (Arith.fabs v) (actualMax acs) = true) ∧
    (actualMax acs = 0 ∨ ∃ t ∈ acs, ∃ v ∈ t.channels, Arith.isNaN v = false ∧ actualMax acs = Arith.fabs v)

/-- R223: the quantizer's ranges: q ≤ 82 and q = 0 with no AC term, every AC digit at most 18, a packed AC value
at most 6858 from which the three digits can be read back. -/
def Obligations.QuantizerRanges : Prop :=
  (∀ acs : List Triplet, (scaleSelect acs).q ≤ 82 ∧ (acs = [] → (scaleSelect acs).q = 0)) ∧
  (∀ (cfg : Config) (v m : F64), quantACch cfg v m ≤ 18) ∧
  (∀ (cfg : Config) (t : Triplet) (m : F64), quantAC cfg t m ≤ 6858 ∧
    quantAC cfg t m / 361 = quantACch cfg t.r m ∧ quantAC cfg t m / 19 % 19 = quantACch cfg t.g m ∧
    quantAC cfg t m % 19 = quantACch cfg t.b m)

/-- R220: the special operands: for a finite MAX above zero, a zero gives digit 9 under POW-ZERO, +Inf gives 18 and
−Inf gives 0 under POW-INF, and a NaN gives 0 under POW-NAN. -/
def Obligations.SpecialOperandsOfQuantAc : Prop :=
  ∀ (cfg : Config) (v m : F64), Arith.isFinite m = true → Arith.lt 0 m = true →
    (cfg.PowZero → Arith.mag v = 0 → quantACch cfg v m = 9) ∧
    (cfg.PowInf → v = 0x7FF0000000000000#64 → quantACch cfg v m = 18) ∧
    (cfg.PowInf → v = 0xFFF0000000000000#64 → quantACch cfg v m = 0) ∧
    (cfg.PowNaN → Arith.isNaN v = true → quantACch cfg v m = 0)

/-- R243: the digits of a value below 83^length give it back, so no two such values have the same string; the
four digits of 16777215 are those of the spec's example. -/
def Obligations.Base83DecodesBack : Prop :=
  (∀ v n : Nat, v < 83 ^ n →
    (base83 v n).length = n ∧ (base83 v n).foldl (fun acc b => acc * 83 + alphabet.idxOf b) 0 = v) ∧
  (∀ v w n : Nat, v < 83 ^ n → w < 83 ^ n → base83 v n = base83 w n → v = w) ∧
  base83 16777215 4 = [0x54#8, 0x53#8, 0x55#8, 0x41#8]

/-- R241, R244: a value of 83^length or more wraps to its residue, and 0 is written as copies of '0'. -/
def Obligations.Base83WrapsAndWritesZeros : Prop :=
  ∀ v n : Nat, base83 v n = base83 (v % 83 ^ n) n ∧ base83 0 n = List.replicate n 0x30#8

/-- R260, R123: the size flag lies in [0, 80], decodes back to (nx, ny), and is told apart by its one digit. -/
def Obligations.SizeFlagDecodesBack : Prop :=
  ∀ nx ny : Nat, 1 ≤ nx → nx ≤ 9 → 1 ≤ ny → ny ≤ 9 →
    sizeFlag nx ny = (nx - 1) + (ny - 1) * 9 ∧ sizeFlag nx ny ≤ 80 ∧
    sizeFlag nx ny % 9 + 1 = nx ∧ sizeFlag nx ny / 9 + 1 = ny ∧
    base83 (sizeFlag nx ny) 1 = [digitChar (sizeFlag nx ny)]

/-- R120, R122: the string has exactly 6 + 2(nx·ny − 1) characters for every image. -/
def Obligations.HashLengthIsFixedByTheGrid : Prop :=
  ∀ (s t : State), exec (.encode 0) s = .next t → t.status.ecode = 0 →
    t.hashlen.toNat = 6 + 2 * (s.nx.toNat * s.ny.toNat - 1) ∧ 6 ≤ t.hashlen.toNat ∧ t.hashlen.toNat ≤ 166 ∧
    ∀ p, t.hashlen.toNat ≤ p → t.hashByte p = s.hashByte p
end

