-- ==== Sys2Proof/Laws/Round.lean ====
section
/-! SUPPORT. Rounding: `roundRatio` gives the binary64 magnitude nearest to a ratio of naturals, ties to even,
it is monotone, and it is exact on every magnitude (R8). -/

namespace Sys2Proof.Arith

/-- The significand and scale of a magnitude pattern. -/
theorem mag_split (m : Nat) :
    ∃ up k, m = up + k * hiddenBit ∧ up < 2 * hiddenBit ∧ (k = 0 ∨ hiddenBit ≤ up) := by
  refine ⟨m - (m / hiddenBit - 1) * hiddenBit, m / hiddenBit - 1, ?_, ?_, ?_⟩ <;>
  · simp only [hiddenBit]; omega

/-- What a significand and scale stand for; a significand of 2^53 carries into the exponent. -/
theorem unitsOfMag_split {up k : Nat} (hup : up ≤ 2 * hiddenBit) (hk : k = 0 ∨ hiddenBit ≤ up) :
    unitsOfMag (up + k * hiddenBit) = up * 2 ^ k := by
  unfold unitsOfMag
  by_cases h1 : up < hiddenBit
  · have hk0 : k = 0 := by omega
    subst hk0
    rw [if_pos (by simp only [hiddenBit] at *; omega)]
    simp
  by_cases h2 : up = 2 * hiddenBit
  · subst h2
    have hd : (2 * hiddenBit + k * hiddenBit) / hiddenBit = k + 2 := by simp only [hiddenBit]; omega
    have hm : (2 * hiddenBit + k * hiddenBit) % hiddenBit = 0 := by simp only [hiddenBit]; omega
    rw [hd, hm, if_neg (by omega), show k + 2 - 1 = k + 1 by omega, pow_succ]
    ring
  · have hd : (up + k * hiddenBit) / hiddenBit = k + 1 := by simp only [hiddenBit] at *; omega
    have hm : hiddenBit + (up + k * hiddenBit) % hiddenBit = up := by simp only [hiddenBit] at *; omega
    rw [hd, hm, if_neg (by omega)]
    simp

/-- Neighbouring magnitudes: the next pattern is one step of the scale above. -/
theorem unitsOfMag_lt_succ (m : Nat) : unitsOfMag m < unitsOfMag (m + 1) := by
  obtain ⟨up, k, rfl, h, hk⟩ := mag_split m
  rw [show up + k * hiddenBit + 1 = (up + 1) + k * hiddenBit by omega,
    unitsOfMag_split (by omega) hk, unitsOfMag_split (by omega) (by omega)]
  exact Nat.mul_lt_mul_of_pos_right (Nat.lt_succ_self up) (Nat.two_pow_pos k)

theorem unitsOfMag_strictMono : StrictMono unitsOfMag := strictMono_nat_of_lt_succ unitsOfMag_lt_succ

theorem unitsOfMag_zero : unitsOfMag 0 = 0 := by simp [unitsOfMag]

/-- `roundRatio` before it is capped at infinity. -/
def rawRound (n d : Nat) : Nat :=
  let k := (n / d).log2 - 52
  let e := d * 2 ^ k
  let m := n / e
  let r := n % e
  let up := if e < 2 * r ∨ (2 * r = e ∧ m % 2 = 1) then m + 1 else m
  up + k * hiddenBit

theorem roundRatio_eq (n d : Nat) : roundRatio n d = min (rawRound n d) infMag := rfl

/-- The two magnitudes around a ratio, and which of them rounding takes. -/
theorem rawRound_cases (n d : Nat) (hd : 0 < d) :
    ∃ lo e r, 0 < e ∧ r < e ∧ n = d * unitsOfMag lo + r ∧ d * unitsOfMag (lo + 1) = d * unitsOfMag lo + e ∧
      rawRound n d = if e < 2 * r ∨ (2 * r = e ∧ lo % 2 = 1) then lo + 1 else lo := by
  set q := n / d with hq
  set k := q.log2 - 52 with hkdef
  set e := d * 2 ^ k with he
  set m := n / e with hm
  have hepos : 0 < e := Nat.mul_pos hd (Nat.two_pow_pos k)
  have hmq : m = q / 2 ^ k := by rw [hm, he, hq, Nat.div_div_eq_div_mul]
  have hm53 : m < 2 * hiddenBit := by
    rw [hmq, Nat.div_lt_iff_lt_mul (Nat.two_pow_pos k)]
    have h1 : q < 2 ^ (q.log2 + 1) := Nat.lt_log2_self
    have h2 : 2 ^ (q.log2 + 1) ≤ 2 ^ (53 + k) := Nat.pow_le_pow_right (by omega) (by omega)
    calc q < 2 ^ (53 + k) := lt_of_lt_of_le h1 h2
      _ = 2 * hiddenBit * 2 ^ k := by rw [pow_add]; rfl
  have hm52 : k = 0 ∨ hiddenBit ≤ m := by
    rcases Nat.eq_zero_or_pos k with h0 | hpos
    · exact Or.inl h0
    · right
      have hq0 : q ≠ 0 := by
        rintro h
        rw [h] at hkdef
        simp at hkdef
        omega
      rw [hmq, Nat.le_div_iff_mul_le (Nat.two_pow_pos k)]
      have h1 : 2 ^ q.log2 ≤ q := Nat.log2_self_le hq0
      calc hiddenBit * 2 ^ k = 2 ^ (52 + k) := by rw [pow_add]; rfl
        _ = 2 ^ q.log2 := by rw [show 52 + k = q.log2 by omega]
        _ ≤ q := h1
  have hlo : unitsOfMag (m + k * hiddenBit) = m * 2 ^ k := unitsOfMag_split (by omega) hm52
  have hhi : unitsOfMag (m + k * hiddenBit + 1) = (m + 1) * 2 ^ k := by
    rw [show m + k * hiddenBit + 1 = (m + 1) + k * hiddenBit by omega]
    exact unitsOfMag_split (by omega) (by omega)
  have hdm : d * (m * 2 ^ k) = e * m := by rw [he]; ring
  have hpar : (m + k * hiddenBit) % 2 = m % 2 := by simp only [hiddenBit]; omega
  refine ⟨m + k * hiddenBit, e, n % e, hepos, Nat.mod_lt _ hepos, ?_, ?_, ?_⟩
  · rw [hlo, hdm, hm]; exact (Nat.div_add_mod n e).symm
  · rw [hlo, hhi, hdm, he]; ring
  · rw [hpar]
    show (if e < 2 * (n % e) ∨ (2 * (n % e) = e ∧ m % 2 = 1) then m + 1 else m) + k * hiddenBit = _
    split <;> omega

/-- Distance in units, scaled by the denominator. -/
abbrev unitDist (n d m : Nat) : Int := |(n : Int) - (d * unitsOfMag m : Nat)|

/-- Rounding is to nearest: no magnitude is closer to the ratio (R8). -/
theorem rawRound_nearest (n d : Nat) (hd : 0 < d) (m : Nat) : unitDist n d (rawRound n d) ≤ unitDist n d m := by
  obtain ⟨lo, e, r, he, hr, hn, hhi, hround⟩ := rawRound_cases n d hd
  have key : unitDist n d (rawRound n d) ≤ r ∧ unitDist n d (rawRound n d) ≤ (e : Int) - r := by
    rw [hround, unitDist]
    split_ifs with h
    · rw [hhi, hn]; push_cast; rw [abs_le, abs_le]; omega
    · rw [hn]; push_cast; rw [abs_le, abs_le]; omega
  rcases Nat.lt_or_ge lo m with hm | hm
  · have h1 : d * unitsOfMag (lo + 1) ≤ d * unitsOfMag m :=
      Nat.mul_le_mul_left d (unitsOfMag_strictMono.monotone hm)
    have h2 : ((e : Int) - r) ≤ unitDist n d m := by
      rw [unitDist, abs_sub_comm]; exact le_trans (by omega) (le_abs_self _)
    exact key.2.trans h2
  · have h1 : d * unitsOfMag m ≤ d * unitsOfMag lo :=
      Nat.mul_le_mul_left d (unitsOfMag_strictMono.monotone hm)
    have h2 : (r : Int) ≤ unitDist n d m := le_trans (by omega) (le_abs_self _)
    exact key.1.trans h2

/-- Ties go to even: if another magnitude is equally close, the one taken is even (R8). -/
theorem rawRound_tie_even (n d : Nat) (hd : 0 < d) (m : Nat) (hm : m ≠ rawRound n d)
    (h : unitDist n d m = unitDist n d (rawRound n d)) : rawRound n d % 2 = 0 := by
  obtain ⟨lo, e, r, he, hr, hn, hhi, hround⟩ := rawRound_cases n d hd
  rcases Nat.lt_or_ge lo m with hlt | hge
  · have h1 : d * unitsOfMag (lo + 1) ≤ d * unitsOfMag m :=
      Nat.mul_le_mul_left d (unitsOfMag_strictMono.monotone hlt)
    have h2 : ((e : Int) - r) ≤ unitDist n d m := by
      rw [unitDist, abs_sub_comm]; exact le_trans (by omega) (le_abs_self _)
    rw [h] at h2
    rw [hround] at h2 ⊢
    split_ifs at h2 ⊢ with hc
    · rcases hc with hc | hc
      · have hmm : lo + 1 < m := by
          rw [hround, if_pos (Or.inl hc)] at hm
          omega
        have h3 : d * unitsOfMag (lo + 1) < d * unitsOfMag m :=
          Nat.mul_lt_mul_of_pos_left (unitsOfMag_strictMono hmm) hd
        have h4 : ((e : Int) - r) < unitDist n d m := by
          rw [unitDist, abs_sub_comm]; exact lt_of_lt_of_le (by omega) (le_abs_self _)
        rw [h, hround, if_pos (Or.inl hc), unitDist, hhi, hn] at h4
        push_cast at h4
        rw [abs_of_nonpos (by omega)] at h4
        omega
      · omega
    · rw [unitDist, hn] at h2
      push_cast at h2
      rw [abs_of_nonneg (by omega)] at h2
      omega
  · have h1 : d * unitsOfMag m ≤ d * unitsOfMag lo :=
      Nat.mul_le_mul_left d (unitsOfMag_strictMono.monotone hge)
    have h2 : (r : Int) ≤ unitDist n d m := le_trans (by omega) (le_abs_self _)
    rw [h] at h2
    rw [hround] at h2 ⊢
    split_ifs at h2 ⊢ with hc
    · rw [unitDist, hhi, hn] at h2
      push_cast at h2
      rw [abs_of_nonpos (by omega)] at h2
      omega
    · have hmm : m < lo := by
        rw [hround, if_neg hc] at hm
        omega
      have h3 : d * unitsOfMag m < d * unitsOfMag lo :=
        Nat.mul_lt_mul_of_pos_left (unitsOfMag_strictMono hmm) hd
      have h4 : (r : Int) < unitDist n d m := lt_of_lt_of_le (by omega) (le_abs_self _)
      rw [h, hround, if_neg hc, unitDist, hn] at h4
      push_cast at h4
      rw [abs_of_nonneg (by omega)] at h4
      omega

/-- Rounding a magnitude gives it back. -/
theorem rawRound_exact (d m : Nat) (hd : 0 < d) : rawRound (d * unitsOfMag m) d = m := by
  have h := rawRound_nearest (d * unitsOfMag m) d hd m
  simp only [unitDist, sub_self, abs_zero] at h
  have h0 := abs_nonpos_iff.mp h
  have h1 : d * unitsOfMag m = d * unitsOfMag (rawRound (d * unitsOfMag m) d) := by omega
  exact (unitsOfMag_strictMono.injective (Nat.eq_of_mul_eq_mul_left hd h1)).symm

/-- The magnitude taken is at most `m` when the ratio is at most what `m` stands for. -/
theorem rawRound_le (n d m : Nat) (hd : 0 < d) (h : n ≤ d * unitsOfMag m) : rawRound n d ≤ m := by
  obtain ⟨lo, e, r, he, hr, hn, hhi, hround⟩ := rawRound_cases n d hd
  rcases Nat.lt_or_ge lo m with hlt | hge
  · rw [hround]; split_ifs <;> omega
  · have h1 : d * unitsOfMag m ≤ d * unitsOfMag lo :=
      Nat.mul_le_mul_left d (unitsOfMag_strictMono.monotone hge)
    have hr0 : r = 0 := by omega
    have h2 : d * unitsOfMag lo = d * unitsOfMag m := by omega
    have h3 : lo = m := unitsOfMag_strictMono.injective (Nat.eq_of_mul_eq_mul_left hd h2)
    rw [hround, if_neg (by omega), h3]

/-- The magnitude taken is at least `m` when the ratio is at least what `m` stands for. -/
theorem le_rawRound (n d m : Nat) (hd : 0 < d) (h : d * unitsOfMag m ≤ n) : m ≤ rawRound n d := by
  obtain ⟨lo, e, r, he, hr, hn, hhi, hround⟩ := rawRound_cases n d hd
  have h1 : m ≤ lo := by
    by_contra hc
    have h2 : d * unitsOfMag (lo + 1) ≤ d * unitsOfMag m :=
      Nat.mul_le_mul_left d (unitsOfMag_strictMono.monotone (by omega))
    omega
  rw [hround]; split_ifs <;> omega

theorem roundRatio_le_infMag (n d : Nat) : roundRatio n d ≤ infMag := Nat.min_le_right _ _

theorem roundRatio_le (n d m : Nat) (hd : 0 < d) (h : n ≤ d * unitsOfMag m) : roundRatio n d ≤ m :=
  (Nat.min_le_left _ _).trans (rawRound_le n d m hd h)

theorem le_roundRatio (n d m : Nat) (hd : 0 < d) (hm : m ≤ infMag) (h : d * unitsOfMag m ≤ n) :
    m ≤ roundRatio n d := Nat.le_min.mpr ⟨le_rawRound n d m hd h, hm⟩

theorem roundRatio_exact (d m : Nat) (hd : 0 < d) (hm : m ≤ infMag) :
    roundRatio (d * unitsOfMag m) d = m := by
  rw [roundRatio_eq, rawRound_exact d m hd, Nat.min_eq_left hm]

@[simp] theorem roundRatio_zero (d : Nat) : roundRatio 0 d = 0 := by
  simp [roundRatio]

/-- A finite result is the raw one. -/
theorem roundRatio_eq_rawRound {n d : Nat} (h : roundRatio n d < infMag) : roundRatio n d = rawRound n d := by
  rw [roundRatio_eq] at h ⊢; omega

end Sys2Proof.Arith
end

