-- ==== Sys2Proof/Laws/Arith.lean ====
section
/-! SUPPORT. The binary64 operators: signs, magnitudes and units of what they give (R8, R9). -/

namespace Sys2Proof.Arith

theorem unitsPerOne_pos : 0 < unitsPerOne := by unfold unitsPerOne; positivity

theorem mag_lt (a : F64) : mag a < signBit := Nat.mod_lt _ (by decide)

/-- A datum is its sign and its magnitude. -/
theorem toNat_eq (a : F64) : a.toNat = mag a + if sign a then signBit else 0 := by
  have h := a.isLt
  unfold mag sign
  rw [BitVec.msb_eq_decide]
  simp only [signBit, decide_eq_true_eq]
  split_ifs <;> omega

theorem ofMag_toNat (s : Bool) (m : Nat) (h : m < signBit) :
    (ofMag s m).toNat = m + if s then signBit else 0 := by
  unfold ofMag
  rw [BitVec.toNat_ofNat, Nat.mod_eq_of_lt]
  simp only [signBit] at *; split_ifs <;> omega

@[simp] theorem mag_ofMag (s : Bool) (m : Nat) (h : m < signBit) : mag (ofMag s m) = m := by
  rw [mag, ofMag_toNat s m h]
  simp only [signBit] at *; split_ifs <;> omega

@[simp] theorem sign_ofMag (s : Bool) (m : Nat) (h : m < signBit) : sign (ofMag s m) = s := by
  have h1 := toNat_eq (ofMag s m)
  rw [ofMag_toNat s m h, mag_ofMag s m h] at h1
  simp only [signBit] at *
  cases s <;> cases hs : sign (ofMag _ m) <;> simp_all

/-- A datum is determined by its sign and its magnitude. -/
theorem ofMag_sign_mag (a : F64) : ofMag (sign a) (mag a) = a := by
  apply BitVec.eq_of_toNat_eq
  rw [ofMag_toNat _ _ (mag_lt a), ← toNat_eq]

theorem infMag_lt_signBit : infMag < signBit := by decide

theorem mag_ofMag_le (s : Bool) {m : Nat} (h : m ≤ infMag) : mag (ofMag s m) = m :=
  mag_ofMag s m (lt_of_le_of_lt h infMag_lt_signBit)

theorem sign_ofMag_le (s : Bool) {m : Nat} (h : m ≤ infMag) : sign (ofMag s m) = s :=
  sign_ofMag s m (lt_of_le_of_lt h infMag_lt_signBit)

theorem isNaN_ofMag_le (s : Bool) {m : Nat} (h : m ≤ infMag) : isNaN (ofMag s m) = false := by
  rw [isNaN, mag_ofMag_le s h]; simpa using h

/-- A rounded result is a number. -/
theorem isNaN_round (s : Bool) (n d : Nat) : isNaN (ofMag s (roundRatio n d)) = false :=
  isNaN_ofMag_le s (roundRatio_le_infMag n d)

theorem isNaN_of_isFinite {a : F64} (h : isFinite a = true) : isNaN a = false := by
  simp only [isFinite, isNaN, decide_eq_true_eq, decide_eq_false_iff_not] at *; omega

theorem isInf_of_isFinite {a : F64} (h : isFinite a = true) : isInf a = false := by
  simp only [isFinite, isInf, decide_eq_true_eq, decide_eq_false_iff_not] at *; omega

/-- Flipping the sign bit keeps the magnitude. -/
theorem mag_neg (a : F64) : mag (neg a) = mag a := by
  have h : (neg a).toNat % 2 ^ 63 = a.toNat % 2 ^ 63 := by
    unfold neg
    rw [BitVec.toNat_xor]
    apply Nat.eq_of_testBit_eq
    intro k
    simp only [Nat.testBit_mod_two_pow, Nat.testBit_xor]
    by_cases hk : k < 63
    · have h0 : Nat.testBit (0x8000000000000000#64).toNat k = false := by
        show Nat.testBit (2 ^ 63) k = false
        rw [Nat.testBit_two_pow]; simp; omega
      rw [h0, Bool.xor_false]
    · simp [hk]
  exact h

theorem sign_neg (a : F64) : sign (neg a) = !sign a := by
  rw [sign, neg, BitVec.msb_xor, show (0x8000000000000000#64).msb = true by decide, Bool.xor_true]; rfl

theorem units_neg (a : F64) : units (neg a) = units a := by rw [units, mag_neg, units]

theorem signedUnits_neg (a : F64) : signedUnits (neg a) = -signedUnits a := by
  simp only [signedUnits, sign_neg, units_neg]; cases sign a <;> simp

/-- The absolute value of the signed units is the units. -/
theorem natAbs_signedUnits (a : F64) : (signedUnits a).natAbs = units a := by
  unfold signedUnits; split <;> simp

/-! Finite operands: every operator rounds its exact result once. -/

theorem add_finite {a b : F64} (ha : isFinite a = true) (hb : isFinite b = true) :
    add a b =
      if signedUnits a + signedUnits b = 0 then ofMag (sign a && sign b) 0
      else ofMag (decide (signedUnits a + signedUnits b < 0)) (roundRatio (signedUnits a + signedUnits b).natAbs 1) := by
  simp [add, addNumbers, isNaN_of_isFinite ha, isNaN_of_isFinite hb, isInf_of_isFinite ha, isInf_of_isFinite hb]

theorem isInf_neg (a : F64) : isInf (neg a) = isInf a := by simp [isInf, mag_neg]

theorem isFinite_neg (a : F64) : isFinite (neg a) = isFinite a := by simp [isFinite, mag_neg]

/-- Subtracting is adding the opposite, for numbers whose result is a number. -/
theorem sub_finite {a b : F64} (ha : isFinite a = true) (hb : isFinite b = true) : sub a b = add a (neg b) := by
  have hnb : isFinite (neg b) = true := by rw [isFinite_neg, hb]
  simp [sub, add, addNumbers, isNaN_of_isFinite ha, isNaN_of_isFinite hb, isNaN_of_isFinite hnb,
    isInf_of_isFinite ha, isInf_of_isFinite hnb]

theorem mul_finite {a b : F64} (ha : isFinite a = true) (hb : isFinite b = true) :
    mul a b = ofMag (sign a != sign b) (roundRatio (units a * units b) unitsPerOne) := by
  simp [mul, isNaN_of_isFinite ha, isNaN_of_isFinite hb, isInf_of_isFinite ha, isInf_of_isFinite hb]

theorem div_finite {a b : F64} (ha : isFinite a = true) (hb : isFinite b = true) (h0 : mag b ≠ 0) :
    div a b = ofMag (sign a != sign b) (roundRatio (units a * unitsPerOne) (units b)) := by
  simp [div, isNaN_of_isFinite ha, isNaN_of_isFinite hb, isInf_of_isFinite ha, isInf_of_isFinite hb, h0]

/-- The conversion of a natural is the rounding of its units. -/
theorem ofNat_eq (n : Nat) : ofNat n = ofMag false (roundRatio (n * unitsPerOne) 1) := by
  cases n with
  | zero =>
    rw [Nat.zero_mul, roundRatio_zero]; rfl
  | succ k => rfl

/-- The units of a natural below 2^53 are those of some magnitude. -/
theorem exists_mag_of_nat {n : Nat} (h : n < 2 ^ 53) :
    ∃ m, m < infMag ∧ unitsOfMag m = n * unitsPerOne := by
  rcases Nat.eq_zero_or_pos n with rfl | hpos
  · exact ⟨0, by decide, by simp [unitsOfMag_zero]⟩
  have hl : n.log2 < 53 := (Nat.log2_lt (by omega)).mpr h
  have h1 : 2 ^ n.log2 ≤ n := Nat.log2_self_le (by omega)
  have h2 : n < 2 ^ (n.log2 + 1) := Nat.lt_log2_self
  set l := n.log2 with hldef
  have hlow : hiddenBit ≤ n * 2 ^ (52 - l) := by
    calc hiddenBit = 2 ^ l * 2 ^ (52 - l) := by rw [← pow_add, show l + (52 - l) = 52 by omega]; rfl
      _ ≤ n * 2 ^ (52 - l) := Nat.mul_le_mul_right _ h1
  have hhigh : n * 2 ^ (52 - l) < 2 * hiddenBit := by
    calc n * 2 ^ (52 - l) < 2 ^ (l + 1) * 2 ^ (52 - l) := Nat.mul_lt_mul_of_pos_right h2 (Nat.two_pow_pos _)
      _ = 2 * hiddenBit := by rw [← pow_add, show l + 1 + (52 - l) = 53 by omega]; rfl
  refine ⟨n * 2 ^ (52 - l) + (1022 + l) * hiddenBit, ?_, ?_⟩
  · simp only [hiddenBit, infMag] at *; omega
  · rw [unitsOfMag_split hhigh.le (Or.inr hlow), mul_assoc, ← pow_add, unitsPerOne,
      show 52 - l + (1022 + l) = 1074 by omega]

/-- The conversion of a natural below 2^53 is exact (R8). -/
theorem units_ofNat {n : Nat} (h : n < 2 ^ 53) : units (ofNat n) = n * unitsPerOne := by
  obtain ⟨m, hm, hu⟩ := exists_mag_of_nat h
  have hr : roundRatio (n * unitsPerOne) 1 = m := by
    rw [← hu, ← Nat.one_mul (unitsOfMag m)]
    exact roundRatio_exact 1 m Nat.one_pos hm.le
  rw [units, ofNat_eq, hr, mag_ofMag_le _ hm.le, hu]

theorem isFinite_ofNat {n : Nat} (h : n < 2 ^ 53) : isFinite (ofNat n) = true := by
  obtain ⟨m, hm, hu⟩ := exists_mag_of_nat h
  have hr : roundRatio (n * unitsPerOne) 1 = m := by
    rw [← hu, ← Nat.one_mul (unitsOfMag m)]
    exact roundRatio_exact 1 m Nat.one_pos hm.le
  rw [isFinite, ofNat_eq, hr, mag_ofMag_le _ hm.le]
  simpa using hm

theorem sign_ofNat (n : Nat) : sign (ofNat n) = false := by
  rw [ofNat_eq]; exact sign_ofMag_le _ (roundRatio_le_infMag _ _)

/-! ## Comparison and clamping (R9) -/

theorem le_iff {a b : F64} : le a b = true ↔ isNaN a = false ∧ isNaN b = false ∧ order a ≤ order b := by
  simp [le, and_assoc]

theorem lt_iff {a b : F64} : lt a b = true ↔ isNaN a = false ∧ isNaN b = false ∧ order a < order b := by
  simp [lt, and_assoc]

/-- A datum inside the bounds is its own clamp. -/
theorem fclamp_inside {a lo hi : F64} (h₁ : le lo a = true) (h₂ : le a hi = true) : fclamp a lo hi = a := by
  rw [le_iff] at h₁ h₂
  have h₃ : lt a lo = false := by rw [Bool.eq_false_iff, Ne, lt_iff]; omega
  have h₄ : lt hi a = false := by rw [Bool.eq_false_iff, Ne, lt_iff]; omega
  simp [fclamp, h₁.2.1, h₃, h₄]

end Sys2Proof.Arith
end

