-- ==== Sys2Proof/Laws/Base83.lean ====
section
/-! SUPPORT. The base-83 encoder: the length and the characters of what it writes (R240). -/

namespace Sys2Proof.Machine

@[simp] theorem length_base83 (v n : Nat) : (base83 v n).length = n := by simp [base83]

theorem getElem_base83 (v n k : Nat) (h : k < (base83 v n).length) :
    (base83 v n)[k] = digitChar (base83Digit v n k) := by simp [base83]

theorem base83Digit_lt (v n k : Nat) : base83Digit v n k < 83 := Nat.mod_lt _ (by decide)

theorem length_alphabet : alphabet.length = 83 := by decide

/-- Every symbol of the alphabet stands at one index only (R121). -/
theorem idxOf_digitChar : ∀ d < 83, alphabet.idxOf (digitChar d) = d := by decide

/-- Every digit is written as a symbol of the alphabet (R240). -/
theorem digitChar_mem : ∀ d < 83, digitChar d ∈ alphabet := by decide

theorem mem_base83 {v n : Nat} {b : Byte} (h : b ∈ base83 v n) : b ∈ alphabet := by
  obtain ⟨k, -, rfl⟩ := List.mem_map.mp h
  exact digitChar_mem _ (base83Digit_lt v n k)

/-- A string of one more digit is the digits above, then the last digit. -/
theorem base83_succ (v n : Nat) : base83 v (n + 1) = base83 (v / 83) n ++ [digitChar (v % 83)] := by
  unfold base83
  rw [List.range_succ, List.map_append]
  congr 1
  · refine List.map_congr_left fun k hk => ?_
    have hk := List.mem_range.mp hk
    rw [base83Digit, base83Digit, show n + 1 - 1 - k = (n - 1 - k) + 1 by omega, pow_succ', Nat.div_div_eq_div_mul]
  · simp [base83Digit]

/-- The length of the string for the components of a grid (R122). -/
theorem length_hashString (cfg : Config) (nx ny : Nat) (comps : List Triplet) (c : Scale) :
    (hashString cfg nx ny comps c).length = 6 + 2 * (comps.length - 1) := by
  simp only [hashString, List.length_append, length_base83, List.length_flatMap, List.length_tail,
    List.map_const', List.sum_replicate, smul_eq_mul]
  omega

@[simp] theorem length_components (cfg : Config) (pix : List Host.Cell) (w h nx ny : Nat) :
    (components cfg pix w h nx ny).length = nx * ny := by simp [components]

end Sys2Proof.Machine
end

