-- ==== Sys2Proof/Laws/Basis.lean ====
section
/-! SUPPORT. What one pixel and one row add to a channel of the accumulators (R174). -/

namespace Sys2Proof.Machine

open Arith

/-- A pixel adds its weight times its own channel's linear value to each channel. -/
theorem addPixel_channel (cfg : Config) (pix : List Host.Cell) (w h i j y : Nat) (acc : Triplet) (x : Nat)
    {c : Nat} (hc : c < 3) : (addPixel cfg pix w h i j y acc x).channel c =
      add (acc.channel c) (mul (basisWeight cfg i j x y w h) (toLinear cfg (channel pix w x y c))) := by
  obtain rfl | rfl | rfl : c = 0 ∨ c = 1 ∨ c = 2 := by omega
  all_goals simp [addPixel, Triplet.channel]

/-- A row adds its pixels to each channel, from left to right. -/
theorem addRow_channel (cfg : Config) (pix : List Host.Cell) (w h i j y : Nat) (acc : Triplet)
    {c : Nat} (hc : c < 3) : (addRow cfg pix w h i j acc y).channel c =
      (List.range w).foldl (fun a x =>
        add a (mul (basisWeight cfg i j x y w h) (toLinear cfg (channel pix w x y c)))) (acc.channel c) := by
  rw [addRow]
  induction List.range w generalizing acc with
  | nil => rfl
  | cons x l ih => rw [List.foldl_cons, ih, addPixel_channel _ _ _ _ _ _ _ _ _ hc, List.foldl_cons]

/-- Scaling is channel by channel. -/
theorem Triplet.scaledBy_channel (t : Triplet) (k : F64) {c : Nat} (hc : c < 3) :
    (t.scaledBy k).channel c = mul (t.channel c) k := by
  obtain rfl | rfl | rfl : c = 0 ∨ c = 1 ∨ c = 2 := by omega
  all_goals simp [Triplet.scaledBy, Triplet.channel]

end Sys2Proof.Machine
end

