-- ==== Sys2Proof/Laws/Memory.lean ====
section
/-! SUPPORT. Pixel memory: reading after writing, and the canonical form every operation keeps. -/

namespace Sys2Proof.Machine

open Memory

/-- Every address of the tail is above the head's. -/
theorem Memory.wf_cons {c : Host.Cell} {m : List Host.Cell} :
    Memory.wf (c :: m) ↔ (∀ x ∈ m, c.1 < x.1) ∧ c.2 ≠ Memory.unlisted ∧ Memory.wf m := by
  simp only [Memory.wf, List.pairwise_cons, List.mem_cons, forall_eq_or_imp]
  tauto

/-- Below every listed address, memory reads as unlisted. -/
theorem Memory.read_below (m : List Host.Cell) (a : Nat) (h : ∀ x ∈ m, a < x.1) :
    Memory.read m a = Memory.unlisted := by
  induction m with
  | nil => rfl
  | cons c m ih =>
    have hc := h c (by simp)
    simp only [Memory.read]
    rw [if_neg (by omega)]
    exact ih fun x hx => h x (by simp [hx])

/-- What a write lists: addresses that were listed, and the one written. -/
theorem Memory.mem_write {m : List Host.Cell} {a : Nat} {b : Byte} {c : Host.Cell}
    (h : c ∈ Memory.write m a b) : c ∈ m ∨ c = (a, b) := by
  induction m with
  | nil => simp only [Memory.write] at h; split at h <;> simp_all
  | cons d m ih =>
    simp only [Memory.write] at h
    split_ifs at h <;> simp only [List.mem_cons] at h ⊢ <;> tauto

/-- A write keeps the canonical form. -/
theorem Memory.write_wf {m : List Host.Cell} (h : Memory.wf m) (a : Nat) (b : Byte) :
    Memory.wf (Memory.write m a b) := by
  induction m with
  | nil => simp only [Memory.write]; split <;> simp_all [Memory.wf]
  | cons c m ih =>
    obtain ⟨hlt, hne, hm⟩ := Memory.wf_cons.mp h
    simp only [Memory.write]
    split_ifs with h1 h2 h3 h4
    · exact h
    · refine Memory.wf_cons.mpr ⟨fun x hx => ?_, h2, h⟩
      rcases List.mem_cons.mp hx with rfl | hx
      · exact h1
      · exact h1.trans (hlt x hx)
    · exact hm
    · subst h3
      exact Memory.wf_cons.mpr ⟨hlt, h4, hm⟩
    · refine Memory.wf_cons.mpr ⟨fun x hx => ?_, hne, ih hm⟩
      rcases Memory.mem_write hx with hx | rfl
      · exact hlt x hx
      · simp only; omega

/-- A fill keeps the canonical form. -/
theorem Memory.writeBytes_wf {m : List Host.Cell} (h : Memory.wf m) (a : Nat) (bs : List Byte) :
    Memory.wf (Memory.writeBytes m a bs) := by
  induction bs generalizing m a with
  | nil => exact h
  | cons b bs ih => exact ih (Memory.write_wf h a b) (a + 1)

/-- A read at the address written gives the byte written. -/
theorem Memory.read_write_same {m : List Host.Cell} (h : Memory.wf m) (a : Nat) (b : Byte) :
    Memory.read (Memory.write m a b) a = b := by
  induction m with
  | nil => simp only [Memory.write]; split <;> simp_all [Memory.read]
  | cons c m ih =>
    obtain ⟨hlt, hne, hm⟩ := Memory.wf_cons.mp h
    simp only [Memory.write]
    split_ifs with h1 h2 h3 h4
    · rw [h2]
      refine Memory.read_below _ _ fun x hx => ?_
      rcases List.mem_cons.mp hx with rfl | hx
      · exact h1
      · exact h1.trans (hlt x hx)
    · simp [Memory.read]
    · subst h3
      rw [h4]; exact Memory.read_below _ _ hlt
    · simp [Memory.read]
    · simp only [Memory.read]
      rw [if_neg (by omega)]
      exact ih hm

/-- A write leaves every other address alone. -/
theorem Memory.read_write_other (m : List Host.Cell) {a x : Nat} (b : Byte) (h : x ≠ a) :
    Memory.read (Memory.write m a b) x = Memory.read m x := by
  induction m with
  | nil =>
    simp only [Memory.write]
    split
    · rfl
    · simp [Memory.read, h.symm]
  | cons c m ih =>
    simp only [Memory.write]
    split_ifs with h1 h2 h3 h4
    · rfl
    · conv_lhs => rw [Memory.read]
      rw [if_neg (by omega)]
    · simp only [Memory.read]
      rw [if_neg (by omega)]
    · simp only [Memory.read]
      rw [if_neg (by omega), if_neg (by omega)]
    · simp only [Memory.read, ih]

/-- A fill leaves every address outside it alone. -/
theorem Memory.read_writeBytes_outside (m : List Host.Cell) {a x : Nat} (bs : List Byte)
    (h : x < a ∨ a + bs.length ≤ x) : Memory.read (Memory.writeBytes m a bs) x = Memory.read m x := by
  induction bs generalizing m a with
  | nil => rfl
  | cons b bs ih =>
    simp only [List.length_cons] at h
    simp only [Memory.writeBytes]
    rw [ih (Memory.write m a b) (by omega), Memory.read_write_other m b (by omega)]

/-- A fill puts byte k of its list at the k-th address. -/
theorem Memory.read_writeBytes_inside {m : List Host.Cell} (hm : Memory.wf m) (a k : Nat) (bs : List Byte)
    (h : k < bs.length) : Memory.read (Memory.writeBytes m a bs) (a + k) = bs[k] := by
  induction bs generalizing m a k with
  | nil => simp at h
  | cons b bs ih =>
    simp only [Memory.writeBytes]
    cases k with
    | zero =>
      show Memory.read (Memory.writeBytes (Memory.write m a b) (a + 1) bs) a = b
      rw [Memory.read_writeBytes_outside _ _ (Or.inl (by omega)), Memory.read_write_same hm]
    | succ k =>
      rw [show a + (k + 1) = (a + 1) + k by omega]
      exact ih (Memory.write_wf hm a b) (a + 1) k (by simpa using h)

/-- What a fill lists: addresses that were listed, and addresses of the fill. -/
theorem Memory.mem_writeBytes {m : List Host.Cell} {a : Nat} {bs : List Byte} {c : Host.Cell}
    (h : c ∈ Memory.writeBytes m a bs) : c ∈ m ∨ c.1 < a + bs.length := by
  induction bs generalizing m a with
  | nil => exact Or.inl h
  | cons b bs ih =>
    simp only [List.length_cons]
    rcases ih h with h | h
    · rcases Memory.mem_write h with h | rfl
      · exact Or.inl h
      · right; simp only; omega
    · right; omega

end Sys2Proof.Machine
end

