-- ==== Sys2Proof/Laws/State.lean ====
section
/-! SUPPORT. What every shared update of the state does to every field: one lemma per field per update, so
that no later proof unfolds a record update. -/

namespace Sys2Proof.Machine

variable (s : State)

/-! `setSlot` -/

@[simp] theorem State.setSlot_cmd (n : Nat) (t : Triplet) : (s.setSlot n t).cmd = s.cmd := rfl
@[simp] theorem State.setSlot_status (n : Nat) (t : Triplet) : (s.setSlot n t).status = s.status := rfl
@[simp] theorem State.setSlot_ie (n : Nat) (t : Triplet) : (s.setSlot n t).ie = s.ie := rfl
@[simp] theorem State.setSlot_width (n : Nat) (t : Triplet) : (s.setSlot n t).width = s.width := rfl
@[simp] theorem State.setSlot_height (n : Nat) (t : Triplet) : (s.setSlot n t).height = s.height := rfl
@[simp] theorem State.setSlot_nx (n : Nat) (t : Triplet) : (s.setSlot n t).nx = s.nx := rfl
@[simp] theorem State.setSlot_ny (n : Nat) (t : Triplet) : (s.setSlot n t).ny = s.ny := rfl
@[simp] theorem State.setSlot_arg (n : Nat) (t : Triplet) : (s.setSlot n t).arg = s.arg := rfl
@[simp] theorem State.setSlot_argf (n : Nat) (t : Triplet) : (s.setSlot n t).argf = s.argf := rfl
@[simp] theorem State.setSlot_resi (n : Nat) (t : Triplet) : (s.setSlot n t).resi = s.resi := rfl
@[simp] theorem State.setSlot_resf (n : Nat) (t : Triplet) : (s.setSlot n t).resf = s.resf := rfl
@[simp] theorem State.setSlot_scale (n : Nat) (t : Triplet) : (s.setSlot n t).scale = s.scale := rfl
@[simp] theorem State.setSlot_max (n : Nat) (t : Triplet) : (s.setSlot n t).max = s.max := rfl
@[simp] theorem State.setSlot_actmax (n : Nat) (t : Triplet) : (s.setSlot n t).actmax = s.actmax := rfl
@[simp] theorem State.setSlot_hashlen (n : Nat) (t : Triplet) : (s.setSlot n t).hashlen = s.hashlen := rfl
@[simp] theorem State.setSlot_comp (n : Nat) (t : Triplet) : (s.setSlot n t).comp = s.comp.setIfInBounds n t := rfl
@[simp] theorem State.setSlot_hash (n : Nat) (t : Triplet) : (s.setSlot n t).hash = s.hash := rfl
@[simp] theorem State.setSlot_pix (n : Nat) (t : Triplet) : (s.setSlot n t).pix = s.pix := rfl
@[simp] theorem State.setSlot_pixDisturbed (n : Nat) (t : Triplet) : (s.setSlot n t).pixDisturbed = s.pixDisturbed := rfl
@[simp] theorem State.setSlot_readData (n : Nat) (t : Triplet) : (s.setSlot n t).readData = s.readData := rfl
@[simp] theorem State.setSlot_draws (n : Nat) (t : Triplet) : (s.setSlot n t).draws = s.draws := rfl
@[simp] theorem State.setSlot_agenda (n : Nat) (t : Triplet) : (s.setSlot n t).agenda = s.agenda := rfl

/-! `setSlots` -/

@[simp] theorem State.setSlots_comp (ts : List Triplet) : (s.setSlots ts).comp = splice s.comp 0 ts := rfl
@[simp] theorem State.setSlots_cmd (ts : List Triplet) : (s.setSlots ts).cmd = s.cmd := rfl
@[simp] theorem State.setSlots_status (ts : List Triplet) : (s.setSlots ts).status = s.status := rfl
@[simp] theorem State.setSlots_ie (ts : List Triplet) : (s.setSlots ts).ie = s.ie := rfl
@[simp] theorem State.setSlots_width (ts : List Triplet) : (s.setSlots ts).width = s.width := rfl
@[simp] theorem State.setSlots_height (ts : List Triplet) : (s.setSlots ts).height = s.height := rfl
@[simp] theorem State.setSlots_nx (ts : List Triplet) : (s.setSlots ts).nx = s.nx := rfl
@[simp] theorem State.setSlots_ny (ts : List Triplet) : (s.setSlots ts).ny = s.ny := rfl
@[simp] theorem State.setSlots_arg (ts : List Triplet) : (s.setSlots ts).arg = s.arg := rfl
@[simp] theorem State.setSlots_argf (ts : List Triplet) : (s.setSlots ts).argf = s.argf := rfl
@[simp] theorem State.setSlots_resi (ts : List Triplet) : (s.setSlots ts).resi = s.resi := rfl
@[simp] theorem State.setSlots_resf (ts : List Triplet) : (s.setSlots ts).resf = s.resf := rfl
@[simp] theorem State.setSlots_scale (ts : List Triplet) : (s.setSlots ts).scale = s.scale := rfl
@[simp] theorem State.setSlots_max (ts : List Triplet) : (s.setSlots ts).max = s.max := rfl
@[simp] theorem State.setSlots_actmax (ts : List Triplet) : (s.setSlots ts).actmax = s.actmax := rfl
@[simp] theorem State.setSlots_hashlen (ts : List Triplet) : (s.setSlots ts).hashlen = s.hashlen := rfl
@[simp] theorem State.setSlots_hash (ts : List Triplet) : (s.setSlots ts).hash = s.hash := rfl
@[simp] theorem State.setSlots_pix (ts : List Triplet) : (s.setSlots ts).pix = s.pix := rfl
@[simp] theorem State.setSlots_pixDisturbed (ts : List Triplet) : (s.setSlots ts).pixDisturbed = s.pixDisturbed := rfl
@[simp] theorem State.setSlots_readData (ts : List Triplet) : (s.setSlots ts).readData = s.readData := rfl
@[simp] theorem State.setSlots_draws (ts : List Triplet) : (s.setSlots ts).draws = s.draws := rfl
@[simp] theorem State.setSlots_agenda (ts : List Triplet) : (s.setSlots ts).agenda = s.agenda := rfl

/-! `writeHash` -/

@[simp] theorem State.writeHash_hash (off : Nat) (bs : List Byte) :
    (s.writeHash off bs).hash = splice s.hash off bs := rfl
@[simp] theorem State.writeHash_cmd (off : Nat) (bs : List Byte) : (s.writeHash off bs).cmd = s.cmd := rfl
@[simp] theorem State.writeHash_status (off : Nat) (bs : List Byte) : (s.writeHash off bs).status = s.status := rfl
@[simp] theorem State.writeHash_ie (off : Nat) (bs : List Byte) : (s.writeHash off bs).ie = s.ie := rfl
@[simp] theorem State.writeHash_width (off : Nat) (bs : List Byte) : (s.writeHash off bs).width = s.width := rfl
@[simp] theorem State.writeHash_height (off : Nat) (bs : List Byte) : (s.writeHash off bs).height = s.height := rfl
@[simp] theorem State.writeHash_nx (off : Nat) (bs : List Byte) : (s.writeHash off bs).nx = s.nx := rfl
@[simp] theorem State.writeHash_ny (off : Nat) (bs : List Byte) : (s.writeHash off bs).ny = s.ny := rfl
@[simp] theorem State.writeHash_arg (off : Nat) (bs : List Byte) : (s.writeHash off bs).arg = s.arg := rfl
@[simp] theorem State.writeHash_argf (off : Nat) (bs : List Byte) : (s.writeHash off bs).argf = s.argf := rfl
@[simp] theorem State.writeHash_resi (off : Nat) (bs : List Byte) : (s.writeHash off bs).resi = s.resi := rfl
@[simp] theorem State.writeHash_resf (off : Nat) (bs : List Byte) : (s.writeHash off bs).resf = s.resf := rfl
@[simp] theorem State.writeHash_scale (off : Nat) (bs : List Byte) : (s.writeHash off bs).scale = s.scale := rfl
@[simp] theorem State.writeHash_max (off : Nat) (bs : List Byte) : (s.writeHash off bs).max = s.max := rfl
@[simp] theorem State.writeHash_actmax (off : Nat) (bs : List Byte) : (s.writeHash off bs).actmax = s.actmax := rfl
@[simp] theorem State.writeHash_hashlen (off : Nat) (bs : List Byte) : (s.writeHash off bs).hashlen = s.hashlen := rfl
@[simp] theorem State.writeHash_comp (off : Nat) (bs : List Byte) : (s.writeHash off bs).comp = s.comp := rfl
@[simp] theorem State.writeHash_pix (off : Nat) (bs : List Byte) : (s.writeHash off bs).pix = s.pix := rfl
@[simp] theorem State.writeHash_pixDisturbed (off : Nat) (bs : List Byte) : (s.writeHash off bs).pixDisturbed = s.pixDisturbed := rfl
@[simp] theorem State.writeHash_readData (off : Nat) (bs : List Byte) : (s.writeHash off bs).readData = s.readData := rfl
@[simp] theorem State.writeHash_draws (off : Nat) (bs : List Byte) : (s.writeHash off bs).draws = s.draws := rfl
@[simp] theorem State.writeHash_agenda (off : Nat) (bs : List Byte) : (s.writeHash off bs).agenda = s.agenda := rfl

/-! `drew` -/

@[simp] theorem State.drew_cmd (n : Nat) : (s.drew n).cmd = s.cmd := rfl
@[simp] theorem State.drew_status (n : Nat) : (s.drew n).status = s.status := rfl
@[simp] theorem State.drew_ie (n : Nat) : (s.drew n).ie = s.ie := rfl
@[simp] theorem State.drew_width (n : Nat) : (s.drew n).width = s.width := rfl
@[simp] theorem State.drew_height (n : Nat) : (s.drew n).height = s.height := rfl
@[simp] theorem State.drew_nx (n : Nat) : (s.drew n).nx = s.nx := rfl
@[simp] theorem State.drew_ny (n : Nat) : (s.drew n).ny = s.ny := rfl
@[simp] theorem State.drew_arg (n : Nat) : (s.drew n).arg = s.arg := rfl
@[simp] theorem State.drew_argf (n : Nat) : (s.drew n).argf = s.argf := rfl
@[simp] theorem State.drew_resi (n : Nat) : (s.drew n).resi = s.resi := rfl
@[simp] theorem State.drew_resf (n : Nat) : (s.drew n).resf = s.resf := rfl
@[simp] theorem State.drew_scale (n : Nat) : (s.drew n).scale = s.scale := rfl
@[simp] theorem State.drew_max (n : Nat) : (s.drew n).max = s.max := rfl
@[simp] theorem State.drew_actmax (n : Nat) : (s.drew n).actmax = s.actmax := rfl
@[simp] theorem State.drew_hashlen (n : Nat) : (s.drew n).hashlen = s.hashlen := rfl
@[simp] theorem State.drew_comp (n : Nat) : (s.drew n).comp = s.comp := rfl
@[simp] theorem State.drew_hash (n : Nat) : (s.drew n).hash = s.hash := rfl
@[simp] theorem State.drew_pix (n : Nat) : (s.drew n).pix = s.pix := rfl
@[simp] theorem State.drew_pixDisturbed (n : Nat) : (s.drew n).pixDisturbed = s.pixDisturbed := rfl
@[simp] theorem State.drew_readData (n : Nat) : (s.drew n).readData = s.readData := rfl
@[simp] theorem State.drew_draws (n : Nat) : (s.drew n).draws = s.draws + n := rfl
@[simp] theorem State.drew_agenda (n : Nat) : (s.drew n).agenda = s.agenda := rfl

/-! `completed` -/

@[simp] theorem State.completed_cmd : (s.completed).cmd = s.cmd := rfl
@[simp] theorem State.completed_status : (s.completed).status = s.status.succeeded := rfl
@[simp] theorem State.completed_ie : (s.completed).ie = s.ie := rfl
@[simp] theorem State.completed_width : (s.completed).width = s.width := rfl
@[simp] theorem State.completed_height : (s.completed).height = s.height := rfl
@[simp] theorem State.completed_nx : (s.completed).nx = s.nx := rfl
@[simp] theorem State.completed_ny : (s.completed).ny = s.ny := rfl
@[simp] theorem State.completed_arg : (s.completed).arg = s.arg := rfl
@[simp] theorem State.completed_argf : (s.completed).argf = s.argf := rfl
@[simp] theorem State.completed_resi : (s.completed).resi = s.resi := rfl
@[simp] theorem State.completed_resf : (s.completed).resf = s.resf := rfl
@[simp] theorem State.completed_scale : (s.completed).scale = s.scale := rfl
@[simp] theorem State.completed_max : (s.completed).max = s.max := rfl
@[simp] theorem State.completed_actmax : (s.completed).actmax = s.actmax := rfl
@[simp] theorem State.completed_hashlen : (s.completed).hashlen = s.hashlen := rfl
@[simp] theorem State.completed_comp : (s.completed).comp = s.comp := rfl
@[simp] theorem State.completed_hash : (s.completed).hash = s.hash := rfl
@[simp] theorem State.completed_pix : (s.completed).pix = s.pix := rfl
@[simp] theorem State.completed_pixDisturbed : (s.completed).pixDisturbed = false := rfl
@[simp] theorem State.completed_readData : (s.completed).readData = s.readData := rfl
@[simp] theorem State.completed_draws : (s.completed).draws = s.draws := rfl
@[simp] theorem State.completed_agenda : (s.completed).agenda = s.agenda := rfl

/-! `commandError` -/

@[simp] theorem State.commandError_cmd (e : ErrorCode) : (s.commandError e).cmd = s.cmd := rfl
@[simp] theorem State.commandError_status (e : ErrorCode) : (s.commandError e).status = s.status.failed e := rfl
@[simp] theorem State.commandError_ie (e : ErrorCode) : (s.commandError e).ie = s.ie := rfl
@[simp] theorem State.commandError_width (e : ErrorCode) : (s.commandError e).width = s.width := rfl
@[simp] theorem State.commandError_height (e : ErrorCode) : (s.commandError e).height = s.height := rfl
@[simp] theorem State.commandError_nx (e : ErrorCode) : (s.commandError e).nx = s.nx := rfl
@[simp] theorem State.commandError_ny (e : ErrorCode) : (s.commandError e).ny = s.ny := rfl
@[simp] theorem State.commandError_arg (e : ErrorCode) : (s.commandError e).arg = s.arg := rfl
@[simp] theorem State.commandError_argf (e : ErrorCode) : (s.commandError e).argf = s.argf := rfl
@[simp] theorem State.commandError_resi (e : ErrorCode) : (s.commandError e).resi = s.resi := rfl
@[simp] theorem State.commandError_resf (e : ErrorCode) : (s.commandError e).resf = s.resf := rfl
@[simp] theorem State.commandError_scale (e : ErrorCode) : (s.commandError e).scale = s.scale := rfl
@[simp] theorem State.commandError_max (e : ErrorCode) : (s.commandError e).max = s.max := rfl
@[simp] theorem State.commandError_actmax (e : ErrorCode) : (s.commandError e).actmax = s.actmax := rfl
@[simp] theorem State.commandError_hashlen (e : ErrorCode) : (s.commandError e).hashlen = s.hashlen := rfl
@[simp] theorem State.commandError_comp (e : ErrorCode) : (s.commandError e).comp = s.comp := rfl
@[simp] theorem State.commandError_hash (e : ErrorCode) : (s.commandError e).hash = s.hash := rfl
@[simp] theorem State.commandError_pix (e : ErrorCode) : (s.commandError e).pix = s.pix := rfl
@[simp] theorem State.commandError_pixDisturbed (e : ErrorCode) : (s.commandError e).pixDisturbed = false := rfl
@[simp] theorem State.commandError_readData (e : ErrorCode) : (s.commandError e).readData = s.readData := rfl
@[simp] theorem State.commandError_draws (e : ErrorCode) : (s.commandError e).draws = s.draws := rfl
@[simp] theorem State.commandError_agenda (e : ErrorCode) : (s.commandError e).agenda = s.agenda := rfl

/-! `setScale` -/

@[simp] theorem State.setScale_cmd (c : Scale) : (s.setScale c).cmd = s.cmd := rfl
@[simp] theorem State.setScale_status (c : Scale) : (s.setScale c).status = s.status := rfl
@[simp] theorem State.setScale_ie (c : Scale) : (s.setScale c).ie = s.ie := rfl
@[simp] theorem State.setScale_width (c : Scale) : (s.setScale c).width = s.width := rfl
@[simp] theorem State.setScale_height (c : Scale) : (s.setScale c).height = s.height := rfl
@[simp] theorem State.setScale_nx (c : Scale) : (s.setScale c).nx = s.nx := rfl
@[simp] theorem State.setScale_ny (c : Scale) : (s.setScale c).ny = s.ny := rfl
@[simp] theorem State.setScale_arg (c : Scale) : (s.setScale c).arg = s.arg := rfl
@[simp] theorem State.setScale_argf (c : Scale) : (s.setScale c).argf = s.argf := rfl
@[simp] theorem State.setScale_resi (c : Scale) : (s.setScale c).resi = s.resi := rfl
@[simp] theorem State.setScale_resf (c : Scale) : (s.setScale c).resf = s.resf := rfl
@[simp] theorem State.setScale_scale (c : Scale) : (s.setScale c).scale = BitVec.ofNat 7 c.q := rfl
@[simp] theorem State.setScale_max (c : Scale) : (s.setScale c).max = c.maximum := rfl
@[simp] theorem State.setScale_actmax (c : Scale) : (s.setScale c).actmax = c.actmax := rfl
@[simp] theorem State.setScale_hashlen (c : Scale) : (s.setScale c).hashlen = s.hashlen := rfl
@[simp] theorem State.setScale_comp (c : Scale) : (s.setScale c).comp = s.comp := rfl
@[simp] theorem State.setScale_hash (c : Scale) : (s.setScale c).hash = s.hash := rfl
@[simp] theorem State.setScale_pix (c : Scale) : (s.setScale c).pix = s.pix := rfl
@[simp] theorem State.setScale_pixDisturbed (c : Scale) : (s.setScale c).pixDisturbed = s.pixDisturbed := rfl
@[simp] theorem State.setScale_readData (c : Scale) : (s.setScale c).readData = s.readData := rfl
@[simp] theorem State.setScale_draws (c : Scale) : (s.setScale c).draws = s.draws := rfl
@[simp] theorem State.setScale_agenda (c : Scale) : (s.setScale c).agenda = s.agenda := rfl

/-! `fillPixels` -/

@[simp] theorem State.fillPixels_cmd (a : Nat) (bs : List Byte) : (s.fillPixels a bs).cmd = s.cmd := rfl
@[simp] theorem State.fillPixels_status (a : Nat) (bs : List Byte) : (s.fillPixels a bs).status = s.status := rfl
@[simp] theorem State.fillPixels_ie (a : Nat) (bs : List Byte) : (s.fillPixels a bs).ie = s.ie := rfl
@[simp] theorem State.fillPixels_width (a : Nat) (bs : List Byte) : (s.fillPixels a bs).width = s.width := rfl
@[simp] theorem State.fillPixels_height (a : Nat) (bs : List Byte) : (s.fillPixels a bs).height = s.height := rfl
@[simp] theorem State.fillPixels_nx (a : Nat) (bs : List Byte) : (s.fillPixels a bs).nx = s.nx := rfl
@[simp] theorem State.fillPixels_ny (a : Nat) (bs : List Byte) : (s.fillPixels a bs).ny = s.ny := rfl
@[simp] theorem State.fillPixels_arg (a : Nat) (bs : List Byte) : (s.fillPixels a bs).arg = s.arg := rfl
@[simp] theorem State.fillPixels_argf (a : Nat) (bs : List Byte) : (s.fillPixels a bs).argf = s.argf := rfl
@[simp] theorem State.fillPixels_resi (a : Nat) (bs : List Byte) : (s.fillPixels a bs).resi = s.resi := rfl
@[simp] theorem State.fillPixels_resf (a : Nat) (bs : List Byte) : (s.fillPixels a bs).resf = s.resf := rfl
@[simp] theorem State.fillPixels_scale (a : Nat) (bs : List Byte) : (s.fillPixels a bs).scale = s.scale := rfl
@[simp] theorem State.fillPixels_max (a : Nat) (bs : List Byte) : (s.fillPixels a bs).max = s.max := rfl
@[simp] theorem State.fillPixels_actmax (a : Nat) (bs : List Byte) : (s.fillPixels a bs).actmax = s.actmax := rfl
@[simp] theorem State.fillPixels_hashlen (a : Nat) (bs : List Byte) : (s.fillPixels a bs).hashlen = s.hashlen := rfl
@[simp] theorem State.fillPixels_comp (a : Nat) (bs : List Byte) : (s.fillPixels a bs).comp = s.comp := rfl
@[simp] theorem State.fillPixels_hash (a : Nat) (bs : List Byte) : (s.fillPixels a bs).hash = s.hash := rfl
@[simp] theorem State.fillPixels_pix (a : Nat) (bs : List Byte) : (s.fillPixels a bs).pix = Memory.writeBytes s.pix a bs := rfl
@[simp] theorem State.fillPixels_readData (a : Nat) (bs : List Byte) : (s.fillPixels a bs).readData = s.readData := rfl
@[simp] theorem State.fillPixels_draws (a : Nat) (bs : List Byte) : (s.fillPixels a bs).draws = s.draws := rfl
@[simp] theorem State.fillPixels_agenda (a : Nat) (bs : List Byte) : (s.fillPixels a bs).agenda = s.agenda := rfl

/-! `resetBlock` -/

@[simp] theorem State.resetBlock_comp : (s.resetBlock).comp = drawnComp s.draws := rfl
@[simp] theorem State.resetBlock_hash : (s.resetBlock).hash = drawnHash s.draws := rfl
@[simp] theorem State.resetBlock_cmd : (s.resetBlock).cmd = 0#32 := rfl
@[simp] theorem State.resetBlock_status : (s.resetBlock).status = ⟨false, false, false, false, 0#4⟩ := rfl
@[simp] theorem State.resetBlock_ie : (s.resetBlock).ie = false := rfl
@[simp] theorem State.resetBlock_width : (s.resetBlock).width = 0 := rfl
@[simp] theorem State.resetBlock_height : (s.resetBlock).height = 0 := rfl
@[simp] theorem State.resetBlock_nx : (s.resetBlock).nx = 0 := rfl
@[simp] theorem State.resetBlock_ny : (s.resetBlock).ny = 0 := rfl
@[simp] theorem State.resetBlock_arg : (s.resetBlock).arg = 0 := rfl
@[simp] theorem State.resetBlock_argf : (s.resetBlock).argf = 0#64 := rfl
@[simp] theorem State.resetBlock_resi : (s.resetBlock).resi = 0 := rfl
@[simp] theorem State.resetBlock_resf : (s.resetBlock).resf = 0#64 := rfl
@[simp] theorem State.resetBlock_scale : (s.resetBlock).scale = 0 := rfl
@[simp] theorem State.resetBlock_max : (s.resetBlock).max = 0x3FF0000000000000#64 := rfl
@[simp] theorem State.resetBlock_actmax : (s.resetBlock).actmax = 0#64 := rfl
@[simp] theorem State.resetBlock_hashlen : (s.resetBlock).hashlen = 0 := rfl
@[simp] theorem State.resetBlock_pix : (s.resetBlock).pix = s.pix := rfl
@[simp] theorem State.resetBlock_pixDisturbed : (s.resetBlock).pixDisturbed = false := rfl
@[simp] theorem State.resetBlock_readData : (s.resetBlock).readData = s.readData := rfl
@[simp] theorem State.resetBlock_draws : (s.resetBlock).draws = s.draws + resetDraws := rfl
@[simp] theorem State.resetBlock_agenda : (s.resetBlock).agenda = s.agenda := rfl

/-! The status updates. -/

variable (t : Status)

@[simp] theorem Status.succeeded_busy : t.succeeded.busy = false := rfl
@[simp] theorem Status.succeeded_done : t.succeeded.done = true := rfl
@[simp] theorem Status.succeeded_err : t.succeeded.err = false := rfl
@[simp] theorem Status.succeeded_ovr : t.succeeded.ovr = t.ovr := rfl
@[simp] theorem Status.succeeded_ecode : t.succeeded.ecode = 0 := rfl
@[simp] theorem Status.failed_busy (e : ErrorCode) : (t.failed e).busy = false := rfl
@[simp] theorem Status.failed_done (e : ErrorCode) : (t.failed e).done = true := rfl
@[simp] theorem Status.failed_err (e : ErrorCode) : (t.failed e).err = true := rfl
@[simp] theorem Status.failed_ovr (e : ErrorCode) : (t.failed e).ovr = t.ovr := rfl
@[simp] theorem Status.failed_ecode (e : ErrorCode) : (t.failed e).ecode = e.code := rfl
@[simp] theorem Status.accepted_busy : t.accepted.busy = true := rfl
@[simp] theorem Status.accepted_done : t.accepted.done = false := rfl
@[simp] theorem Status.accepted_err : t.accepted.err = t.err := rfl
@[simp] theorem Status.accepted_ovr : t.accepted.ovr = t.ovr := rfl
@[simp] theorem Status.accepted_ecode : t.accepted.ecode = t.ecode := rfl
@[simp] theorem Status.overrun_busy : t.overrun.busy = t.busy := rfl
@[simp] theorem Status.overrun_done : t.overrun.done = t.done := rfl
@[simp] theorem Status.overrun_err : t.overrun.err = t.err := rfl
@[simp] theorem Status.overrun_ovr : t.overrun.ovr = true := rfl
@[simp] theorem Status.overrun_ecode : t.overrun.ecode = t.ecode := rfl
@[simp] theorem Status.clearedBy_busy (v : Word32) : (t.clearedBy v).busy = t.busy := rfl
@[simp] theorem Status.clearedBy_err (v : Word32) : (t.clearedBy v).err = t.err := rfl
@[simp] theorem Status.clearedBy_ecode (v : Word32) : (t.clearedBy v).ecode = t.ecode := rfl
@[simp] theorem Status.clearedBy_done (v : Word32) :
    (t.clearedBy v).done = (t.done && !v.getLsbD 1) := rfl
@[simp] theorem Status.clearedBy_ovr (v : Word32) :
    (t.clearedBy v).ovr = (t.ovr && !v.getLsbD 3) := rfl

/-- Every error code is one of 1 to 5 (R308). -/
theorem ErrorCode.code_range (e : ErrorCode) : 1 ≤ e.code.toNat ∧ e.code.toNat ≤ 5 := by
  cases e <;> decide

theorem ErrorCode.code_ne_zero (e : ErrorCode) : e.code ≠ 0 := by
  cases e <;> decide

end Sys2Proof.Machine
end

