-- ==== Sys2Proof/Laws/Ops.lean ====
section
/-! SUPPORT. What each shared operation does: the buffers, the checks of R302, and the Complete step. -/

namespace Sys2Proof.Machine

/-! The buffers. -/

theorem State.slot_eq (s : State) {n : Nat} (h : n < 81) : s.slot n = s.comp[n] := by
  simp [State.slot, Vector.getD, h]

theorem State.slot_absent (s : State) {n : Nat} (h : 81 ≤ n) : s.slot n = Triplet.zero := by
  simp [State.slot, Vector.getD, Array.getD, Nat.not_lt.mpr h]

theorem State.hashByte_eq (s : State) {p : Nat} (h : p < 166) : s.hashByte p = s.hash[p] := by
  simp [State.hashByte, Vector.getD, h]

/-- The slots depend on COMP alone. -/
theorem State.slot_of_comp {s t : State} (h : s.comp = t.comp) (n : Nat) : s.slot n = t.slot n := by
  rw [State.slot, State.slot, h]

/-- The hash bytes depend on HASH alone. -/
theorem State.hashByte_of_hash {s t : State} (h : s.hash = t.hash) (p : Nat) : s.hashByte p = t.hashByte p := by
  rw [State.hashByte, State.hashByte, h]

theorem State.hashByte_absent (s : State) {p : Nat} (h : 166 ≤ p) : s.hashByte p = 0 := by
  simp [State.hashByte, Vector.getD, Array.getD, Nat.not_lt.mpr h]

/-- The entries of a spliced buffer. -/
theorem getElem_splice {α : Type} {n : Nat} (v : Vector α n) (off : Nat) (xs : List α) (p : Nat) (h : p < n) :
    (splice v off xs)[p] = if off ≤ p then xs.getD (p - off) v[p] else v[p] := by
  induction xs generalizing v off with
  | nil => simp [splice]
  | cons x xs ih =>
    rw [splice, ih, Vector.getElem_setIfInBounds]
    by_cases h1 : off + 1 ≤ p
    · rw [if_pos h1, if_neg (show ¬ off = p by omega), if_pos (show off ≤ p by omega),
        show p - off = (p - (off + 1)) + 1 by omega]
      rfl
    · rw [if_neg h1]
      by_cases h2 : off = p
      · subst h2; simp
      · rw [if_neg h2, if_neg (by omega)]

/-- The slots after one slot is written. -/
theorem State.slot_setSlot (s : State) (n m : Nat) (t : Triplet) :
    (s.setSlot n t).slot m = if n = m ∧ n < 81 then t else s.slot m := by
  by_cases hm : m < 81
  · rw [State.slot_eq _ hm, State.slot_eq _ hm]
    simp only [State.setSlot_comp, Vector.getElem_setIfInBounds]
    split_ifs <;> first | rfl | omega
  · rw [State.slot_absent _ (by omega), State.slot_absent _ (by omega), if_neg (by omega)]

/-- The slots after the first slots are written: the others keep their values. -/
theorem State.slot_setSlots (s : State) (ts : List Triplet) (n : Nat) (h : n < 81) :
    (s.setSlots ts).slot n = ts.getD n (s.slot n) := by
  rw [State.slot_eq _ h, State.slot_eq _ h]
  simp [getElem_splice]

/-- The hash bytes after a write: the ones outside it keep their values. -/
theorem State.hashByte_writeHash (s : State) (off : Nat) (bs : List Byte) (p : Nat) (h : p < 166) :
    (s.writeHash off bs).hashByte p =
      if off ≤ p then bs.getD (p - off) (s.hashByte p) else s.hashByte p := by
  rw [State.hashByte_eq _ h, State.hashByte_eq _ h]
  simp [getElem_splice]

/-! The checks. -/

theorem firstError_eq_none {cs : List (Bool × ErrorCode)} :
    firstError cs = none ↔ ∀ c ∈ cs, c.1 = true := by
  induction cs with
  | nil => simp [firstError]
  | cons c cs ih => rcases c with ⟨ok, e⟩; cases ok <;> simp [firstError, ih]

/-! The Complete step. -/

/-- Everything a Complete step can answer: always a next state, by a command error or by the writes. -/
theorem runCommand_cases (cs : List (Bool × ErrorCode)) (f : State → State) (s : State) :
    (∃ e, firstError cs = some e ∧ runCommand cs f s = .next (s.commandError e)) ∨
    (firstError cs = none ∧ runCommand cs f s = .next (f s).completed) := by
  unfold runCommand
  cases firstError cs with
  | none => exact Or.inr ⟨rfl, rfl⟩
  | some e => exact Or.inl ⟨e, rfl, rfl⟩

theorem runCommand_ok {cs : List (Bool × ErrorCode)} (f : State → State) (s : State)
    (h : firstError cs = none) : runCommand cs f s = .next (f s).completed := by
  simp [runCommand, h]

theorem runCommand_err {cs : List (Bool × ErrorCode)} (f : State → State) (s : State) {e : ErrorCode}
    (h : firstError cs = some e) : runCommand cs f s = .next (s.commandError e) := by
  simp [runCommand, h]

end Sys2Proof.Machine
end

