-- ==== Sys2Proof/Laws/Effects.lean ====
section
/-! SUPPORT. What the writes of BASIS, QSCALE and ENCODE leave alone, and what they write to the plain
registers: one lemma per field. -/

namespace Sys2Proof.Machine

variable (cfg : Config) (s : State)

/-! BASIS writes COMP, and draws only when a pixel byte was disturbed (R81, R177). -/

@[simp] theorem basisEffect_cmd (j i : BitVec 4) : (basisEffect cfg j i s).cmd = s.cmd := by
  unfold basisEffect; dsimp only; split <;> rfl
@[simp] theorem basisEffect_status (j i : BitVec 4) : (basisEffect cfg j i s).status = s.status := by
  unfold basisEffect; dsimp only; split <;> rfl
@[simp] theorem basisEffect_ie (j i : BitVec 4) : (basisEffect cfg j i s).ie = s.ie := by
  unfold basisEffect; dsimp only; split <;> rfl
@[simp] theorem basisEffect_width (j i : BitVec 4) : (basisEffect cfg j i s).width = s.width := by
  unfold basisEffect; dsimp only; split <;> rfl
@[simp] theorem basisEffect_height (j i : BitVec 4) : (basisEffect cfg j i s).height = s.height := by
  unfold basisEffect; dsimp only; split <;> rfl
@[simp] theorem basisEffect_nx (j i : BitVec 4) : (basisEffect cfg j i s).nx = s.nx := by
  unfold basisEffect; dsimp only; split <;> rfl
@[simp] theorem basisEffect_ny (j i : BitVec 4) : (basisEffect cfg j i s).ny = s.ny := by
  unfold basisEffect; dsimp only; split <;> rfl
@[simp] theorem basisEffect_arg (j i : BitVec 4) : (basisEffect cfg j i s).arg = s.arg := by
  unfold basisEffect; dsimp only; split <;> rfl
@[simp] theorem basisEffect_argf (j i : BitVec 4) : (basisEffect cfg j i s).argf = s.argf := by
  unfold basisEffect; dsimp only; split <;> rfl
@[simp] theorem basisEffect_resf (j i : BitVec 4) : (basisEffect cfg j i s).resf = s.resf := by
  unfold basisEffect; dsimp only; split <;> rfl
@[simp] theorem basisEffect_pix (j i : BitVec 4) : (basisEffect cfg j i s).pix = s.pix := by
  unfold basisEffect; dsimp only; split <;> rfl
@[simp] theorem basisEffect_pixDisturbed (j i : BitVec 4) : (basisEffect cfg j i s).pixDisturbed = s.pixDisturbed := by
  unfold basisEffect; dsimp only; split <;> rfl
@[simp] theorem basisEffect_readData (j i : BitVec 4) : (basisEffect cfg j i s).readData = s.readData := by
  unfold basisEffect; dsimp only; split <;> rfl
@[simp] theorem basisEffect_agenda (j i : BitVec 4) : (basisEffect cfg j i s).agenda = s.agenda := by
  unfold basisEffect; dsimp only; split <;> rfl
@[simp] theorem basisEffect_resi (j i : BitVec 4) : (basisEffect cfg j i s).resi = s.resi := by
  unfold basisEffect; dsimp only; split <;> rfl
@[simp] theorem basisEffect_scale (j i : BitVec 4) : (basisEffect cfg j i s).scale = s.scale := by
  unfold basisEffect; dsimp only; split <;> rfl
@[simp] theorem basisEffect_max (j i : BitVec 4) : (basisEffect cfg j i s).max = s.max := by
  unfold basisEffect; dsimp only; split <;> rfl
@[simp] theorem basisEffect_actmax (j i : BitVec 4) : (basisEffect cfg j i s).actmax = s.actmax := by
  unfold basisEffect; dsimp only; split <;> rfl
@[simp] theorem basisEffect_hashlen (j i : BitVec 4) : (basisEffect cfg j i s).hashlen = s.hashlen := by
  unfold basisEffect; dsimp only; split <;> rfl
@[simp] theorem basisEffect_hash (j i : BitVec 4) : (basisEffect cfg j i s).hash = s.hash := by
  unfold basisEffect; dsimp only; split <;> rfl

/-! QSCALE writes ACTMAX, SCALE, MAX and RESI (R212). -/

@[simp] theorem qscaleEffect_cmd : (qscaleEffect s).cmd = s.cmd := rfl
@[simp] theorem qscaleEffect_status : (qscaleEffect s).status = s.status := rfl
@[simp] theorem qscaleEffect_ie : (qscaleEffect s).ie = s.ie := rfl
@[simp] theorem qscaleEffect_width : (qscaleEffect s).width = s.width := rfl
@[simp] theorem qscaleEffect_height : (qscaleEffect s).height = s.height := rfl
@[simp] theorem qscaleEffect_nx : (qscaleEffect s).nx = s.nx := rfl
@[simp] theorem qscaleEffect_ny : (qscaleEffect s).ny = s.ny := rfl
@[simp] theorem qscaleEffect_arg : (qscaleEffect s).arg = s.arg := rfl
@[simp] theorem qscaleEffect_argf : (qscaleEffect s).argf = s.argf := rfl
@[simp] theorem qscaleEffect_resf : (qscaleEffect s).resf = s.resf := rfl
@[simp] theorem qscaleEffect_pix : (qscaleEffect s).pix = s.pix := rfl
@[simp] theorem qscaleEffect_pixDisturbed : (qscaleEffect s).pixDisturbed = s.pixDisturbed := rfl
@[simp] theorem qscaleEffect_readData : (qscaleEffect s).readData = s.readData := rfl
@[simp] theorem qscaleEffect_agenda : (qscaleEffect s).agenda = s.agenda := rfl
@[simp] theorem qscaleEffect_comp : (qscaleEffect s).comp = s.comp := rfl
@[simp] theorem qscaleEffect_hash : (qscaleEffect s).hash = s.hash := rfl
@[simp] theorem qscaleEffect_hashlen : (qscaleEffect s).hashlen = s.hashlen := rfl
@[simp] theorem qscaleEffect_draws : (qscaleEffect s).draws = s.draws := rfl
@[simp] theorem qscaleEffect_actmax : (qscaleEffect s).actmax = (scaleSelect s.acSlots).actmax := rfl
@[simp] theorem qscaleEffect_scale : (qscaleEffect s).scale = BitVec.ofNat 7 (scaleSelect s.acSlots).q := rfl
@[simp] theorem qscaleEffect_max : (qscaleEffect s).max = (scaleSelect s.acSlots).maximum := rfl
@[simp] theorem qscaleEffect_resi : (qscaleEffect s).resi = BitVec.ofNat 32 (scaleSelect s.acSlots).q := rfl

/-! ENCODE writes COMP, HASH, HASHLEN, RESI, ACTMAX, SCALE and MAX (R263). -/

@[simp] theorem encodeWrites_cmd : (encodeWrites cfg s).cmd = s.cmd := rfl
@[simp] theorem encodeDraws_cmd : (encodeDraws s).cmd = s.cmd := rfl
@[simp] theorem encodeEffect_cmd : (encodeEffect cfg s).cmd = s.cmd := by
  unfold encodeEffect; dsimp only; split <;> rfl
@[simp] theorem encodeWrites_status : (encodeWrites cfg s).status = s.status := rfl
@[simp] theorem encodeDraws_status : (encodeDraws s).status = s.status := rfl
@[simp] theorem encodeEffect_status : (encodeEffect cfg s).status = s.status := by
  unfold encodeEffect; dsimp only; split <;> rfl
@[simp] theorem encodeWrites_ie : (encodeWrites cfg s).ie = s.ie := rfl
@[simp] theorem encodeDraws_ie : (encodeDraws s).ie = s.ie := rfl
@[simp] theorem encodeEffect_ie : (encodeEffect cfg s).ie = s.ie := by
  unfold encodeEffect; dsimp only; split <;> rfl
@[simp] theorem encodeWrites_width : (encodeWrites cfg s).width = s.width := rfl
@[simp] theorem encodeDraws_width : (encodeDraws s).width = s.width := rfl
@[simp] theorem encodeEffect_width : (encodeEffect cfg s).width = s.width := by
  unfold encodeEffect; dsimp only; split <;> rfl
@[simp] theorem encodeWrites_height : (encodeWrites cfg s).height = s.height := rfl
@[simp] theorem encodeDraws_height : (encodeDraws s).height = s.height := rfl
@[simp] theorem encodeEffect_height : (encodeEffect cfg s).height = s.height := by
  unfold encodeEffect; dsimp only; split <;> rfl
@[simp] theorem encodeWrites_nx : (encodeWrites cfg s).nx = s.nx := rfl
@[simp] theorem encodeDraws_nx : (encodeDraws s).nx = s.nx := rfl
@[simp] theorem encodeEffect_nx : (encodeEffect cfg s).nx = s.nx := by
  unfold encodeEffect; dsimp only; split <;> rfl
@[simp] theorem encodeWrites_ny : (encodeWrites cfg s).ny = s.ny := rfl
@[simp] theorem encodeDraws_ny : (encodeDraws s).ny = s.ny := rfl
@[simp] theorem encodeEffect_ny : (encodeEffect cfg s).ny = s.ny := by
  unfold encodeEffect; dsimp only; split <;> rfl
@[simp] theorem encodeWrites_arg : (encodeWrites cfg s).arg = s.arg := rfl
@[simp] theorem encodeDraws_arg : (encodeDraws s).arg = s.arg := rfl
@[simp] theorem encodeEffect_arg : (encodeEffect cfg s).arg = s.arg := by
  unfold encodeEffect; dsimp only; split <;> rfl
@[simp] theorem encodeWrites_argf : (encodeWrites cfg s).argf = s.argf := rfl
@[simp] theorem encodeDraws_argf : (encodeDraws s).argf = s.argf := rfl
@[simp] theorem encodeEffect_argf : (encodeEffect cfg s).argf = s.argf := by
  unfold encodeEffect; dsimp only; split <;> rfl
@[simp] theorem encodeWrites_resf : (encodeWrites cfg s).resf = s.resf := rfl
@[simp] theorem encodeDraws_resf : (encodeDraws s).resf = s.resf := rfl
@[simp] theorem encodeEffect_resf : (encodeEffect cfg s).resf = s.resf := by
  unfold encodeEffect; dsimp only; split <;> rfl
@[simp] theorem encodeWrites_pix : (encodeWrites cfg s).pix = s.pix := rfl
@[simp] theorem encodeDraws_pix : (encodeDraws s).pix = s.pix := rfl
@[simp] theorem encodeEffect_pix : (encodeEffect cfg s).pix = s.pix := by
  unfold encodeEffect; dsimp only; split <;> rfl
@[simp] theorem encodeWrites_pixDisturbed : (encodeWrites cfg s).pixDisturbed = s.pixDisturbed := rfl
@[simp] theorem encodeDraws_pixDisturbed : (encodeDraws s).pixDisturbed = s.pixDisturbed := rfl
@[simp] theorem encodeEffect_pixDisturbed : (encodeEffect cfg s).pixDisturbed = s.pixDisturbed := by
  unfold encodeEffect; dsimp only; split <;> rfl
@[simp] theorem encodeWrites_readData : (encodeWrites cfg s).readData = s.readData := rfl
@[simp] theorem encodeDraws_readData : (encodeDraws s).readData = s.readData := rfl
@[simp] theorem encodeEffect_readData : (encodeEffect cfg s).readData = s.readData := by
  unfold encodeEffect; dsimp only; split <;> rfl
@[simp] theorem encodeWrites_agenda : (encodeWrites cfg s).agenda = s.agenda := rfl
@[simp] theorem encodeDraws_agenda : (encodeDraws s).agenda = s.agenda := rfl
@[simp] theorem encodeEffect_agenda : (encodeEffect cfg s).agenda = s.agenda := by
  unfold encodeEffect; dsimp only; split <;> rfl
@[simp] theorem encodeEffect_hashlen :
    (encodeEffect cfg s).hashlen = BitVec.ofNat 8 (hashLength s.components) := rfl
@[simp] theorem encodeEffect_resi :
    (encodeEffect cfg s).resi = BitVec.ofNat 32 (hashLength s.components) := rfl

/-! What ENCODE leaves in the buffers and the scale registers when no pixel byte was disturbed. -/

/-- The components ENCODE computes from the grid the state holds. -/
abbrev State.gridComponents (cfg : Config) (s : State) : List Triplet :=
  Machine.components cfg s.pix s.width.toNat s.height.toNat s.nx.toNat s.ny.toNat

variable {cfg s}

theorem encodeEffect_undisturbed (h : s.pixDisturbed = false) :
    (encodeEffect cfg s).comp = splice s.comp 0 (s.gridComponents cfg) ∧
    (encodeEffect cfg s).hash = splice s.hash 0 (hashString cfg s.nx.toNat s.ny.toNat (s.gridComponents cfg)
      (scaleSelect (s.gridComponents cfg).tail)) ∧
    (encodeEffect cfg s).actmax = (scaleSelect (s.gridComponents cfg).tail).actmax ∧
    (encodeEffect cfg s).scale = BitVec.ofNat 7 (scaleSelect (s.gridComponents cfg).tail).q ∧
    (encodeEffect cfg s).max = (scaleSelect (s.gridComponents cfg).tail).maximum ∧
    (encodeEffect cfg s).draws = s.draws := by
  unfold encodeEffect
  rw [if_neg (by simp [h])]
  simp [encodeWrites]

/-- After a pixel byte was disturbed, ENCODE writes draws to the same slots and bytes (R81). -/
theorem encodeEffect_disturbed (h : s.pixDisturbed = true) :
    (encodeEffect cfg s).comp =
      splice s.comp 0 ((List.range s.components).map fun k => s.drawTriplet (3 * k)) ∧
    (encodeEffect cfg s).hash = splice s.hash 0 ((List.range (hashLength s.components)).map fun p =>
      (s.draw (3 * s.components + 3 + p)).setWidth 8) := by
  unfold encodeEffect
  rw [if_pos h]
  exact ⟨rfl, rfl⟩

theorem basisEffect_undisturbed (h : s.pixDisturbed = false) (j i : BitVec 4) :
    basisEffect cfg j i s = s.setSlot (s.slotOf i.toNat j.toNat) (s.basis cfg i.toNat j.toNat) := by
  unfold basisEffect
  rw [if_neg (by simp [h])]

theorem basisEffect_disturbed (h : s.pixDisturbed = true) (j i : BitVec 4) :
    basisEffect cfg j i s = (s.setSlot (s.slotOf i.toNat j.toNat) (s.drawTriplet 0)).drew 3 := by
  unfold basisEffect
  rw [if_pos h]

end Sys2Proof.Machine
end

