-- ==== Sys2Proof/Laws/Exec.lean ====
section
/-! SUPPORT. Every command is its checks and its writes: the one inversion lemma that later proofs use
instead of unfolding the meanings. -/

namespace Sys2Proof.Machine

/-- The checks of a command, in the order of R302. -/
def checksOf (i : Instr) (s : State) : List (Bool × ErrorCode) :=
  match i with
  | .nop rsv | .lin rsv | .gam rsv | .qdc rsv => [(rsv == 0, .reservedField)]
  | .encode rsv => [(rsv == 0, .reservedField), (s.ncompOk, .badNcomp), (s.dimOk Config.hw, .badDim)]
  | .basis rsv j i =>
    [(rsv == 0, .reservedField), (s.ncompOk, .badNcomp), (s.dimOk Config.hw, .badDim),
      (s.basisOperandOk j i, .badOperand)]
  | .qscale rsv => [(rsv == 0, .reservedField), (s.ncompOk, .badNcomp)]
  | .qac rsv k =>
    [(rsv == 0, .reservedField), (s.ncompOk, .badNcomp), (s.qacOperandOk k, .badOperand)]
  | .b83 rsvHi off rsvLo len =>
    [(rsvHi == 0 && rsvLo == 0, .reservedField), (b83OperandOk off len, .badOperand)]

/-- The writes of a command. -/
def effectOf (i : Instr) (s : State) : State :=
  match i with
  | .nop _ => s
  | .encode _ => encodeEffect Config.hw s
  | .lin _ => { s with resf := toLinear Config.hw (s.arg.extractLsb' 0 8) }
  | .gam _ => { s with resi := (toGamma Config.hw s.argf).setWidth 32 }
  | .basis _ j i => basisEffect Config.hw j i s
  | .qdc _ => { s with resi := (quantDC Config.hw (s.slot 0)).setWidth 32 }
  | .qscale _ => qscaleEffect s
  | .qac _ k => { s with resi := BitVec.ofNat 32 (quantAC Config.hw (s.slot k.toNat) s.max) }
  | .b83 _ off _ len => s.writeHash off.toNat (base83 s.arg.toNat len.toNat)

/-- A command is its checks, then its writes. -/
theorem exec_eq (i : Instr) (s : State) : exec i s = runCommand (checksOf i s) (effectOf i) s := by
  cases i <;> rfl

/-- Everything a command can do: end with the error code of its first failing check, or write and succeed. -/
theorem exec_cases (i : Instr) (s : State) :
    (∃ e, firstError (checksOf i s) = some e ∧ exec i s = .next (s.commandError e)) ∨
    (firstError (checksOf i s) = none ∧ exec i s = .next (effectOf i s).completed) := by
  rw [exec_eq]; exact runCommand_cases _ _ _

theorem exec_ok {i : Instr} {s : State} (h : firstError (checksOf i s) = none) :
    exec i s = .next (effectOf i s).completed := by
  rw [exec_eq]; exact runCommand_ok _ _ h

theorem exec_err {i : Instr} {s : State} {e : ErrorCode} (h : firstError (checksOf i s) = some e) :
    exec i s = .next (s.commandError e) := by
  rw [exec_eq]; exact runCommand_err _ _ h

/-! What the larger writes leave alone. -/

/-- The fields that no command writes. -/
theorem effectOf_keeps (i : Instr) (s : State) :
    (effectOf i s).cmd = s.cmd ∧ (effectOf i s).status = s.status ∧ (effectOf i s).ie = s.ie ∧
    (effectOf i s).width = s.width ∧ (effectOf i s).height = s.height ∧ (effectOf i s).nx = s.nx ∧
    (effectOf i s).ny = s.ny ∧ (effectOf i s).arg = s.arg ∧ (effectOf i s).argf = s.argf ∧
    (effectOf i s).pix = s.pix ∧ (effectOf i s).readData = s.readData ∧
    (effectOf i s).agenda = s.agenda := by
  cases i <;> simp [effectOf]

end Sys2Proof.Machine
end

