-- ==== Sys2Proof/Laws/PerInstr.lean ====
section
/-! SUPPORT. Facts about every command as syntax, one lemma per constructor: its word holds its opcode in
bits 31..24 and its operand field in bits 23..0 (R100). -/

namespace Sys2Proof.Laws.Opcode

/-- The word of a command is its opcode over its operand field (R100). -/
def Statement (i : Instr) : Prop :=
  opcodeField (encode i) = i.opcode ∧ (encode i).extractLsb' 0 24 = i.operandField

/-- Both fields of any word built from an opcode and an operand field. -/
theorem of_append (o : BitVec 8) (f : BitVec 24) :
    opcodeField (o ++ f) = o ∧ (o ++ f : Word32).extractLsb' 0 24 = f :=
  ⟨BitVec.extractLsb'_append_eq_left, BitVec.extractLsb'_append_eq_right⟩

theorem nop (rsv : BitVec 24) : Statement (.nop rsv) := of_append _ _
theorem encode (rsv : BitVec 24) : Statement (.encode rsv) := of_append _ _
theorem lin (rsv : BitVec 24) : Statement (.lin rsv) := of_append _ _
theorem gam (rsv : BitVec 24) : Statement (.gam rsv) := of_append _ _
theorem basis (rsv : BitVec 16) (j i : BitVec 4) : Statement (.basis rsv j i) := of_append _ _
theorem qdc (rsv : BitVec 24) : Statement (.qdc rsv) := of_append _ _
theorem qscale (rsv : BitVec 24) : Statement (.qscale rsv) := of_append _ _
theorem qac (rsv : BitVec 17) (k : BitVec 7) : Statement (.qac rsv k) := of_append _ _
theorem b83 (rsvHi off : BitVec 8) (rsvLo len : BitVec 4) : Statement (.b83 rsvHi off rsvLo len) :=
  of_append _ _

end Sys2Proof.Laws.Opcode
end

