-- ==== Sys2Proof/Laws/Window.lean ====
section
/-! SUPPORT. The register window: halves of 64-bit values, channels, and the map of R32. -/

namespace Sys2Proof.Machine

@[simp] theorem lowWord_setLowWord (v : F64) (w : Word32) : lowWord (setLowWord v w) = w := by
  simp only [lowWord, setLowWord, BitVec.extractLsb'_append_eq_right]

@[simp] theorem highWord_setLowWord (v : F64) (w : Word32) : highWord (setLowWord v w) = highWord v := by
  unfold highWord setLowWord
  exact BitVec.extractLsb'_append_eq_left

@[simp] theorem lowWord_setHighWord (v : F64) (w : Word32) : lowWord (setHighWord v w) = lowWord v := by
  simp only [lowWord, setHighWord, BitVec.extractLsb'_append_eq_right]

@[simp] theorem highWord_setHighWord (v : F64) (w : Word32) : highWord (setHighWord v w) = w := by
  unfold highWord setHighWord
  exact BitVec.extractLsb'_append_eq_left

/-- A 64-bit value is its two words (R75). -/
theorem ofWords (v : F64) : highWord v ++ lowWord v = v := by
  apply BitVec.eq_of_toNat_eq
  simp only [highWord, lowWord, BitVec.toNat_append, BitVec.extractLsb'_toNat, Nat.shiftRight_eq_div_pow]
  rw [← Nat.shiftLeft_add_eq_or_of_lt (Nat.mod_lt _ (by decide)), Nat.shiftLeft_eq]
  have := v.isLt
  omega

@[simp] theorem Triplet.channel_setChannel_same (t : Triplet) (c : Nat) (v : F64) :
    (t.setChannel c v).channel c = v := by
  simp only [Triplet.channel, Triplet.setChannel]; split_ifs <;> rfl

theorem Triplet.channel_setChannel_other (t : Triplet) {c d : Nat} (v : F64) (hc : c < 3) (hd : d < 3)
    (h : d ≠ c) : (t.setChannel c v).channel d = t.channel d := by
  simp only [Triplet.channel, Triplet.setChannel]; split_ifs <;> first | rfl | omega

/-- The component window (R54): its words stand for slots 0 to 80, channels 0 to 2 and halves 0 and 1. -/
theorem regAt_comp {n c h : Nat} (hn : n < 81) (hc : c < 3) (hh : h < 2) :
    regAt (0x400 + 24 * n + 8 * c + 4 * h) = .comp n c h := by
  unfold regAt
  repeat rw [if_neg (by omega)]
  rw [if_pos (by omega)]
  congr 1 <;> omega

/-- The hash window (R56): its words are 0 to 41. -/
theorem regAt_hash {w : Nat} (hw : w < 42) : regAt (0xC00 + 4 * w) = .hash w := by
  unfold regAt
  repeat rw [if_neg (by omega)]
  rw [if_pos (by omega)]
  congr 1; omega

/-- A write that is not dropped is performed; a dropped one only sets OVR (R39). -/
theorem State.writeReg_cases (s : State) (r : Reg) (v : Word32) :
    (s.status.busy = true ∧ r.isOperand = true ∧ s.writeReg r v = { s with status := s.status.overrun }) ∨
    ((s.status.busy = false ∨ r.isOperand = false) ∧ s.writeReg r v = s.storeReg r v) := by
  unfold State.writeReg
  cases s.status.busy <;> cases r.isOperand <;> simp

/-- A read changes only what the host sees, and the draws (R78). -/
theorem State.readReg_cases (s : State) (r : Reg) :
    (s.status.busy = true ∧ r.isResult = true ∧
      s.readReg r = { s with readData := (s.draw 0).setWidth 32, draws := s.draws + 1 }) ∨
    ((s.status.busy = false ∨ r.isResult = false) ∧ s.readReg r = { s with readData := s.regValue r }) := by
  unfold State.readReg
  cases s.status.busy <;> cases r.isResult <;> simp

end Sys2Proof.Machine
end

