-- ==== Sys2Proof/Laws/Step.lean ====
section
/-! SUPPORT. What a Complete step and a step of the machine can do, said once. -/

namespace Sys2Proof.Machine

/-- Everything a Complete step can do: end with an error code, or write and succeed (R52). -/
theorem complete_cases (s : State) :
    (∃ e, complete s = .next (s.commandError e)) ∨
    (∃ i, decode s.cmd = .ok i ∧ firstError (checksOf i s) = none ∧
      complete s = .next (effectOf i s).completed) := by
  unfold complete
  split
  · rename_i i h
    rcases exec_cases i s with ⟨e, -, h2⟩ | ⟨h1, h2⟩
    · exact .inl ⟨e, h2⟩
    · exact .inr ⟨i, h, h1, h2⟩
  · exact .inl ⟨_, rfl⟩

/-- A Complete step leaves the agenda, what the host read, PIX and CMD as they are. -/
theorem complete_keeps {s t : State} (h : complete s = .next t) :
    t.agenda = s.agenda ∧ t.readData = s.readData ∧ t.pix = s.pix ∧ t.cmd = s.cmd := by
  rcases complete_cases s with ⟨e, h'⟩ | ⟨i, -, -, h'⟩
  · rw [h'] at h; cases h; exact ⟨rfl, rfl, rfl, rfl⟩
  · rw [h'] at h; cases h
    obtain ⟨k1, -, -, -, -, -, -, -, -, k2, k3, k4⟩ := effectOf_keeps i s
    exact ⟨k4, k3, k2, k1⟩

/-- A host write leaves the agenda as it is. -/
@[simp] theorem State.storeReg_agenda (s : State) (r : Reg) (v : Word32) :
    (s.storeReg r v).agenda = s.agenda := by
  cases r <;> simp [State.storeReg]

/-- A step with nothing on the agenda is the block's turn (R52, R318). -/
theorem step_idle {s : State} (h : s.agenda = []) : step s = blockTurn s := by
  rw [step, h]

/-- A step with an event on the agenda is that event. -/
theorem step_event {s : State} {e : Event} {rest : List Event} (h : s.agenda = e :: rest) :
    step s = happen Config.hw e { s with agenda := rest } := by
  rw [step, h]

/-- A run of one more step. -/
theorem run_succ {k : Nat} {s t : State} (h : step s = .next t) :
    Sys2Proof.core.run (k + 1) s = Sys2Proof.core.run k t := by
  have h' : Sys2Proof.core.step s = .next t := h
  simp only [Host.Core.run]
  rw [h']

end Sys2Proof.Machine
end

