-- ==== Sys2Proof/Tests/Slice0.lean ====
section
/-! SUPPORT. Tests of the model against words and vectors the spec prints, the smoke tests of WellFormed, and
for every statement with hypotheses a state and operands that meet all of them (`witness_…`). -/

namespace Sys2Proof.Tests

-- One theorem after another: many kernel evaluations at once need a thread each.
set_option Elab.async false

open Sys2Proof.Machine

/-! ## Decoding: words written bit by bit from R100 to R105, and the words of R111 -/

theorem test_decode_nop : decode 0b00000000_000000000000000000000000#32 = .ok (.nop 0) := by decide
theorem test_decode_encode : decode 0b00000001_000000000000000000000000#32 = .ok (.encode 0) := by decide
theorem test_decode_lin : decode 0b00010000_000000000000000000000000#32 = .ok (.lin 0) := by decide
theorem test_decode_gam : decode 0b00010001_000000000000000000000000#32 = .ok (.gam 0) := by decide
/-- `BASIS 1, 2` is 0x20000021 (R111): J = 2 in bits 7..4, I = 1 in bits 3..0. -/
theorem test_decode_basis : decode 0b00100000_0000000000000000_0010_0001#32 = .ok (.basis 0 2 1) := by decide
theorem test_decode_qdc : decode 0b00110000_000000000000000000000000#32 = .ok (.qdc 0) := by decide
theorem test_decode_qscale : decode 0b00110001_000000000000000000000000#32 = .ok (.qscale 0) := by decide
/-- `QAC 5` is 0x32000005 (R111). -/
theorem test_decode_qac : decode 0b00110010_00000000000000000_0000101#32 = .ok (.qac 0 5) := by decide
/-- `B83 4, 2` is 0x40000204 (R111): OFF = 2 in bits 15..8, LEN = 4 in bits 3..0. -/
theorem test_decode_b83 : decode 0b01000000_00000000_00000010_0000_0100#32 = .ok (.b83 0 2 0 4) := by decide
/-- The reserved bits of format IJ do not select another command (R107, V16). -/
theorem test_decode_reserved : decode 0x20FF0099#32 = .ok (.basis 0xFF00 9 9) := by decide
/-- The illegal words of V16. -/
theorem test_decode_illegal : decode 0xFF000000#32 = .error (.illegalOpcode 0xFF) ∧
    decode 0x02000000#32 = .error (.illegalOpcode 0x02) := by decide
theorem test_decode_table_word : decodeTableWord 32 0x40000204 = some (.b83 0 2 0 4) ∧
    decodeTableWord 32 0xFF000000 = none := by decide
theorem test_encode_b83 : encode (.b83 0 2 0 4) = 0x40000204#32 := by decide

/-! ## WellFormed: one ill-formed command for each check -/

theorem test_illformed_nop : ¬(Instr.nop 1).WellFormed := by decide
theorem test_illformed_encode : ¬(Instr.encode 0x800000).WellFormed := by decide
theorem test_illformed_lin : ¬(Instr.lin 0x100).WellFormed := by decide
theorem test_illformed_gam : ¬(Instr.gam 2).WellFormed := by decide
theorem test_illformed_basis : ¬(Instr.basis 1 0 0).WellFormed := by decide
theorem test_illformed_qdc : ¬(Instr.qdc 4).WellFormed := by decide
theorem test_illformed_qscale : ¬(Instr.qscale 8).WellFormed := by decide
theorem test_illformed_qac : ¬(Instr.qac 1 5).WellFormed := by decide
theorem test_illformed_b83_high : ¬(Instr.b83 1 0 0 4).WellFormed := by decide
theorem test_illformed_b83_low : ¬(Instr.b83 0 0 1 4).WellFormed := by decide
theorem test_wellformed_b83 : (Instr.b83 0 2 0 4).WellFormed := by decide

/-! ## The literals of R13, against the decimal fractions the source writes -/

theorem test_literals :
    Arith.ofMag false (Arith.roundRatio (4045 * Arith.unitsPerOne) 100000) = Arith.c0_04045 ∧
    Arith.ofMag false (Arith.roundRatio (1292 * Arith.unitsPerOne) 100) = Arith.c12_92 ∧
    Arith.ofMag false (Arith.roundRatio (55 * Arith.unitsPerOne) 1000) = Arith.c0_055 ∧
    Arith.ofMag false (Arith.roundRatio (1055 * Arith.unitsPerOne) 1000) = Arith.c1_055 ∧
    Arith.ofMag false (Arith.roundRatio (24 * Arith.unitsPerOne) 10) = Arith.c2_4 ∧
    Arith.ofMag false (Arith.roundRatio (31308 * Arith.unitsPerOne) 10000000) = Arith.c0_0031308 ∧
    Arith.ofMag false (Arith.roundRatio (95 * Arith.unitsPerOne) 10) = Arith.c9_5 ∧
    Arith.div Arith.one Arith.c2_4 = Arith.cInv2_4 := by decide +kernel

theorem test_whole_literals :
    Arith.ofNat 255 = Arith.c255 ∧ Arith.ofNat 166 = Arith.c166 ∧ Arith.ofNat 82 = Arith.c82 ∧
    Arith.ofNat 9 = Arith.c9 ∧ Arith.ofNat 18 = Arith.c18 ∧ Arith.ofNat 1 = Arith.one ∧
    Arith.ofNat 2 = Arith.two := by decide +kernel

/-- 1.0 + 0.055 = 1.055 exactly in binary64 (R142). -/
theorem test_add : Arith.add Arith.one Arith.c0_055 = Arith.c1_055 := by decide +kernel

/-! ## The machine the tests run on -/

/-- A machine as a host leaves it: a 1×1 grid, a 1×1 component grid, both buffers known. -/
def idle : State := { State.reset with
  width := 1, height := 1, nx := 1, ny := 1
  comp := Vector.replicate 81 Triplet.zero, hash := Vector.replicate 166 0x20#8 }

/-- The same with a command accepted and not yet complete. -/
def busy (w : Word32) : State := { idle with cmd := w, status := ⟨true, false, false, false, 0⟩ }

/-- What a step left, seen through one projection. -/
def seen {α : Type} (f : State → α) : Host.Outcome State Fault Refusal → Option α
  | .next t => some (f t)
  | .fault _ => none
  | .refused _ => none

/-- A red pixel (255, 0, 0, 255) and NX = 3, NY = 1 (V4). -/
def red : State := { idle with pix := [(0, 255#8), (3, 255#8)], nx := 3 }

/-! ## Results the spec prints, one command each -/

/-- R264: STATUS = 0x00000002 after a NOP. -/
theorem test_nop : seen (fun t => t.status.word) (execNop 0 (busy 0)) = some 0x00000002#32 := by decide +kernel

/-- R146: ARG = 0xFFFFFF80 gives the value of byte 128. -/
theorem test_lin : seen (·.resf) (linCommand Config.default 0 { idle with arg := 0xFFFFFF80#32 }) =
    some 0x3FCBA1511E3E632D#64 := by decide +kernel

/-- V1: the first byte of the POW branch. -/
theorem test_lin_eleven : toLinear Config.default 11 = 0x3F6B6A31B5259C99#64 := by decide +kernel

/-- R147: 0.5 gives 188. -/
theorem test_gam : seen (·.resi) (gamCommand Config.default 0 { idle with argf := 0x3FE0000000000000#64 }) =
    some 188#32 := by decide +kernel

/-- V2: just above the threshold, on the POW branch. -/
theorem test_gam_threshold : toGamma Config.default 0x3F69A5F9236CEC92#64 = 10#8 := by decide +kernel

/-- V4: `BASIS 1, 0` on the red pixel sets COMP[1] = (2.0, +0.0, +0.0). -/
theorem test_basis : seen (fun t => t.slot 1)
    (basisCommand { Config.default with pixExtra := 60 } 0 0 1 red) = some ⟨0x4000000000000000#64, 0, 0⟩ := by
  decide +kernel

/-- V5: COMP[1] of the 2×1 black and white image is the binary64 cosine of the binary64 π/2. -/
theorem test_basis_rounding :
    (basis Config.default [(3, 255#8), (4, 255#8), (5, 255#8), (6, 255#8), (7, 255#8)] 2 1 1 0).g =
      0x3C91A62633145C07#64 := by decide +kernel

/-- R201: COMP[0] = (1.0, +0.0, +0.0) gives 0x00FF0000. -/
theorem test_qdc : seen (·.resi) (qdcCommand Config.default 0
    { idle with nx := 0, ny := 0, comp := idle.comp.set 0 ⟨0x3FF0000000000000#64, 0, 0⟩ }) =
    some 0x00FF0000#32 := by decide +kernel

/-- V11: (NaN, 0.1, -0.2) gives ACTMAX 0.2, q = 32 and MAX = 33/166. -/
theorem test_qscale : scaleSelect [⟨0x7FF8000000000000#64, 0x3FB999999999999A#64, 0xBFC999999999999A#64⟩] =
    ⟨0x3FC999999999999A#64, 32, 0x3FC9721ED7E75347#64⟩ := by decide +kernel

/-- V11: the largest m with q = 0 and the smallest with q = 1. -/
theorem test_qscale_boundary : quantizedScale 0x3F82818ACB90F6BE#64 = 0 ∧
    quantizedScale 0x3F82818ACB90F6BF#64 = 1 := by decide +kernel

/-- V12: (0.125, -0.125, +0.0) under MAX = 0.5 packs to 5158. -/
theorem test_qac : seen (·.resi) (qacCommand Config.default 0 1
    { idle with
      nx := 2, max := 0x3FE0000000000000#64
      comp := idle.comp.set 1 ⟨0x3FC0000000000000#64, 0xBFC0000000000000#64, 0⟩ }) =
    some 5158#32 := by decide +kernel

/-- V12: under MAX = 0.5, +Inf gives digit 18 and -Inf gives digit 0. -/
theorem test_qac_infinite : quantACch Config.default 0x7FF0000000000000#64 0x3FE0000000000000#64 = 18 ∧
    quantACch Config.default 0xFFF0000000000000#64 0x3FE0000000000000#64 = 0 := by decide +kernel

/-- R242: ARG = 16777215 and `B83 4, 2` write "TSUA" at HASH[2..5], and HASH[6] stays. -/
theorem test_b83 : seen (fun t => [t.hashByte 1, t.hashByte 2, t.hashByte 3, t.hashByte 4, t.hashByte 5, t.hashByte 6])
    (execB83 0 2 0 4 { idle with arg := 16777215#32 }) =
    some [0x20#8, 0x54#8, 0x53#8, 0x55#8, 0x41#8, 0x20#8] := by decide +kernel

/-- V13: 0xFFFFFFFF in five digits wraps to "7fd^]". -/
theorem test_b83_wrap : base83 4294967295 5 = [0x37#8, 0x66#8, 0x64#8, 0x5E#8, 0x5D#8] := by decide +kernel

/-- V15: ENCODE of the red pixel gives "2~TI:j|c|c". -/
theorem test_encode : seen (fun t => (List.range 10).map t.hashByte)
    (encodeCommand { Config.default with pixExtra := 60 } 0 red) =
    some [0x32#8, 0x7E#8, 0x54#8, 0x49#8, 0x3A#8, 0x6A#8, 0x7C#8, 0x63#8, 0x7C#8, 0x63#8] := by decide +kernel

/-- V15: its other results. -/
theorem test_encode_registers : seen (fun t => (t.hashlen, t.resi, t.scale, t.max, t.actmax))
    (encodeCommand { Config.default with pixExtra := 60 } 0 red) =
    some (10#8, 10#32, 82#7, 0x3FE0000000000000#64, 0x4000000000000000#64) := by decide +kernel

/-! ## Command errors (V16) -/

theorem test_error_opcode : seen (fun t => t.status.word) (step (busy 0x02000000#32)) = some 0x16#32 := by
  decide +kernel
theorem test_error_reserved : seen (fun t => t.status.word)
    (step { busy 0x20FF0099#32 with nx := 0, ny := 0 }) = some 0x26#32 := by decide +kernel
theorem test_error_ncomp : seen (fun t => t.status.word) (step { busy 0x31000000#32 with ny := 0 }) =
    some 0x36#32 := by decide +kernel
/-- A 2×1 grid does not fit PIX_BYTES = 4. -/
theorem test_error_dim : seen (fun t => t.status.word)
    (encodeCommand Config.default 0 { busy 0x01000000#32 with width := 2 }) = some 0x46#32 := by decide +kernel
theorem test_error_operand : seen (fun t => t.status.word)
    (step { busy 0x32000004#32 with nx := 2, ny := 2 }) = some 0x56#32 := by decide +kernel
theorem test_error_b83 : seen (fun t => t.status.word) (step (busy 0x40009F08#32)) = some 0x56#32 := by
  decide +kernel

/-! ## Host accesses (V17) and programs -/

theorem test_reserved_bits : seen (fun t => t.regValue (regAt 0x010)) (hostWrite ⟨0x010, 4⟩ 0xFFFFFF99#32 idle) =
    some 0x00000099#32 := by decide +kernel
theorem test_reset_max : State.reset.regValue (regAt 0x034) = 0x3FF00000#32 ∧
    State.reset.regValue (regAt 0x030) = 0#32 := by decide +kernel
theorem test_status_write : seen (fun t => (t.status.word, t.irq)) (hostWrite ⟨0x004, 4⟩ 0x02#32
    { idle with ie := true, status := ⟨false, true, true, true, 3⟩ }) = some (0x3C#32, false) := by decide +kernel
theorem test_dropped_write : seen (fun t => (t.cmd, t.status.ovr)) (hostWrite ⟨0x000, 4⟩ 5#32 (busy 0)) =
    some (0#32, true) := by decide +kernel
/-- R81: on a 1×1 grid the last byte the command reads is address 2; address 3 is an A byte, 4 is past the grid. -/
theorem test_pixel_mark :
    [2, 3, 4].map (fun a => seen (·.pixDisturbed)
      (hostPixWrite { Config.default with pixExtra := 60 } a [7#8] (busy 0))) = [some true, some false, some false] ∧
    seen (·.pixDisturbed) (hostPixWrite Config.default 2 [7#8] idle) = some false := by decide +kernel
/-- The expansions of R111. -/
theorem test_assemble : assemble [.command (.b83 0 2 0 4), .wr64 .argf 0x3FE0000000000000#64, .rdhash 1] =
    [.write ⟨0, 4⟩ 0x40000204#32, .wait, .write ⟨0x18, 4⟩ 0#32, .write ⟨0x1C, 4⟩ 0x3FE00000#32,
      .read ⟨0xC04, 4⟩] := by decide +kernel
/-- The word placed by `withFetchWord` is the one the next step runs, as the first command after reset. -/
theorem test_fetch : seen (fun t => (t.status.word, t.hashByte 0))
    (step (State.reset.withFetchWord 32 0x40000001)) = some (0x02#32, 0x30#8) := by decide +kernel

/-! ## Witnesses: for every statement with hypotheses, a state and operands that meet them all -/

/-- `EncodeOfDecodeIsTheWord`. -/
theorem witness_decodes : decode 0x20FF0099#32 = .ok (.basis 0xFF00 9 9) := by decide

/-- `IllegalOpcodesFailWithCodeOne`: the neighbours of the listed opcodes are refused. -/
theorem witness_illegal : (∃ e, decode (busy 0x02000000#32).cmd = .error e) ∧
    (∃ e, decode 0x0F000000#32 = .error e) ∧ (∃ e, decode 0x41000000#32 = .error e) :=
  ⟨⟨_, rfl⟩, ⟨_, rfl⟩, ⟨_, rfl⟩⟩

/-- `StepRunsTheDecodedCommand`: each of the three agendas. -/
theorem witness_step : (busy 0x40000001#32).status.busy = true ∧
    decode (busy 0x40000001#32).cmd = .ok (.b83 0 0 0 1) ∧ (busy 0x40000001#32).agenda = [] ∧
    (∃ s : State, s.status.busy = true ∧ decode s.cmd = .ok (.b83 0 0 0 1) ∧ s.agenda = .complete :: []) ∧
    (∃ s : State, s.status.busy = true ∧ decode s.cmd = .ok (.b83 0 0 0 1) ∧ s.agenda = .wait :: []) :=
  ⟨rfl, by decide, rfl, ⟨{ busy 0x40000001#32 with agenda := [.complete] }, rfl, by decide, rfl⟩,
    ⟨{ busy 0x40000001#32 with agenda := [.wait] }, rfl, by decide, rfl⟩⟩

/-- `StepRunsTheDecodedCommand`: an illegal opcode under each of the three agendas, and as a word to place. -/
theorem witness_step_illegal : ∀ l ∈ [[], [Event.complete], [.wait]], ∃ s : State, s.status.busy = true ∧
    decode s.cmd = .error (.illegalOpcode 0x02#8) ∧ s.agenda = l :=
  have h : decode 0x02000000#32 = .error (.illegalOpcode 0x02#8) := by decide
  fun l _ => ⟨{ busy 0x02000000#32 with agenda := l }, rfl, h, rfl⟩

/-- `StepRunsTheDecodedCommand`: each agenda of an idle block, and the accesses. -/
theorem witness_step_idle : ∀ e ∈ [Event.complete, .wait, .read ⟨0x020, 4⟩, .write ⟨0x014, 4⟩ 7#32],
    ∃ s : State, s.status.busy = false ∧ s.agenda = e :: [] ∧ ∃ t, step s = .next t := by
  simp only [List.mem_cons, List.not_mem_nil, or_false]
  rintro e (rfl | rfl | rfl | rfl) <;> exact ⟨{ idle with agenda := [_] }, rfl, rfl, _, rfl⟩

/-- `StepRunsTheDecodedCommand`: an idle block with nothing on the agenda. -/
theorem witness_step_nothing : idle.status.busy = false ∧ idle.agenda = [] := ⟨rfl, rfl⟩

/-- `OperandWritesStoreTheFields`: the first and the last read-only register. -/
theorem witness_read_only : ∀ o ∈ [0x020, 0x040], o % 4 = 0 ∧ 0x020 ≤ o ∧ o ≤ 0x040 := by decide

/-- `CommandWritesAreAcceptedOrDropped`, `OperandWritesStoreTheFields`, `ReadsHaveNoSideEffect` and
`WritesWhileBusy`: an idle state and a busy one. -/
theorem witness_idle_busy : idle.status.busy = false ∧ (busy 0#32).status.busy = true := ⟨rfl, rfl⟩

/-- `WritesWhileBusy`: each class at the ends of its ranges. -/
theorem witness_offsets_busy :
    (∀ o ∈ [0x000, 0x00C, 0x010, 0x014, 0x018, 0x01C, 0x400, 0xB94, 0x004, 0x008, 0x020, 0x3FC, 0xB98, 0xFFC],
      o % 4 = 0 ∧ o < 4096) ∧
    (∀ o ∈ [0x400, 0xB94], 0x400 ≤ o ∧ o < 0xB98) ∧
    (∀ o ∈ [0x020, 0x3FC, 0xB98, 0xFFC], (0x020 ≤ o ∧ o < 0x400) ∨ 0xB98 ≤ o) := by decide

/-- `OperandsAreStableWhileBusy`: a write, a fill and a read while BUSY. -/
theorem witness_operands_stable : ∃ e₁ e₂ e₃ : Event, ∀ e ∈ [e₁, e₂, e₃],
    e ≠ .reset ∧ e ≠ .complete ∧ e ≠ .wait ∧
      ∃ t, step { busy 0x10000000#32 with agenda := [e] } = .next t := by
  refine ⟨.write ⟨0x014, 4⟩ 7#32, .pixWrite 0 [1#8], .read ⟨0x020, 4⟩, ?_⟩
  have fill (s : State) : hostPixWrite Config.hw 0 [1#8] s = .next (s.fillPixels 0 [1#8]) :=
    if_pos (by simp [Config.pixBytes])
  simp only [List.mem_cons, List.not_mem_nil, or_false]
  rintro e (rfl | rfl | rfl)
  · exact ⟨by decide, by decide, by decide, _, rfl⟩
  · exact ⟨by decide, by decide, by decide, _, fill _⟩
  · exact ⟨by decide, by decide, by decide, _, rfl⟩

/-- `ReadsHaveNoSideEffect`: both kinds of offset at the ends of their ranges. -/
theorem witness_offsets_read :
    (∀ o ∈ [0x020, 0x040, 0x400, 0xB94, 0xC00, 0xCA4], o % 4 = 0 ∧ o < 4096 ∧
      ((0x020 ≤ o ∧ o ≤ 0x040) ∨ (0x400 ≤ o ∧ o < 0xB98) ∨ (0xC00 ≤ o ∧ o < 0xCA8))) ∧
    (∀ o ∈ [0x000, 0x01C, 0x044, 0x3FC, 0xB98, 0xBFC, 0xCA8, 0xFFC], o % 4 = 0 ∧ o < 4096 ∧
      ¬((0x020 ≤ o ∧ o ≤ 0x040) ∨ (0x400 ≤ o ∧ o < 0xB98) ∨ (0xC00 ≤ o ∧ o < 0xCA8))) := by decide

/-- `ReservedSpaceReadsZero`: the first and last word of each reserved range. -/
theorem witness_offsets_reserved : ∀ o ∈ [0x044, 0x3FC, 0xB98, 0xBFC, 0xCA8, 0xFFC], o % 4 = 0 ∧
    ((0x044 ≤ o ∧ o < 0x400) ∨ (0xB98 ≤ o ∧ o < 0xC00) ∨ (0xCA8 ≤ o ∧ o < 0x1000)) := by decide

/-- `OnlyAlignedWordAccessesHaveMeaning`: an access that is served and one for each ground of refusal. -/
theorem witness_accesses : hostRead ⟨0xFFC, 4⟩ idle ≠ .refused .registerAccess ∧
    hostRead ⟨0, 2⟩ idle = .refused .registerAccess ∧ hostRead ⟨2, 4⟩ idle = .refused .registerAccess ∧
    hostRead ⟨4096, 4⟩ idle = .refused .registerAccess :=
  ⟨nofun, rfl, rfl, rfl⟩

/-- `CompWindowWordsAreHalvesOfEntries` and `HashWindowWordsAreHashBytes`: the last words of both windows. -/
theorem witness_windows : idle.status.busy = false ∧ (80 < 81 ∧ 2 < 3 ∧ 1 < 2) ∧
    0x400 + 24 * 80 + 8 * 2 + 4 * 1 = 0xB94 ∧ (41 < 42 ∧ 1 < 4 ∧ 4 * 41 + 1 < 166) ∧
    (41 < 42 ∧ 2 < 4 ∧ 166 ≤ 4 * 41 + 2) ∧ 0xC00 + 4 * 41 = 0xCA4 := by
  refine ⟨rfl, ?_⟩; decide

/-- `InterruptLineFollowsCompletion`: each of its next states is reached. -/
theorem witness_interrupt : (∃ t, complete { busy 0#32 with ie := true } = .next t ∧ t.irq = true) ∧
    (∃ t, hostWrite ⟨0x008, 4⟩ 1#32 idle = .next t) ∧
    ((2#32).getLsbD 1 = true ∧ ∃ t, hostWrite ⟨0x004, 4⟩ 2#32 idle = .next t) ∧
    (idle.status.busy = false ∧ ∃ t, hostWrite ⟨0x000, 4⟩ 0#32 idle = .next t) :=
  ⟨⟨_, rfl, rfl⟩, ⟨_, rfl⟩, ⟨by decide, _, rfl⟩, ⟨rfl, _, rfl⟩⟩

/-- `ResetEventAbandonsTheCommand`: a reset while a command is held. -/
theorem witness_reset : ∃ s : State, s.status.busy = true ∧ s.agenda = .reset :: [] :=
  ⟨{ busy 0#32 with agenda := [.reset] }, rfl, rfl⟩

/-- `PixelFillsWriteOnlyTheirBytes`: one whole pixel, which every PIX has room for. -/
theorem witness_fill : ∃ s : State, Memory.wf s.pix ∧ s.agenda = .pixWrite 0 [1, 0, 3, 4] :: [] ∧
    0 + [1#8, 0, 3, 4].length ≤ Config.hw.pixBytes :=
  ⟨{ red with agenda := [.pixWrite 0 [1, 0, 3, 4]] }, by decide, rfl, by simp [Config.pixBytes]⟩

/-- `PixelFillsWriteOnlyTheirBytes`: while BUSY on a 1×1 grid, a fill of its last R, G or B byte and one of its A byte
fit every PIX, and only the first is a byte the command reads; address 4 is the first past the grid. -/
theorem witness_fill_mark : ∀ a ∈ [2, 3], (busy 0#32).status.busy = true ∧ Memory.wf (busy 0#32).pix ∧
    a + [7#8].length ≤ Config.hw.pixBytes ∧ (a < 4 * 1 * 1) ∧ (a % 4 ≠ 3 ↔ a = 2) ∧ ¬(4 < 4 * 1 * 1) := by
  simp only [List.mem_cons, List.not_mem_nil, or_false]
  rintro a (rfl | rfl) <;> exact ⟨rfl, ⟨.nil, nofun⟩, by simp [Config.pixBytes], by decide, by decide, by decide⟩

/-- `PixelFillsWriteOnlyTheirBytes`: on a grid of no width the first byte past the grid is address 0, in every PIX. -/
theorem witness_fill_past : ∃ s : State, s.status.busy = true ∧ Memory.wf s.pix ∧
    s.agenda = .pixWrite 0 [7] :: [] ∧ 0 + [7#8].length ≤ Config.hw.pixBytes ∧
    ¬(0 < 4 * s.width.toNat * s.height.toNat) :=
  ⟨{ busy 0#32 with width := 0, agenda := [.pixWrite 0 [7]] }, rfl, ⟨.nil, nofun⟩, rfl,
    by simp [Config.pixBytes], by decide +kernel⟩

/-- `FillsBeyondPixFault`: one byte at the first address that does not exist. -/
theorem witness_fill_beyond : ∃ s : State, s.agenda = .pixWrite Config.hw.pixBytes [1] :: [] ∧
    Config.hw.pixBytes < Config.hw.pixBytes + [1#8].length :=
  ⟨{ red with agenda := [.pixWrite Config.hw.pixBytes [1]] }, rfl, by simp⟩

/-- `NopWritesOnlyStatus` and the other one-format statements: a set reserved bit. -/
theorem witness_reserved_bit : (0x800000#24 : BitVec 24) ≠ 0 := by decide

/-- A state whose grid is 9×9 components over one pixel: the largest case of every bound. -/
def full : State := { idle with nx := 9, ny := 9 }

/-- One pixel fits every PIX, since PIX_BYTES is at least 4 (R5). -/
theorem one_pixel_fits : 4 * full.width.toNat * full.height.toNat ≤ Config.hw.pixBytes := by
  have h : 4 * full.width.toNat * full.height.toNat = 4 := by decide +kernel
  simp [h, Config.pixBytes]

/-- `BasisWritesOneSlot`, `EncodeWritesTheWholeHash`, `UnitCommandsHoldTheValuesEncodeWrites` and
`QscaleSelectsTheScale` at the largest grid of components and its last component. -/
theorem witness_full : 1 ≤ full.nx.toNat ∧ full.nx.toNat ≤ 9 ∧ 1 ≤ full.ny.toNat ∧ full.ny.toNat ≤ 9 ∧
    1 ≤ full.width.toNat ∧ 1 ≤ full.height.toNat ∧
    4 * full.width.toNat * full.height.toNat ≤ Config.hw.pixBytes ∧
    (8#4).toNat < full.nx.toNat ∧ (8#4).toNat < full.ny.toNat ∧ full.pixDisturbed = false ∧
    1 < full.nx.toNat * full.ny.toNat := by
  refine ⟨?_, ?_, ?_, ?_, ?_, ?_, one_pixel_fits, ?_, ?_, ?_, ?_⟩ <;> decide +kernel

/-- `QscaleSelectsTheScale`: the case of no AC term. -/
theorem witness_one_component : idle.nx.toNat * idle.ny.toNat = 1 := by decide +kernel

/-- `QacPacksOneAcTerm`: the first and the last AC slot of the largest grid. -/
theorem witness_qac : (1 ≤ (1#7).toNat ∧ (1#7).toNat < full.nx.toNat * full.ny.toNat) ∧
    (1 ≤ (80#7).toNat ∧ (80#7).toNat < full.nx.toNat * full.ny.toNat) := by decide +kernel

/-- The failing cases of BASIS, ENCODE, QSCALE and QAC: a component count of 0 and of 10, a width of 0, an index
and a slot just outside the grid, and slot 0. -/
theorem witness_failures :
    (¬(1 ≤ (0#4).toNat) ∧ ¬((10#4).toNat ≤ 9)) ∧ ¬(1 ≤ { full with width := 0 }.width.toNat) ∧
    ¬((9#4).toNat < full.nx.toNat) ∧ ¬((81#7).toNat < full.nx.toNat * full.ny.toNat) ∧ ¬(1 ≤ (0#7).toNat) := by
  decide +kernel

/-- `B83WritesTheDigitsOfArg`: no digit, nine digits, and eight that reach past the buffer. -/
theorem witness_b83_failures : ¬(1 ≤ (0#4).toNat) ∧ ¬((9#4).toNat ≤ 8) ∧ ¬((159#8).toNat + (8#4).toNat ≤ 166) := by
  decide

/-- `B83WritesTheDigitsOfArg`: eight digits, and one, at the end of the buffer. -/
theorem witness_b83 : (1 ≤ (8#4).toNat ∧ (8#4).toNat ≤ 8 ∧ (158#8).toNat + (8#4).toNat ≤ 166) ∧
    (1 ≤ (1#4).toNat ∧ (1#4).toNat ≤ 8 ∧ (165#8).toNat + (1#4).toNat ≤ 166) := by decide

/-- The checks of BASIS 8, 8 and of ENCODE pass on the largest grid, disturbed or not. -/
theorem full_passes (d : Bool) :
    firstError (checksOf (.basis 0 8 8) { full with pixDisturbed := d }) = none ∧
    firstError (checksOf (.encode 0) { full with pixDisturbed := d }) = none := by
  have hd : State.dimOk Config.hw { full with pixDisturbed := d } = true :=
    decide_eq_true ⟨by cases d <;> decide +kernel, by cases d <;> decide +kernel, one_pixel_fits⟩
  have hn : State.ncompOk { full with pixDisturbed := d } = true := by cases d <;> decide +kernel
  have hb : State.basisOperandOk { full with pixDisturbed := d } 8#4 8#4 = true := by
    cases d <;> decide +kernel
  constructor <;> rw [firstError_eq_none] <;> simp only [checksOf, List.forall_mem_cons]
  · exact ⟨rfl, hn, hd, hb, nofun⟩
  · exact ⟨rfl, hn, hd, nofun⟩

/-- `DisturbedPixelsLeaveTheRestDefined`: BASIS and ENCODE on a disturbed grid, both with success. -/
theorem witness_disturbed : ∀ c ∈ [Instr.basis 0 8 8, Instr.encode 0], ∃ s t u : State,
    s.pixDisturbed = true ∧ exec c s = .next t ∧ exec c { s with pixDisturbed := false } = .next u ∧
    t.status.ecode = 0 := by
  simp only [List.mem_cons, List.not_mem_nil, or_false]
  rintro c (rfl | rfl)
  · exact ⟨{ full with pixDisturbed := true }, _, _, rfl, exec_ok (full_passes true).1,
      exec_ok (full_passes false).1, rfl⟩
  · exact ⟨{ full with pixDisturbed := true }, _, _, rfl, exec_ok (full_passes true).2,
      exec_ok (full_passes false).2, rfl⟩

/-- `CommandErrorsChangeOnlyStatus`: a command that fails. -/
theorem witness_error : ∃ t, complete (busy 0x40000000#32) = .next t ∧ t.status.ecode ≠ 0 :=
  ⟨_, rfl, by decide⟩

/-- `OnlyTheNamedCommandsWriteEachResult`, `HashBytesComeFromTheAlphabet` and
`AlphaAndOutsideBytesAreIgnored`: a command that changes a result. -/
theorem witness_writes : idle.pixDisturbed = false ∧
    ∃ t, exec (.b83 0 2 0 4) { idle with arg := 5 } = .next t ∧ t.hashByte 5 = 0x35#8 :=
  ⟨rfl, _, rfl, by decide +kernel⟩

/-- `EncodeDependsOnNoHistory` and `HashLengthIsFixedByTheGrid`: two states that differ in a register, and the
successful ENCODE of both. -/
theorem witness_history : ∃ s₁ s₂ t₁ t₂ : State, s₁ ≠ s₂ ∧ s₁.width = s₂.width ∧ s₁.height = s₂.height ∧
    s₁.nx = s₂.nx ∧ s₁.ny = s₂.ny ∧ s₁.pix = s₂.pix ∧ s₁.pixDisturbed = false ∧ s₂.pixDisturbed = false ∧
    exec (.encode 0) s₁ = .next t₁ ∧ exec (.encode 0) s₂ = .next t₂ ∧ t₁.status.ecode = 0 := by
  have h : firstError (checksOf (.encode 0) { full with resi := 1 }) = none := (full_passes false).2
  refine ⟨full, { full with resi := 1 }, _, _, fun e => absurd (congrArg State.resi e) (by decide), rfl, rfl,
    rfl, rfl, rfl, rfl, rfl, exec_ok (full_passes false).2, exec_ok h, rfl⟩

/-- `AlphaAndOutsideBytesAreIgnored`: two memories that differ in an A byte and outside the 1×1 grid. -/
theorem witness_alpha : red.pix ≠ [(0, 255#8), (9, 7#8)] ∧
    (∀ a, a < 4 * (red.width.toNat * red.height.toNat) → a % 4 ≠ 3 →
      Memory.read [(0, 255#8), (9, 7#8)] a = Memory.read red.pix a) ∧
    ∃ t, exec (.nop 0) red = .next t := by
  have h : red.width.toNat * red.height.toNat = 1 := by decide +kernel
  refine ⟨by decide, ?_, _, rfl⟩
  rw [h]; decide

/-- `FillsOfUnreadBytesAreHarmless`: a fill of the A byte, and one outside the grid. -/
theorem witness_unread :
    (∀ k, k < [7#8].length → (3 + k) % 4 = 3 ∨ 4 * (idle.width.toNat * idle.height.toNat) ≤ 3 + k) ∧
    (∀ k, k < [7#8, 8#8].length → (4 + k) % 4 = 3 ∨ 4 * (idle.width.toNat * idle.height.toNat) ≤ 4 + k) ∧
    ∃ t, complete (busy 0#32) = .next t := by
  have h : idle.width.toNat * idle.height.toNat = 1 := by decide +kernel
  refine ⟨?_, ?_, _, rfl⟩ <;> rw [h] <;> decide

/-- `MaxStaysLegal`: a legal MAX, and a step from it. -/
theorem witness_max : MaxLegal idle.max ∧ idle.pixDisturbed = false ∧ ∃ t, step (busy 0#32) = .next t :=
  ⟨.inl rfl, rfl, _, rfl⟩

/-- `EveryStepKeepsTheStateConsistent`: a consistent busy state and its step. -/
theorem witness_consistent : (busy 0#32).Consistent ∧ ∃ t, step (busy 0#32) = .next t :=
  ⟨{  pixWf := ⟨.nil, nofun⟩, pixInRange := nofun, errIffEcode := by decide +kernel
      ecodeLegal := by decide +kernel, busyNotDone := fun _ => rfl, markOnlyBusy := fun _ => rfl
      hashlenLegal := .inl rfl }, _, rfl⟩

/-- `LegalHostAccessesNeverStopTheMachine` and `LegalAgendasAreWorkedOff`: one event of each kind. -/
theorem witness_legal : ∃ s : State, s.agenda.length = 6 ∧ ∀ e ∈ s.agenda, e.legal Config.hw = true :=
  ⟨{ idle with agenda := [.pixWrite 0 [1, 2, 3, 4], .write ⟨0, 4⟩ 0x01000000#32, .complete, .wait,
      .read ⟨0xC00, 4⟩, .reset] }, rfl, by
    simp [Event.legal, Access.legal, Config.pixBytes]⟩

/-- `ArithmeticRoundsToNearestEven`, `FloorAndTruncateAreExact`: the largest finite number, and a divisor. -/
theorem witness_finite : Arith.isFinite 0x7FEFFFFFFFFFFFFF#64 = true ∧ Arith.isFinite 0x8000000000000001#64 = true ∧
    Arith.value 0x3FF0000000000000#64 ≠ 0 := by
  refine ⟨by decide, by decide, ?_⟩
  have h : Arith.signedUnits 0x3FF0000000000000#64 ≠ 0 := by decide +kernel
  have u : (Arith.unitsPerOne : ℚ) ≠ 0 := by
    have : Arith.unitsPerOne ≠ 0 := by decide +kernel
    exact_mod_cast this
  exact div_ne_zero (by exact_mod_cast h) u

/-- A COS and a POW with every named property of R141 and R171. -/
def plain : Config where
  cos := fun _ => Arith.one
  pow := fun x _ => x
  pixExtra := 0
  regBase := 0

theorem one_in_range : Arith.le (Arith.neg Arith.one) Arith.one = true ∧ Arith.le Arith.one Arith.one = true := by
  decide +kernel

/-- The properties that `ToLinearBranchesAndEnds`, `ToGammaBranchesAndCorners`, `BasisIsTheWeightedSumOfThePixels`,
`BasisResultsAreFinite`, `BlackImageHash` and `SpecialOperandsOfQuantAc` assume hold together. -/
theorem witness_properties : plain.CosZero ∧ plain.CosRange ∧ plain.PowOne ∧ plain.PowZero ∧ plain.PowRange ∧
    plain.PowInf ∧ plain.PowNaN :=
  ⟨rfl, fun _ _ => one_in_range, fun _ _ => rfl, fun _ _ => rfl, fun _ _ h₀ h₁ _ => ⟨h₀, h₁⟩, rfl,
    fun _ _ h => h⟩

/-- `ToLinearBranchesAndEnds`: the two sides of the threshold. -/
theorem witness_bytes : (10#8).toNat ≤ 10 ∧ 11 ≤ (11#8).toNat := by decide

/-- `ToGammaBranchesAndCorners`: its classes of data. -/
theorem witness_gamma : Arith.isNaN 0x7FF8000000000000#64 = true ∧ Arith.le 0xFFF0000000000000#64 0 = true ∧
    Arith.le 0x8000000000000000#64 0 = true ∧ Arith.le 0x3FF0000000000000#64 0x7FF0000000000000#64 = true := by
  decide +kernel

/-- `ToGammaBranchesAndCorners`: the ends of its two branches, and −0.0. -/
theorem witness_gamma_branches : (Arith.le 0 0x8000000000000000#64 = true ∧
    Arith.le 0x8000000000000000#64 0x3F69A5C37387B719#64 = true) ∧ (Arith.le 0 0x3F69A5C37387B719#64 = true ∧
    Arith.le 0x3F69A5C37387B719#64 0x3F69A5C37387B719#64 = true) ∧
    (Arith.lt 0x3F69A5C37387B719#64 0x3F69A5C37387B71A#64 = true ∧
    Arith.le 0x3F69A5C37387B71A#64 0x3FF0000000000000#64 = true) ∧
    (Arith.lt 0x3F69A5C37387B719#64 0x3FF0000000000000#64 = true ∧
    Arith.le 0x3FF0000000000000#64 0x3FF0000000000000#64 = true) := by decide +kernel

/-- `BasisIsTheWeightedSumOfThePixels`: POW gives no NaN for a byte. -/
theorem witness_bytes_numbers : ∀ b : Byte, Arith.isNaN (toLinear plain b) = false := by
  have h : ∀ n : Fin 256, Arith.isNaN (toLinear plain (BitVec.ofFin n)) = false := by decide +kernel
  exact fun b => h b.toFin

/-- `BasisIsTheWeightedSumOfThePixels` and `BasisResultsAreFinite`: the largest grid and its last pixel. -/
theorem witness_grid : (8 ≤ 8 ∧ 0 < 65536 ∧ 1 ≤ 65535 ∧ 65535 < 65536) ∧ 65534 < 65535 := by decide

/-- `BlackImageHash`: an image of A bytes only. -/
theorem witness_black : ∀ a, a < 4 * (2 * 1) → a % 4 ≠ 3 →
    Memory.read [(3, 255#8), (7, 255#8)] a = 0 := by decide

/-- `ActualMaxIsTheLargestMagnitude`: a channel that is a number beside one that is not. -/
theorem witness_channels : ∃ t ∈ [(⟨0x7FF8000000000000#64, 0x3FB999999999999A#64, 0⟩ : Triplet)],
    ∃ v ∈ t.channels, Arith.isNaN v = false :=
  ⟨_, .head _, 0x3FB999999999999A#64, by decide, by decide⟩

/-- `SpecialOperandsOfQuantAc`: a MAX, and an operand of each class. -/
theorem witness_special : Arith.isFinite 0x3FE0000000000000#64 = true ∧ Arith.lt 0 0x3FE0000000000000#64 = true ∧
    Arith.mag 0x8000000000000000#64 = 0 ∧ Arith.isNaN 0xFFF8000000000000#64 = true := by decide +kernel

/-- `Base83DecodesBack`: the largest value of four digits. -/
theorem witness_digits : 83 ^ 4 - 1 < 83 ^ 4 := by decide

/-- `SizeFlagDecodesBack`: the smallest and the largest grid. -/
theorem witness_size : (1 ≤ 1 ∧ 1 ≤ 9) ∧ (1 ≤ 9 ∧ 9 ≤ 9) := by decide

end Sys2Proof.Tests
end

section
/-! SUPPORT. A host access of the window, said once: what an aligned read returns and an aligned write does when the
block lets it through and when it does not (R71, R78 to R80), and which bits each lane of a register word is. -/

namespace Sys2Proof.Machine

/-! ## Aligned accesses -/

theorem Access.legal_word {o : Nat} (ha : o % 4 = 0) (ho : o < 4096) : Access.legal ⟨o, 4⟩ = true :=
  decide_eq_true ⟨rfl, ha, ho⟩

theorem hostRead_aligned (s : State) {o : Nat} (ha : o % 4 = 0) (ho : o < 4096) :
    hostRead ⟨o, 4⟩ s = .next (s.readReg (regAt o)) :=
  if_pos (Access.legal_word ha ho)

theorem hostWrite_aligned (s : State) (v : Word32) {o : Nat} (ha : o % 4 = 0) (ho : o < 4096) :
    hostWrite ⟨o, 4⟩ v s = .next (s.writeReg (regAt o) v) :=
  if_pos (Access.legal_word ha ho)

/-- A read outside the case of R80 returns what the register holds. -/
theorem State.readReg_defined {s : State} {r : Reg} (h : s.status.busy = false ∨ r.isResult = false) :
    s.readReg r = { s with readData := s.regValue r } := by
  rcases State.readReg_cases s r with ⟨hb, hr, -⟩ | ⟨-, h'⟩
  · simp [hb, hr] at h
  · exact h'

/-- A read in the case of R80 returns a draw. -/
theorem State.readReg_busy_result {s : State} {r : Reg} (hb : s.status.busy = true) (hr : r.isResult = true) :
    s.readReg r = { s with readData := (s.draw 0).setWidth 32, draws := s.draws + 1 } :=
  if_pos (by rw [hb, hr]; rfl)

/-- A write outside the case of R39 is performed. -/
theorem State.writeReg_performed {s : State} {r : Reg} (v : Word32)
    (h : s.status.busy = false ∨ r.isOperand = false) : s.writeReg r v = s.storeReg r v := by
  rcases State.writeReg_cases s r v with ⟨hb, hr, -⟩ | ⟨-, h'⟩
  · simp [hb, hr] at h
  · exact h'

/-- A write in the case of R39 is dropped and sets OVR. -/
theorem State.writeReg_dropped {s : State} {r : Reg} (v : Word32) (hb : s.status.busy = true)
    (hr : r.isOperand = true) : s.writeReg r v = { s with status := s.status.overrun } :=
  if_pos (by rw [hb, hr]; rfl)

/-! ## The map at the reserved offsets -/

/-- The three reserved ranges of the window (R32, R33). -/
theorem regAt_reserved {o : Nat}
    (h : (0x044 ≤ o ∧ o < 0x400) ∨ (0xB98 ≤ o ∧ o < 0xC00) ∨ (0xCA8 ≤ o ∧ o < 0x1000)) :
    regAt o = .reserved := by
  unfold regAt
  repeat rw [if_neg (by omega)]

/-! ## Fields of a register word -/

/-- A flag in the lowest bit of a word. -/
theorem getLsbD_append_flag {n : Nat} (x : BitVec n) (b : Bool) : (x ++ BitVec.ofBool b).getLsbD 0 = b := by
  rw [BitVec.getLsbD_append, if_pos Nat.zero_lt_one]
  simp

/-- The bits above a flag in the lowest bit. -/
theorem getLsbD_succ_append_flag {n : Nat} (x : BitVec n) (b : Bool) (i : Nat) :
    (x ++ BitVec.ofBool b).getLsbD (i + 1) = x.getLsbD i := by
  rw [BitVec.getLsbD_append, if_neg (by omega), Nat.add_sub_cancel]

/-- Bits 0 to 3 of the STATUS word are its flags (R35). -/
theorem Status.word_flags (t : Status) : t.word.getLsbD 0 = t.busy ∧ t.word.getLsbD 1 = t.done ∧
    t.word.getLsbD 2 = t.err ∧ t.word.getLsbD 3 = t.ovr := by
  unfold Status.word
  refine ⟨?_, ?_, ?_, ?_⟩
  · exact getLsbD_append_flag _ _
  · rw [getLsbD_succ_append_flag]
    exact getLsbD_append_flag _ _
  · iterate 2 rw [getLsbD_succ_append_flag]
    exact getLsbD_append_flag _ _
  · iterate 3 rw [getLsbD_succ_append_flag]
    exact getLsbD_append_flag _ _

/-- Bits 7..4 of the STATUS word are ECODE (R35). -/
theorem Status.word_ecode (t : Status) : t.word.extractLsb' 4 4 = t.ecode := by
  unfold Status.word
  iterate 4 rw [BitVec.extractLsb'_append_eq_of_le (by decide)]
  exact BitVec.extractLsb'_append_eq_right

/-- Bits 31..8 of the STATUS word read 0 (R35). -/
theorem Status.word_reserved (t : Status) : t.word.extractLsb' 8 24 = 0 := by
  unfold Status.word
  iterate 4 rw [BitVec.extractLsb'_append_eq_of_le (by decide)]
  exact BitVec.extractLsb'_append_eq_left

/-- A byte of a word made of four bytes, lane 0 lowest (R75). -/
theorem extractLsb'_four_bytes (f : Nat → Byte) {b : Nat} (hb : b < 4) :
    (f 3 ++ f 2 ++ f 1 ++ f 0).extractLsb' (8 * b) 8 = f b := by
  match b with
  | 0 => exact BitVec.extractLsb'_append_eq_right
  | 1 =>
    rw [BitVec.extractLsb'_append_eq_of_le (by decide)]
    exact BitVec.extractLsb'_append_eq_right
  | 2 =>
    iterate 2 rw [BitVec.extractLsb'_append_eq_of_le (by decide)]
    exact BitVec.extractLsb'_append_eq_right
  | 3 =>
    iterate 2 rw [BitVec.extractLsb'_append_eq_of_le (by decide)]
    exact BitVec.extractLsb'_append_eq_left

/-- Lane b of word w of the hash window is hash byte 4w + b (R56). -/
theorem State.regValue_hash_lane (s : State) (w : Nat) {b : Nat} (hb : b < 4) :
    (s.regValue (.hash w)).extractLsb' (8 * b) 8 = s.hashByte (4 * w + b) :=
  extractLsb'_four_bytes (fun k => s.hashByte (4 * w + k)) hb

/-! ## Words of the component window -/

/-- Word h of channel c of slot n is bits 32h+31..32h (R54, R75). -/
theorem State.regValue_comp (s : State) (n c : Nat) {h : Nat} (hh : h < 2) :
    s.regValue (.comp n c h) = ((s.slot n).channel c).extractLsb' (32 * h) 32 := by
  match h with
  | 0 => rfl
  | 1 => rfl

/-- The channels after a write of one word: the one written has that half replaced, the others stay (R54). -/
theorem State.channel_storeReg_comp (s : State) {n c n' c' : Nat} (h : Nat) (v : Word32) (hn : n < 81)
    (hc : c < 3) (hc' : c' < 3) :
    ((s.storeReg (.comp n c h) v).slot n').channel c' =
      if n' = n ∧ c' = c then
        if h = 0 then setLowWord ((s.slot n).channel c) v else setHighWord ((s.slot n).channel c) v
      else (s.slot n').channel c' := by
  simp only [State.storeReg, State.slot_setSlot]
  by_cases hnn : n = n'
  · subst hnn
    rw [if_pos ⟨rfl, hn⟩]
    by_cases hcc : c' = c
    · rw [hcc, Triplet.channel_setChannel_same, if_pos (show n = n ∧ c = c from ⟨rfl, rfl⟩)]
    · rw [Triplet.channel_setChannel_other _ _ hc hc' hcc, if_neg (fun hk => hcc hk.2)]
  · rw [if_neg (fun hk => hnn hk.1), if_neg (fun hk => hnn hk.1.symm)]

/-- A written word of the component window reads back (R54). -/
theorem State.regValue_storeReg_comp_same (s : State) {n c : Nat} (h : Nat) (v : Word32) (hn : n < 81)
    (hc : c < 3) : (s.storeReg (.comp n c h) v).regValue (.comp n c h) = v := by
  simp only [State.regValue, State.channel_storeReg_comp s h v hn hc hc, and_self, if_true]
  split
  · exact lowWord_setLowWord _ _
  · exact highWord_setHighWord _ _

/-- The other words of the component window stay as they are (R54). -/
theorem State.regValue_storeReg_comp_other (s : State) {n c h n' c' h' : Nat} (v : Word32) (hn : n < 81)
    (hc : c < 3) (hc' : c' < 3) (hh : h < 2) (hh' : h' < 2) (hne : (n', c', h') ≠ (n, c, h)) :
    (s.storeReg (.comp n c h) v).regValue (.comp n' c' h') = s.regValue (.comp n' c' h') := by
  simp only [State.regValue, State.channel_storeReg_comp s h v hn hc hc']
  by_cases hk : n' = n ∧ c' = c
  · obtain ⟨rfl, rfl⟩ := hk
    simp only [and_self, if_true]
    have hhne : h' ≠ h := fun e => hne (by rw [e])
    obtain ⟨rfl, rfl⟩ | ⟨rfl, rfl⟩ : (h = 0 ∧ h' = 1) ∨ (h = 1 ∧ h' = 0) := by omega
    · exact highWord_setLowWord _ _
    · exact lowWord_setHighWord _ _
  · rw [if_neg hk]

end Sys2Proof.Machine
end

section
/-! SUPPORT. The statements about the register window and its state (10_state.md), settled. -/

namespace Sys2Proof.Machine

/-- Settles O12: a reserved offset is `Reg.reserved`, which is neither a result nor an operand register, and the
reserved bits are the zeros each word is padded with. -/
theorem reservedSpaceReadsZero : Obligations.ReservedSpaceReadsZero := by
  refine ⟨fun s o v ha hr => ?_, fun s => ⟨?_, ?_, ?_, ?_, ?_⟩⟩
  · have ho : o < 4096 := by omega
    rw [hostRead_aligned s ha ho, hostWrite_aligned s v ha ho, regAt_reserved hr,
      State.readReg_defined (.inr rfl), State.writeReg_performed v (.inr rfl)]
    exact ⟨rfl, rfl⟩
  · exact BitVec.extractLsb'_append_eq_left
  · refine (BitVec.extractLsb'_append_eq_of_le (by decide)).trans ?_
    exact BitVec.extractLsb'_append_eq_left
  · exact s.status.word_reserved
  · exact BitVec.extractLsb'_append_eq_left
  · exact BitVec.extractLsb'_append_eq_left

/-- Settles O15: the word at each offset is `Reg.comp n c h`, and a store to it replaces one half of one channel. -/
theorem compWindowWordsAreHalvesOfEntries : Obligations.CompWindowWordsAreHalvesOfEntries := by
  refine ⟨fun s n c h hn hc hh => ?_, fun s n c h v hidle hn hc hh => ?_⟩
  · rw [hostRead_aligned s (by omega) (by omega), regAt_comp hn hc hh, ← s.regValue_comp n c hh]
    refine ⟨rfl, fun hidle => ?_, fun hbusy => ?_⟩
    · rw [State.readReg_defined (.inl hidle)]
    · exact ⟨_, _, congrArg _ (State.readReg_busy_result hbusy rfl)⟩
  · refine ⟨s.storeReg (.comp n c h) v, ?_, ?_, fun n' c' h' hn' hc' hh' hne => ?_, rfl⟩
    · rw [hostWrite_aligned s v (by omega) (by omega), regAt_comp hn hc hh,
        State.writeReg_performed v (.inl hidle)]
    · rw [regAt_comp hn hc hh, s.regValue_storeReg_comp_same h v hn hc]
    · rw [regAt_comp hn' hc' hh', s.regValue_storeReg_comp_other v hn hc hc' hh hh' hne]

/-- Settles O16: the word at each offset is `Reg.hash w`, whose lanes are the hash bytes, those above byte 165
reading 0. -/
theorem hashWindowWordsAreHashBytes : Obligations.HashWindowWordsAreHashBytes := by
  intro s w b v hw hb
  rw [hostRead_aligned s (by omega) (by omega), hostWrite_aligned s v (by omega) (by omega), regAt_hash hw,
    s.regValue_hash_lane w hb]
  refine ⟨fun h => s.hashByte_eq h, fun h => s.hashByte_absent h, fun hidle => ?_, fun hbusy => ?_, ?_⟩
  · rw [State.readReg_defined (.inl hidle)]
  · exact ⟨_, _, congrArg _ (State.readReg_busy_result hbusy rfl)⟩
  · rw [State.writeReg_performed v (.inr rfl)]
    rfl

/-- Settles O7: CMD is an operand register, so a write is performed when idle and dropped while busy, and it is no
result register, so a read is defined in every state. -/
theorem commandWritesAreAcceptedOrDropped : Obligations.CommandWritesAreAcceptedOrDropped := by
  intro s v
  have hreg : regAt 0x000 = .cmd := rfl
  rw [hostRead_aligned s (by decide) (by decide), hostWrite_aligned s v (by decide) (by decide), hreg]
  refine ⟨fun hidle => ?_, fun hbusy => ?_, ?_, rfl⟩
  · rw [State.writeReg_performed v (.inl hidle)]
    rfl
  · rw [State.writeReg_dropped v hbusy rfl]
    rfl
  · rw [State.readReg_defined (.inr rfl)]
    rfl

/-- Settles O8: the fields of the STATUS word, and STATUS is no operand register, so a write is performed in every
state. -/
theorem statusBitsAndStatusWrites : Obligations.StatusBitsAndStatusWrites := by
  intro s v
  obtain ⟨hbusy, hdone, herr, hovr⟩ := s.status.word_flags
  refine ⟨hbusy, hdone, herr, hovr, s.status.word_ecode, s.status.word_reserved, ?_, rfl⟩
  have hreg : regAt 0x004 = .status := rfl
  rw [hostWrite_aligned s v (by decide) (by decide), hreg, State.writeReg_performed v (.inr rfl)]
  rfl

/-- Settles O18: each value stands in `State.resetAt`, and irq is deasserted because IE is. -/
theorem resetStateHoldsTheStatedValues : Obligations.ResetStateHoldsTheStatedValues :=
  ⟨rfl, rfl, rfl, rfl, rfl, rfl, rfl, rfl, rfl, rfl, rfl, rfl, rfl, rfl, rfl, rfl, rfl⟩

end Sys2Proof.Machine
end

section
/-! SUPPORT. Which class of R79 a word of the window falls in, and when an access has a meaning (R76). -/

namespace Sys2Proof.Machine

/-! ## Accesses with a meaning -/

/-- The grounds on which an access has no meaning (R71, R76). -/
theorem Access.legal_eq_false_iff (a : Access) :
    a.legal = false ↔ a.size ≠ 4 ∨ a.offset % 4 ≠ 0 ∨ 4096 ≤ a.offset := by
  unfold Access.legal
  rw [decide_eq_false_iff_not]
  omega

theorem hostRead_refused_iff (a : Access) (s : State) :
    hostRead a s = .refused .registerAccess ↔ a.legal = false := by
  unfold hostRead
  cases a.legal <;> simp

theorem hostWrite_refused_iff (a : Access) (v : Word32) (s : State) :
    hostWrite a v s = .refused .registerAccess ↔ a.legal = false := by
  unfold hostWrite
  cases a.legal <;> simp

/-! ## The classes of offsets -/

/-- Every word of the component window is a `Reg.comp` (R54). -/
theorem regAt_comp_window {o : Nat} (ha : o % 4 = 0) (h : 0x400 ≤ o ∧ o < 0xB98) :
    ∃ n c k, regAt o = .comp n c k := by
  have ho : o = 0x400 + 24 * ((o - 0x400) / 24) + 8 * ((o - 0x400) % 24 / 8) + 4 * ((o - 0x400) % 8 / 4) := by
    omega
  exact ⟨_, _, _, (congrArg regAt ho).trans (regAt_comp (by omega) (by omega) (by omega))⟩

/-- Every word of the hash window is a `Reg.hash` (R56). -/
theorem regAt_hash_window {o : Nat} (ha : o % 4 = 0) (h : 0xC00 ≤ o ∧ o < 0xCA8) : ∃ w, regAt o = .hash w := by
  have ho : o = 0xC00 + 4 * ((o - 0xC00) / 4) := by omega
  exact ⟨_, (congrArg regAt ho).trans (regAt_hash (by omega))⟩

/-- The offsets whose writes are dropped while BUSY hold operand registers (R39, R79). -/
theorem regAt_isOperand {o : Nat} (ha : o % 4 = 0)
    (h : o ∈ [0x000, 0x00C, 0x010, 0x014, 0x018, 0x01C] ∨ (0x400 ≤ o ∧ o < 0xB98)) :
    (regAt o).isOperand = true := by
  rcases h with hreg | hcomp
  · have registers : ∀ o ∈ [0x000, 0x00C, 0x010, 0x014, 0x018, 0x01C], (regAt o).isOperand = true := by decide
    exact registers o hreg
  · obtain ⟨n, c, k, hr⟩ := regAt_comp_window ha hcomp
    rw [hr]
    rfl

/-- The registers no host write reaches: the results that are not operands too, and the reserved words (R33, R79). -/
def Reg.IgnoresWrites (r : Reg) : Prop := r = .reserved ∨ (r.isResult = true ∧ r.isOperand = false)

/-- A register that ignores writes does so in every state. -/
theorem State.writeReg_ignored (s : State) {r : Reg} (v : Word32) (h : r.IgnoresWrites) : s.writeReg r v = s := by
  rcases h with rfl | ⟨hres, hop⟩
  · exact State.writeReg_performed v (.inr rfl)
  · rw [State.writeReg_performed v (.inr hop)]
    revert hres hop
    cases r <;> simp [Reg.isResult, Reg.isOperand, State.storeReg]

/-- RESI to HASHLEN and the reserved words up to the component window, and every word above it (R32). -/
theorem regAt_ignoresWrites {o : Nat} (ha : o % 4 = 0) (ho : o < 4096)
    (h : (0x020 ≤ o ∧ o < 0x400) ∨ 0xB98 ≤ o) : (regAt o).IgnoresWrites := by
  have ranges : (0x020 ≤ o ∧ o < 0x044) ∨ (0xC00 ≤ o ∧ o < 0xCA8) ∨
      ((0x044 ≤ o ∧ o < 0x400) ∨ (0xB98 ≤ o ∧ o < 0xC00) ∨ (0xCA8 ≤ o ∧ o < 0x1000)) := by omega
  rcases ranges with ⟨hlo, hhi⟩ | hhash | hres
  · have registers : ∀ o < 0x044, 0x020 ≤ o → o % 4 = 0 →
        (regAt o).isResult = true ∧ (regAt o).isOperand = false := by decide
    exact .inr (registers o hhi hlo ha)
  · obtain ⟨w, hr⟩ := regAt_hash_window ha hhash
    rw [hr]
    exact .inr ⟨rfl, rfl⟩
  · exact .inl (regAt_reserved hres)

end Sys2Proof.Machine
end

section
/-! SUPPORT. The statements about host accesses of the register window (20_memory.md), settled. -/

namespace Sys2Proof.Machine

/-- Settles O13: a read and a write are refused exactly when the access is not legal. -/
theorem onlyAlignedWordAccessesHaveMeaning : Obligations.OnlyAlignedWordAccessesHaveMeaning := by
  intro s a v
  rw [hostRead_refused_iff, hostWrite_refused_iff, Access.legal_eq_false_iff]
  exact ⟨Iff.rfl, Iff.rfl⟩

/-- Settles O9: an operand register drops the write, STATUS and CTRL are no operand registers and so perform it, and
the registers at the other offsets ignore it. -/
theorem writesWhileBusy : Obligations.WritesWhileBusy := by
  intro s o v hbusy ha ho
  rw [hostWrite_aligned s v ha ho]
  refine ⟨fun hop => ?_, ?_, ?_, fun hign => ?_⟩
  · rw [State.writeReg_dropped v hbusy (regAt_isOperand ha hop)]
    rfl
  · rintro rfl
    have hreg : regAt 0x004 = .status := rfl
    rw [hreg, State.writeReg_performed v (.inr rfl)]
    rfl
  · rintro rfl
    have hreg : regAt 0x008 = .ctrl := rfl
    rw [hreg, State.writeReg_performed v (.inr rfl)]
    rfl
  · rw [s.writeReg_ignored v (regAt_ignoresWrites ha ho hign)]

end Sys2Proof.Machine
end

section
/-! SUPPORT. What the decoder answers, and what a word it refuses leaves behind once accepted (R105, R106, R304). -/

namespace Sys2Proof

/-- The nine opcodes of the map (R105). -/
def mappedOpcodes : List (BitVec 8) := [0x00#8, 0x01#8, 0x10#8, 0x11#8, 0x20#8, 0x30#8, 0x31#8, 0x32#8, 0x40#8]

theorem Instr.opcode_mem_mappedOpcodes (i : Instr) : i.opcode ∈ mappedOpcodes := by
  cases i <;> simp [Instr.opcode, mappedOpcodes]

/-- Everything the decoder can answer: a command of the word's opcode, or a refusal that names an opcode outside the
map (R105, R106). -/
theorem decode_cases (w : Word32) :
    (∃ i, decode w = .ok i ∧ opcodeField w = i.opcode) ∨
    (decode w = .error (.illegalOpcode (opcodeField w)) ∧ opcodeField w ∉ mappedOpcodes) := by
  unfold decode
  dsimp only
  split_ifs with h₁ h₂ h₃ h₄ h₅ h₆ h₇ h₈ h₉
  · exact .inl ⟨_, rfl, h₁⟩
  · exact .inl ⟨_, rfl, h₂⟩
  · exact .inl ⟨_, rfl, h₃⟩
  · exact .inl ⟨_, rfl, h₄⟩
  · exact .inl ⟨_, rfl, h₅⟩
  · exact .inl ⟨_, rfl, h₆⟩
  · exact .inl ⟨_, rfl, h₇⟩
  · exact .inl ⟨_, rfl, h₈⟩
  · exact .inl ⟨_, rfl, h₉⟩
  · exact .inr ⟨rfl, by simp only [mappedOpcodes, List.mem_cons, List.not_mem_nil]; tauto⟩

/-- The decoder refuses exactly the words whose opcode is outside the map (R106). -/
theorem decode_error_iff (w : Word32) : (∃ e, decode w = .error e) ↔ opcodeField w ∉ mappedOpcodes := by
  rcases decode_cases w with ⟨i, hok, hop⟩ | ⟨herr, hout⟩
  · simp [hok, hop, i.opcode_mem_mappedOpcodes]
  · exact ⟨fun _ => hout, fun _ => ⟨_, herr⟩⟩

namespace Machine

/-- A command error is the failed state its code stands for (R301, R308). -/
theorem State.commandError_eq_failedWith (s : State) (e : ErrorCode) : s.commandError e = s.failedWith e.code := rfl

/-- The Complete step of a word the decoder refuses (R304). -/
theorem complete_of_decode_error {s : State} {e : DecodeError} (h : decode s.cmd = .error e) :
    complete s = .next (s.commandError .illegalOpcode) := by
  obtain ⟨opc⟩ := e
  rw [complete, h]

end Machine

end Sys2Proof
end

section
/-! SUPPORT. What a successful ENCODE says of the component grid, and which hash bytes it keeps (R122, R263). -/

namespace Sys2Proof.Machine

/-- A command that ends with ECODE 0 passed all its checks and made its writes. -/
theorem exec_succeeded {i : Instr} {s t : State} (h : exec i s = .next t) (hcode : t.status.ecode = 0) :
    firstError (checksOf i s) = none ∧ t = (effectOf i s).completed := by
  rcases exec_cases i s with ⟨e, -, herr⟩ | ⟨hpass, hok⟩
  · obtain rfl : s.commandError e = t := Host.Outcome.next.inj (herr.symm.trans h)
    exact absurd hcode e.code_ne_zero
  · exact ⟨hpass, Host.Outcome.next.inj (h.symm.trans hok)⟩

/-- A grid that passes the check of NCOMP has at most 81 components (R303). -/
theorem State.components_le {s : State} (h : s.ncompOk = true) : s.components ≤ 81 := by
  obtain ⟨-, hnx, -, hny⟩ := of_decide_eq_true h
  exact Nat.mul_le_mul hnx hny

/-- The hash lengths of up to 81 components (R122). -/
theorem hashLength_range {n : Nat} (h : n ≤ 81) : 6 ≤ hashLength n ∧ hashLength n ≤ 166 := by
  unfold hashLength
  omega

/-- ENCODE writes as many hash bytes as the grid fixes, disturbed or not (R81, R122). -/
theorem encodeEffect_hash (cfg : Config) (s : State) : ∃ bytes : List Byte,
    bytes.length = hashLength s.components ∧ (encodeEffect cfg s).hash = splice s.hash 0 bytes := by
  cases hd : s.pixDisturbed
  · obtain ⟨-, hhash, -⟩ := encodeEffect_undisturbed (cfg := cfg) hd
    refine ⟨_, ?_, hhash⟩
    rw [length_hashString, length_components, hashLength, State.components]
  · obtain ⟨-, hhash⟩ := encodeEffect_disturbed (cfg := cfg) hd
    refine ⟨_, ?_, hhash⟩
    rw [List.length_map, List.length_range]

/-- A write of hash bytes keeps the bytes behind it. -/
theorem State.hashByte_writeHash_behind (s : State) {off : Nat} {bytes : List Byte} {p : Nat}
    (h : off + bytes.length ≤ p) : (s.writeHash off bytes).hashByte p = s.hashByte p := by
  by_cases hp : p < 166
  · rw [s.hashByte_writeHash off bytes p hp, if_pos (by omega), List.getD_eq_default _ _ (by omega)]
  · rw [State.hashByte_absent _ (by omega), State.hashByte_absent _ (by omega)]

/-- ENCODE keeps the hash bytes behind the string (R263). -/
theorem encodeEffect_hashByte_behind (cfg : Config) (s : State) {p : Nat} (h : hashLength s.components ≤ p) :
    (encodeEffect cfg s).hashByte p = s.hashByte p := by
  obtain ⟨bytes, hlen, hhash⟩ := encodeEffect_hash cfg s
  rw [State.hashByte_of_hash (hhash.trans (s.writeHash_hash 0 bytes).symm), s.hashByte_writeHash_behind (by omega)]

end Sys2Proof.Machine
end

section
/-! SUPPORT. The statements about illegal opcodes and the length of the hash, settled (R106, R122). -/

namespace Sys2Proof.Machine

/-- Settles O4: the decoder refuses by the opcode alone, the opcodes outside the map are counted, and the Complete
step of a refused word is the command error ILLEGAL_OPCODE. -/
theorem illegalOpcodesFailWithCodeOne : Obligations.IllegalOpcodesFailWithCodeOne := by
  refine ⟨decode_error_iff, by decide +kernel, ?_⟩
  rintro s ⟨e, he⟩
  rw [complete_of_decode_error he, s.commandError_eq_failedWith]
  rfl

/-- Settles O60: HASHLEN holds the grid's hash length, which fits its byte because NCOMP passed its check, and the
bytes behind the string are kept. -/
theorem hashLengthIsFixedByTheGrid : Obligations.HashLengthIsFixedByTheGrid := by
  intro s t hexec hcode
  obtain ⟨hpass, rfl⟩ := exec_succeeded hexec hcode
  have hgrid : s.ncompOk = true := firstError_eq_none.mp hpass (s.ncompOk, .badNcomp) (by simp [checksOf])
  obtain ⟨hmin, hmax⟩ := hashLength_range (State.components_le hgrid)
  have hlen : ((effectOf (.encode 0) s).completed.hashlen).toNat = hashLength s.components := by
    rw [State.completed_hashlen, effectOf, encodeEffect_hashlen, BitVec.toNat_ofNat]
    exact Nat.mod_eq_of_lt (by omega)
  rw [hlen]
  refine ⟨rfl, hmin, hmax, fun p hp => ?_⟩
  exact (State.hashByte_of_hash (State.completed_hash _) p).trans (encodeEffect_hashByte_behind Config.hw s hp)

end Sys2Proof.Machine
end

section
/-! SUPPORT. Facts the commands share: the reserved-bit check, which stands first in every command's checks, and the
low byte of a word (R107, R302). -/

namespace Sys2Proof.Machine

/-- A command whose reserved-bit check fails ends with RESERVED_FIELD, whatever its later checks say (R302). -/
theorem exec_reserved_bit_set {i : Instr} {s : State} {ok : Bool} {later : List (Bool × ErrorCode)}
    (hchecks : checksOf i s = (ok, .reservedField) :: later) (hfails : ok = false) :
    exec i s = .next (s.failedWith 2) := by
  subst hfails
  have hfirst : firstError (checksOf i s) = some .reservedField := congrArg firstError hchecks
  exact exec_err hfirst

/-- The low byte of a word is its value modulo 256. -/
theorem extractLsb'_low_byte (w : Word32) : w.extractLsb' 0 8 = BitVec.ofNat 8 (w.toNat % 256) := by
  apply BitVec.eq_of_toNat_eq
  simp only [BitVec.extractLsb'_toNat, BitVec.toNat_ofNat, Nat.shiftRight_zero]
  omega

end Sys2Proof.Machine
end

section
/-! SUPPORT. The statements about the Color Space Converter (40_color.md), settled. -/

namespace Sys2Proof.Machine

/-- Settles O23: with its reserved bits clear LIN has no check to fail, and its one write is RESF. -/
theorem linWritesResfFromTheLowByteOfArg : Obligations.LinWritesResfFromTheLowByteOfArg := by
  refine ⟨rfl, fun s rsv => ⟨?_, fun hrsv => exec_reserved_bit_set rfl (beq_false_of_ne hrsv)⟩⟩
  rw [← extractLsb'_low_byte]
  exact exec_ok (i := .lin 0) rfl

/-- Settles O24: with its reserved bits clear GAM has no check to fail, and its one write is RESI, whose value is the
byte's because zero-extension keeps it. -/
theorem gamWritesResiFromArgf : Obligations.GamWritesResiFromArgf := by
  refine ⟨rfl, fun s rsv => ⟨⟨_, exec_ok (i := .gam 0) rfl, ?_, rfl⟩,
    fun hrsv => exec_reserved_bit_set rfl (beq_false_of_ne hrsv)⟩⟩
  exact BitVec.toNat_setWidth_of_le (by decide)

end Sys2Proof.Machine
end

section
/-! SUPPORT. The command word of BASIS, the slot it names, and what its checks answer (R100, R176, R302). -/

namespace Sys2Proof

/-- The value of two bit vectors side by side. -/
theorem toNat_append_eq_mul_add {n m : Nat} (x : BitVec n) (y : BitVec m) :
    (x ++ y).toNat = x.toNat * 2 ^ m + y.toNat := by
  rw [BitVec.toNat_append, ← Nat.shiftLeft_add_eq_or_of_lt y.isLt, Nat.shiftLeft_eq]

/-- The word of `BASIS I, J`: I in bits 3..0, J in bits 7..4 and the opcode above them (R102, R105). -/
theorem encode_basis_toNat (j i : BitVec 4) :
    (encode (.basis 0 j i)).toNat = 0x20000000 + j.toNat * 16 + i.toNat := by
  simp only [encode, Instr.opcode, Instr.operandField, toNat_append_eq_mul_add, BitVec.ofNat_eq_ofNat,
    BitVec.toNat_ofNat]
  omega

namespace Machine

/-! The checks of a command as conditions on the fields they read (R303, R306, R307). -/

theorem State.ncompOk_iff (s : State) :
    s.ncompOk = true ↔ 1 ≤ s.nx.toNat ∧ s.nx.toNat ≤ 9 ∧ 1 ≤ s.ny.toNat ∧ s.ny.toNat ≤ 9 := decide_eq_true_iff

theorem State.dimOk_iff (cfg : Config) (s : State) : s.dimOk cfg = true ↔
    1 ≤ s.width.toNat ∧ 1 ≤ s.height.toNat ∧ 4 * s.width.toNat * s.height.toNat ≤ cfg.pixBytes := decide_eq_true_iff

theorem State.basisOperandOk_iff (s : State) (j i : BitVec 4) :
    s.basisOperandOk j i = true ↔ i.toNat < s.nx.toNat ∧ j.toNat < s.ny.toNat := decide_eq_true_iff

/-- A completion with the mark of R81 clear changes STATUS alone. -/
theorem State.completed_undisturbed {s : State} (h : s.pixDisturbed = false) :
    s.completed = { s with status := s.status.succeeded } := by
  rw [State.completed, ← h]

/-- A component inside a legal grid has a slot (R53, R176). -/
theorem State.slotOf_lt {s : State} {j i : BitVec 4} (hncomp : s.ncompOk = true)
    (hoperand : s.basisOperandOk j i = true) : s.slotOf i.toNat j.toNat < 81 := by
  obtain ⟨-, hnx, -, hny⟩ := s.ncompOk_iff.mp hncomp
  obtain ⟨hi, hj⟩ := (s.basisOperandOk_iff j i).mp hoperand
  have hrows : j.toNat * s.nx.toNat ≤ 8 * 9 := Nat.mul_le_mul (by omega) hnx
  unfold State.slotOf
  omega

/-- With its reserved bits clear BASIS fails by the first of the checks BAD_NCOMP, BAD_DIM and BAD_OPERAND (R302). -/
theorem firstError_basis (s : State) (j i : BitVec 4) :
    firstError (checksOf (.basis 0 j i) s) =
      if s.ncompOk then
        if s.dimOk Config.hw then if s.basisOperandOk j i then none else some .badOperand
        else some .badDim
      else some .badNcomp := rfl

/-- A BASIS that passes its checks on an undisturbed grid writes its component to its slot (R177). -/
theorem exec_basis_ok {s : State} {j i : BitVec 4} (hncomp : s.ncompOk = true) (hdim : s.dimOk Config.hw = true)
    (hoperand : s.basisOperandOk j i = true) (hmark : s.pixDisturbed = false) :
    exec (.basis 0 j i) s =
      .next (s.setSlot (s.slotOf i.toNat j.toNat) (s.basis Config.hw i.toNat j.toNat)).completed := by
  have hpass : firstError (checksOf (.basis 0 j i) s) = none := by
    rw [firstError_basis, if_pos hncomp, if_pos hdim, if_pos hoperand]
  rw [exec_ok hpass, effectOf, basisEffect_undisturbed hmark]

end Machine

end Sys2Proof
end

section
/-! SUPPORT. The statement about the command BASIS (41_basis.md), settled. -/

namespace Sys2Proof.Machine

/-- Settles O25: a BASIS that passes its checks writes the slot (I, J) names, which lies in COMP, and else the first
check to fail gives the error code. -/
theorem basisWritesOneSlot : Obligations.BasisWritesOneSlot := by
  refine ⟨encode_basis_toNat, fun s rsv j i => ?_⟩
  simp only [← State.ncompOk_iff, ← State.dimOk_iff, ← State.basisOperandOk_iff]
  refine ⟨fun hncomp hdim hoperand hmark => ?_, fun hrsv => exec_reserved_bit_set rfl (beq_false_of_ne hrsv),
    fun hncomp => exec_err (e := .badNcomp) ?_, fun hncomp hdim => exec_err (e := .badDim) ?_,
    fun hncomp hdim hoperand => exec_err (e := .badOperand) ?_⟩
  · have hslot : s.slotOf i.toNat j.toNat < 81 := State.slotOf_lt hncomp hoperand
    refine ⟨_, exec_basis_ok hncomp hdim hoperand hmark, ?_, fun n _ hne => ?_,
      State.completed_undisturbed (s := s.setSlot _ _) hmark⟩
    · rw [State.slot_of_comp (State.completed_comp _), State.slot_setSlot]
      exact if_pos ⟨rfl, hslot⟩
    · rw [State.slot_of_comp (State.completed_comp _), State.slot_setSlot]
      exact if_neg fun hsame => hne hsame.1.symm
  · rw [firstError_basis, if_neg hncomp]
  · rw [firstError_basis, if_pos hncomp, if_neg hdim]
  · rw [firstError_basis, if_pos hncomp, if_pos hdim, if_neg hoperand]

end Sys2Proof.Machine
end

section
/-! SUPPORT. The ranges of the quantizer's whole numbers, and what ScaleSelect gives for the AC slots. The conversion to
a natural is monotone, so a value clamped before it stays within the clamp's upper bound (R9, R200, R210, R220,
R221). -/

namespace Sys2Proof

namespace Arith

/-- The conversion to a natural keeps the order of the data, a negative datum counting as 0 (R9). -/
theorem toNat_le_toNat {a b : F64} (h : order a ≤ order b) : toNat a ≤ toNat b := by
  unfold order at h
  unfold toNat
  cases hsa : sign a <;> cases hsb : sign b <;> simp only [hsa, hsb, if_true, Bool.false_eq_true, if_false] at h ⊢
  · have hmag : mag a ≤ mag b := by omega
    exact Nat.div_le_div_right (unitsOfMag_strictMono.monotone hmag)
  · have hmag : mag a = 0 := by omega
    simp [units, hmag, unitsOfMag_zero]
  · exact Nat.zero_le _
  · exact Nat.le_refl _

theorem toNat_zero : toNat zero = 0 := by decide +kernel

/-- A datum clamped from +0.0 up converts to a natural within the upper bound, a NaN too (R9). -/
theorem toNat_fclamp_zero_le (a : F64) {hi : F64} (hhi : isNaN hi = false) :
    toNat (fclamp a zero hi) ≤ toNat hi := by
  unfold fclamp
  split_ifs with hlow hhigh
  · rw [toNat_zero]
    exact Nat.zero_le _
  · exact Nat.le_refl _
  · have hnan : isNaN a = false := (Bool.or_eq_false_iff.mp (Bool.eq_false_iff.mpr hlow)).1
    have hle : order a ≤ order hi := not_lt.mp fun hgt => hhigh (lt_iff.mpr ⟨hhi, hnan, hgt⟩)
    exact toNat_le_toNat hle

theorem toNat_c82 : toNat c82 = 82 := by decide +kernel

theorem toNat_c18 : toNat c18 = 18 := by decide +kernel

end Arith

namespace Machine

open Sys2Proof.Arith

/-- `QuantDC` packs the three gamma bytes, R highest (R200). -/
theorem quantDC_toNat (cfg : Config) (t : Triplet) : (quantDC cfg t).toNat =
    (toGamma cfg t.r).toNat * 65536 + (toGamma cfg t.g).toNat * 256 + (toGamma cfg t.b).toNat := by
  simp only [quantDC, toNat_append_eq_mul_add]
  omega

/-- `quantized_scale` lies in [0, 82] (R210). -/
theorem quantizedScale_le (m : F64) : quantizedScale m ≤ 82 := by
  rw [← toNat_c82]
  exact toNat_fclamp_zero_le _ (by decide)

/-- A digit of an AC channel lies in [0, 18] (R220). -/
theorem quantACch_le (cfg : Config) (v maximum : F64) : quantACch cfg v maximum ≤ 18 := by
  rw [← toNat_c18]
  exact toNat_fclamp_zero_le _ (by decide)

/-- Three digits in base 19 stay below 19³ (R221). -/
theorem quantAC_le (cfg : Config) (t : Triplet) (maximum : F64) : quantAC cfg t maximum ≤ 6858 := by
  have hr := quantACch_le cfg t.r maximum
  have hg := quantACch_le cfg t.g maximum
  have hb := quantACch_le cfg t.b maximum
  unfold quantAC
  omega

/-- QAC's packed digits fit RESI (R222). -/
theorem toNat_ofNat_quantAC (cfg : Config) (t : Triplet) (maximum : F64) :
    (BitVec.ofNat 32 (quantAC cfg t maximum)).toNat = quantAC cfg t maximum := by
  have hpacked := quantAC_le cfg t maximum
  rw [BitVec.toNat_ofNat, Nat.mod_eq_of_lt (by omega)]

/-- The AC terms are the components after the first (R210). -/
theorem State.length_acSlots (s : State) : s.acSlots.length = s.components - 1 := by simp [State.acSlots]

/-- `ScaleSelect` on a grid of one component, which has no AC term (R211). -/
theorem scaleSelect_acSlots_of_eq_one {s : State} (h : s.components = 1) :
    scaleSelect s.acSlots = ⟨zero, 0, one⟩ := by
  have hnone : s.acSlots = [] := List.length_eq_zero_iff.mp (by rw [s.length_acSlots, h])
  rw [hnone]
  rfl

/-- `ScaleSelect` on a grid of more components (R210). -/
theorem scaleSelect_acSlots_of_one_lt {s : State} (h : 1 < s.components) : scaleSelect s.acSlots =
    ⟨actualMax s.acSlots, quantizedScale (actualMax s.acSlots),
      maximumOf (quantizedScale (actualMax s.acSlots))⟩ := by
  have hsome : s.acSlots ≠ [] := List.ne_nil_of_length_pos (by rw [s.length_acSlots]; omega)
  rw [scaleSelect, if_neg (by rwa [List.isEmpty_iff])]

end Machine

end Sys2Proof
end

section
/-! SUPPORT. The command word of QAC, and what the checks of QSCALE and QAC answer (R103, R302, R303, R307). -/

namespace Sys2Proof

/-- The word of `QAC K`: K in bits 6..0 and the opcode above the reserved bits (R103, R105). -/
theorem encode_qac_toNat (k : BitVec 7) : (encode (.qac 0 k)).toNat = 0x32000000 + k.toNat := by
  simp only [encode, Instr.opcode, Instr.operandField, toNat_append_eq_mul_add, BitVec.ofNat_eq_ofNat,
    BitVec.toNat_ofNat]
  omega

namespace Machine

theorem State.qacOperandOk_iff (s : State) (k : BitVec 7) :
    s.qacOperandOk k = true ↔ 1 ≤ k.toNat ∧ k.toNat < s.nx.toNat * s.ny.toNat := decide_eq_true_iff

/-- With its reserved bits clear QSCALE can fail by BAD_NCOMP alone (R302). -/
theorem firstError_qscale (s : State) :
    firstError (checksOf (.qscale 0) s) = if s.ncompOk then none else some .badNcomp := rfl

/-- With its reserved bits clear QAC fails by the first of the checks BAD_NCOMP and BAD_OPERAND (R302). -/
theorem firstError_qac (s : State) (k : BitVec 7) :
    firstError (checksOf (.qac 0 k) s) =
      if s.ncompOk then if s.qacOperandOk k then none else some .badOperand else some .badNcomp := rfl

end Machine

end Sys2Proof
end

section
/-! SUPPORT. The statements about the Quantizer (42_quantize.md), settled. -/

namespace Sys2Proof.Machine

/-- Settles O26: with its reserved bits clear QDC has no check to fail, and its one write is RESI, whose value is that
of the packed bytes because zero-extension keeps it. -/
theorem qdcPacksTheDcTerm : Obligations.QdcPacksTheDcTerm := by
  refine ⟨rfl, fun s rsv => ⟨⟨_, exec_ok (i := .qdc 0) rfl, ?_, rfl⟩,
    fun hrsv => exec_reserved_bit_set rfl (beq_false_of_ne hrsv)⟩⟩
  rw [← quantDC_toNat]
  exact BitVec.toNat_setWidth_of_le (by decide)

/-- Settles O27: past its checks QSCALE writes what ScaleSelect gives for the AC slots, of which there are none exactly
when the grid has one component; q fits SCALE and RESI because it is at most 82. -/
theorem qscaleSelectsTheScale : Obligations.QscaleSelectsTheScale := by
  refine ⟨rfl, fun s rsv => ?_⟩
  simp only [← State.ncompOk_iff]
  refine ⟨fun hncomp => ⟨_, exec_ok (i := .qscale 0) ?_, fun hone => ?_, fun hmany => ?_, rfl⟩,
    fun hrsv => exec_reserved_bit_set rfl (beq_false_of_ne hrsv), fun hncomp => exec_err (e := .badNcomp) ?_⟩
  · rw [firstError_qscale, if_pos hncomp]
  · have hselect := scaleSelect_acSlots_of_eq_one hone
    simp [effectOf, hselect, Arith.zero, Arith.one]
  · have hselect := scaleSelect_acSlots_of_one_lt hmany
    have hq := quantizedScale_le (actualMax s.acSlots)
    simp only [effectOf, State.completed_actmax, State.completed_scale, State.completed_max, State.completed_resi,
      qscaleEffect_actmax, qscaleEffect_scale, qscaleEffect_max, qscaleEffect_resi, hselect, BitVec.toNat_ofNat]
    exact ⟨rfl, hq, Nat.mod_eq_of_lt (by omega), Nat.mod_eq_of_lt (by omega), rfl⟩
  · rw [firstError_qscale, if_neg hncomp]

/-- Settles O28: past its checks QAC writes the three packed digits to RESI, which holds them because they are at most
6858, and else the first check to fail gives the error code. -/
theorem qacPacksOneAcTerm : Obligations.QacPacksOneAcTerm := by
  refine ⟨encode_qac_toNat, fun s rsv k => ?_⟩
  simp only [← State.ncompOk_iff, ← State.qacOperandOk_iff]
  refine ⟨fun hncomp hoperand => ⟨_, exec_ok (i := .qac 0 k) ?_, ?_, ?_, rfl⟩,
    fun hrsv => exec_reserved_bit_set rfl (beq_false_of_ne hrsv), fun hncomp => exec_err (e := .badNcomp) ?_,
    fun hncomp hoperand => exec_err (e := .badOperand) ?_⟩
  · rw [firstError_qac, if_pos hncomp, if_pos hoperand]
  · exact toNat_ofNat_quantAC Config.hw (s.slot k.toNat) s.max
  · exact (toNat_ofNat_quantAC Config.hw (s.slot k.toNat) s.max).trans_le (quantAC_le _ _ _)
  · rw [firstError_qac, if_neg hncomp]
  · rw [firstError_qac, if_pos hncomp, if_neg hoperand]

end Sys2Proof.Machine
end

section
/-! SUPPORT. The base-83 encoder read back: a string's value is the residue of what was written, so a value in range
comes back and a larger one wraps (R241, R243, R244). -/

namespace Sys2Proof.Machine

/-- The value of a string of symbols: their alphabet indices read in base 83, most significant first (R243). -/
def base83Value (bytes : List Byte) : Nat := bytes.foldl (fun acc b => acc * 83 + alphabet.idxOf b) 0

@[simp] theorem base83Value_nil : base83Value [] = 0 := rfl

@[simp] theorem base83Value_concat (bytes : List Byte) (b : Byte) :
    base83Value (bytes ++ [b]) = base83Value bytes * 83 + alphabet.idxOf b := by
  simp only [base83Value, List.foldl_append, List.foldl_cons, List.foldl_nil]

/-- Reading back gives what was written, modulo the number of strings of that length. -/
theorem base83Value_base83 (v n : Nat) : base83Value (base83 v n) = v % 83 ^ n := by
  induction n generalizing v with
  | zero => rw [pow_zero, Nat.mod_one]; rfl
  | succ n ih =>
    have hlast : alphabet.idxOf (digitChar (v % 83)) = v % 83 := idxOf_digitChar _ (Nat.mod_lt _ (by decide))
    rw [base83_succ, base83Value_concat, ih, hlast, pow_succ', Nat.mod_mul]
    ring

/-- A value in range is read back as it was written (R243). -/
theorem base83Value_base83_of_lt {v n : Nat} (h : v < 83 ^ n) : base83Value (base83 v n) = v :=
  (base83Value_base83 v n).trans (Nat.mod_eq_of_lt h)

/-- The string depends on the residue of the value alone (R241). -/
theorem base83_mod (v n : Nat) : base83 (v % 83 ^ n) n = base83 v n := by
  induction n generalizing v with
  | zero => rfl
  | succ n ih =>
    have habove : v % 83 ^ (n + 1) / 83 = v / 83 % 83 ^ n := by rw [pow_succ', Nat.mod_mul_right_div_self]
    have hlast : v % 83 ^ (n + 1) % 83 = v % 83 := Nat.mod_mod_of_dvd v (Dvd.intro_left _ (pow_succ 83 n).symm)
    rw [base83_succ, base83_succ, habove, hlast, ih]

theorem base83Digit_zero (n k : Nat) : base83Digit 0 n k = 0 := by rw [base83Digit, Nat.zero_div, Nat.zero_mod]

/-- Every digit of 0 is the symbol of index 0 (R244). -/
theorem base83_zero (n : Nat) : base83 0 n = List.replicate n (digitChar 0) := by
  simp only [base83, base83Digit_zero, List.map_const', List.length_range]

end Sys2Proof.Machine
end

section
/-! SUPPORT. The command B83: its word, what its checks answer, and the bytes its write reaches (R104, R242, R302,
R307). -/

namespace Sys2Proof

/-- The word of `B83 LEN, OFF`: LEN in bits 3..0, OFF in bits 15..8 and the opcode above them (R104, R105). -/
theorem encode_b83_toNat (off : BitVec 8) (len : BitVec 4) :
    (encode (.b83 0 off 0 len)).toNat = 0x40000000 + off.toNat * 256 + len.toNat := by
  simp only [encode, Instr.opcode, Instr.operandField, toNat_append_eq_mul_add, BitVec.ofNat_eq_ofNat,
    BitVec.toNat_ofNat]
  omega

namespace Machine

theorem b83OperandOk_iff (off : BitVec 8) (len : BitVec 4) : b83OperandOk off len = true ↔
    1 ≤ len.toNat ∧ len.toNat ≤ 8 ∧ off.toNat + len.toNat ≤ 166 := decide_eq_true_iff

/-- With its reserved bits clear B83 can fail by BAD_OPERAND alone (R302). -/
theorem firstError_b83 (s : State) (off : BitVec 8) (len : BitVec 4) :
    firstError (checksOf (.b83 0 off 0 len) s) = if b83OperandOk off len then none else some .badOperand := rfl

/-- The reserved bits of B83 lie in two fields, and one of them set fails the check (R104, R302). -/
theorem b83_reserved_check_fails {rsvHi : BitVec 8} {rsvLo : BitVec 4} (h : rsvHi ≠ 0 ∨ rsvLo ≠ 0) :
    (rsvHi == 0 && rsvLo == 0) = false := by
  rw [Bool.and_eq_false_iff, beq_eq_false_iff_ne, beq_eq_false_iff_ne]
  exact h

/-- A write of hash bytes keeps the bytes before it. -/
theorem State.hashByte_writeHash_before (s : State) {off : Nat} (bytes : List Byte) {p : Nat} (h : p < off) :
    (s.writeHash off bytes).hashByte p = s.hashByte p := by
  by_cases hp : p < 166
  · rw [s.hashByte_writeHash off bytes p hp, if_neg (by omega)]
  · rw [State.hashByte_absent _ (by omega), State.hashByte_absent _ (by omega)]

/-- A write of a base-83 string that lies in the buffer puts digit k at byte `off + k` (R242). -/
theorem State.hashByte_writeHash_base83 (s : State) {off v n k : Nat} (hfits : off + n ≤ 166) (hk : k < n) :
    (s.writeHash off (base83 v n)).hashByte (off + k) = digitChar (base83Digit v n k) := by
  have hlen : k < (base83 v n).length := by rwa [length_base83]
  rw [s.hashByte_writeHash off _ _ (by omega), if_pos (by omega), Nat.add_sub_cancel_left,
    List.getD_eq_getElem _ _ hlen, getElem_base83]

end Machine

end Sys2Proof
end

section
/-! SUPPORT. The statements about the Base-83 Encoder and the command B83 (43_base83.md), settled. -/

namespace Sys2Proof.Machine

/-- Settles O57: the string's value is the residue of what was written, which in range is the value itself; so the
string determines it. -/
theorem base83DecodesBack : Obligations.Base83DecodesBack := by
  refine ⟨fun v n hv => ⟨length_base83 v n, base83Value_base83_of_lt hv⟩, fun v w n hv hw hsame => ?_,
    by decide +kernel⟩
  rw [← base83Value_base83_of_lt hv, hsame, base83Value_base83_of_lt hw]

/-- Settles O58: the string depends on the residue alone, and every digit of 0 is the symbol '0'. -/
theorem base83WrapsAndWritesZeros : Obligations.Base83WrapsAndWritesZeros :=
  fun v n => ⟨(base83_mod v n).symm, base83_zero n⟩

/-- Settles O29: past its checks B83 writes the string of ARG, which lies in HASH, from byte OFF on, and else the first
check to fail gives the error code. -/
theorem b83WritesTheDigitsOfArg : Obligations.B83WritesTheDigitsOfArg := by
  refine ⟨encode_b83_toNat, fun s rsvHi off rsvLo len => ?_⟩
  simp only [← b83OperandOk_iff]
  refine ⟨fun hoperand => ⟨_, exec_ok (i := .b83 0 off 0 len) ?_, fun k hk => ?_, fun p hp => ?_, rfl⟩,
    fun hrsv => exec_reserved_bit_set rfl (b83_reserved_check_fails hrsv),
    fun hoperand => exec_err (e := .badOperand) ?_⟩
  · rw [firstError_b83, if_pos hoperand]
  · obtain ⟨-, -, hfits⟩ := (b83OperandOk_iff off len).mp hoperand
    exact s.hashByte_writeHash_base83 hfits hk
  · rw [State.hashByte_of_hash (State.completed_hash _)]
    rcases hp with hbefore | hbehind
    · exact s.hashByte_writeHash_before _ hbefore
    · exact s.hashByte_writeHash_behind (by rwa [length_base83])
  · rw [firstError_b83, if_neg hoperand]

end Sys2Proof.Machine
end

section
/-! SUPPORT. One base-83 digit, the size flag, and the command NOP (R240, R260, R264). -/

namespace Sys2Proof.Machine

/-- A value below 83 is written as its one symbol (R240). -/
theorem base83_one {v : Nat} (h : v < 83) : base83 v 1 = [digitChar v] := by
  rw [base83_succ, Nat.mod_eq_of_lt h]
  rfl

theorem getD_base83 {v n k : Nat} (h : k < n) (d : Byte) :
    (base83 v n).getD k d = digitChar (base83Digit v n k) := by
  have hlen : k < (base83 v n).length := by rwa [length_base83]
  rw [List.getD_eq_getElem _ _ hlen, getElem_base83]

/-- The size flag of a legal grid lies in [0, 80] (R260). -/
theorem sizeFlag_le {nx ny : Nat} (hnx : nx ≤ 9) (hny : ny ≤ 9) : sizeFlag nx ny ≤ 80 := by
  unfold sizeFlag
  omega

/-- With its reserved bits clear NOP completes and writes nothing (R264). -/
theorem exec_nop_zero (s : State) : exec (.nop 0) s = .next s.completed := exec_ok (i := .nop 0) rfl

end Sys2Proof.Machine
end

section
/-! SUPPORT. The statements about the size flag and the command NOP (44_encode.md), settled. -/

namespace Sys2Proof.Machine

/-- Settles O59: the flag is a two-digit number of base 9, and below 83. -/
theorem sizeFlagDecodesBack : Obligations.SizeFlagDecodesBack := by
  intro nx ny hnx hnx9 hny hny9
  have hle : sizeFlag nx ny ≤ 80 := sizeFlag_le hnx9 hny9
  have hflag : sizeFlag nx ny = (nx - 1) + (ny - 1) * 9 := rfl
  refine ⟨hflag, hle, ?_, ?_, base83_one (by omega)⟩ <;> omega

/-- Settles O22: with its reserved bits clear NOP has no check to fail and no write to make, so the state it completes
in has DONE set, which makes the interrupt line equal to IE. -/
theorem nopWritesOnlyStatus : Obligations.NopWritesOnlyStatus := by
  refine ⟨rfl, fun s rsv => ⟨exec_nop_zero s, fun t ht => ?_,
    fun hrsv => exec_reserved_bit_set rfl (beq_false_of_ne hrsv)⟩⟩
  obtain rfl : s.completed = t := Host.Outcome.next.inj ((exec_nop_zero s).symm.trans ht)
  refine ⟨Bool.and_true s.ie, fun hovr => ?_⟩
  have hstatus : s.completed.status = ⟨false, true, false, false, 0⟩ := by
    rw [State.completed_status, Status.succeeded, hovr]
  calc s.completed.regValue (regAt 0x004) = s.completed.status.word := rfl
    _ = 0x00000002#32 := by rw [hstatus]; rfl

end Sys2Proof.Machine
end

section
/-! SUPPORT. The component grid as ENCODE computes it, and the string it writes, field by field (R120, R262). -/

namespace Sys2Proof.Machine

/-- Component k of the grid the state holds, in slot order (R176, R262). -/
def State.gridComponent (cfg : Config) (s : State) (k : Nat) : Triplet :=
  s.basis cfg (k % s.nx.toNat) (k / s.nx.toNat)

theorem State.gridComponents_eq_map (cfg : Config) (s : State) :
    s.gridComponents cfg = (List.range s.components).map (s.gridComponent cfg) := rfl

theorem State.getD_gridComponents (cfg : Config) (s : State) {k : Nat} (h : k < s.components) (d : Triplet) :
    (s.gridComponents cfg).getD k d = s.gridComponent cfg k := by
  rw [s.gridComponents_eq_map, List.getD_eq_getElem _ _ (by simpa using h), List.getElem_map, List.getElem_range]

/-- The DC term is component 0 (R262). -/
theorem State.headD_gridComponents (cfg : Config) (s : State) (h : 0 < s.components) (d : Triplet) :
    (s.gridComponents cfg).headD d = s.gridComponent cfg 0 := by
  rw [List.headD_eq_getD, s.getD_gridComponents cfg h]

/-- The AC terms are the components after the first (R262). -/
theorem State.tail_gridComponents (cfg : Config) (s : State) : (s.gridComponents cfg).tail =
    (List.range (s.components - 1)).map fun k => s.gridComponent cfg (k + 1) := by
  apply List.ext_getElem
  · rw [List.length_tail, length_components, List.length_map, List.length_range, State.components]
  · intro k hk hk'
    simp [s.gridComponents_eq_map]

/-- A grid that passes the check of NCOMP has a component (R303). -/
theorem State.components_pos {s : State} (h : s.ncompOk = true) : 0 < s.components := by
  obtain ⟨hnx, -, hny, -⟩ := s.ncompOk_iff.mp h
  exact Nat.mul_pos hnx hny

/-- `quantized_scale` lies in [0, 82] with AC terms and without (R210, R211). -/
theorem scaleSelect_q_le (acs : List Triplet) : (scaleSelect acs).q ≤ 82 := by
  unfold scaleSelect
  split
  · exact Nat.zero_le _
  · exact quantizedScale_le _

/-- Blocks of one length in a row: entry e of block k. -/
theorem getD_flatMap_of_length {α β : Type} {f : α → List β} {m : Nat} (hf : ∀ a, (f a).length = m)
    (xs : List α) {k e : Nat} (hk : k < xs.length) (he : e < m) (d : β) :
    (xs.flatMap f).getD (m * k + e) d = (f xs[k]).getD e d := by
  induction xs generalizing k with
  | nil => exact absurd hk (Nat.not_lt_zero k)
  | cons x xs ih =>
    rw [List.flatMap_cons]
    cases k with
    | zero =>
      rw [Nat.mul_zero, Nat.zero_add, List.getD_append _ _ _ _ (by rwa [hf])]
      rfl
    | succ k =>
      have hnext : m * (k + 1) + e - (f x).length = m * k + e := by rw [hf, Nat.mul_succ]; omega
      rw [List.getD_append_right _ _ _ _ (by rw [hf, Nat.mul_succ]; omega), hnext, ih (Nat.lt_of_succ_lt_succ hk)]
      rfl

section
variable {cfg : Config} {nx ny : Nat} {comps : List Triplet} {c : Scale}

/-- The string with its two one-digit fields written out: the size flag and the scale (R262). -/
theorem hashString_eq_cons (hflag : sizeFlag nx ny < 83) (hq : c.q < 83) : hashString cfg nx ny comps c =
    digitChar (sizeFlag nx ny) :: digitChar c.q :: (base83 (quantDC cfg (comps.headD Triplet.zero)).toNat 4 ++
      comps.tail.flatMap fun t => base83 (quantAC cfg t c.maximum) 2) := by
  rw [hashString, base83_one hflag, base83_one hq]
  rfl

/-- The four digits of the DC term follow the two one-digit fields (R262). -/
theorem getD_hashString_dc (hflag : sizeFlag nx ny < 83) (hq : c.q < 83) {k : Nat} (hk : k < 4) (d : Byte) :
    (hashString cfg nx ny comps c).getD (2 + k) d =
      digitChar (base83Digit (quantDC cfg (comps.headD Triplet.zero)).toNat 4 k) := by
  rw [hashString_eq_cons hflag hq, Nat.add_comm, List.getD_cons_succ, List.getD_cons_succ,
    List.getD_append _ _ _ _ (by rwa [length_base83]), getD_base83 hk]

/-- The AC terms follow, two digits each (R262). -/
theorem getD_hashString_ac (hflag : sizeFlag nx ny < 83) (hq : c.q < 83) {k e : Nat} (hk : k < comps.tail.length)
    (he : e < 2) (d : Byte) : (hashString cfg nx ny comps c).getD (6 + 2 * k + e) d =
      digitChar (base83Digit (quantAC cfg comps.tail[k] c.maximum) 2 e) := by
  have hpos : 6 + 2 * k + e = 4 + (2 * k + e) + 1 + 1 := by omega
  rw [hashString_eq_cons hflag hq, hpos, List.getD_cons_succ, List.getD_cons_succ,
    List.getD_append_right _ _ _ _ (by rw [length_base83]; omega), length_base83, Nat.add_sub_cancel_left,
    getD_flatMap_of_length (fun _ => length_base83 _ 2) _ hk he, getD_base83 he]

end

end Sys2Proof.Machine
end

section
/-! SUPPORT. What an ENCODE that passes its checks leaves in COMP, in HASH and in the registers (R263, R302). -/

namespace Sys2Proof.Machine

/-- With its reserved bits clear ENCODE fails by the first of the checks BAD_NCOMP and BAD_DIM (R302). -/
theorem firstError_encode (s : State) : firstError (checksOf (.encode 0) s) =
    if s.ncompOk then if s.dimOk Config.hw then none else some .badDim else some .badNcomp := rfl

/-- An ENCODE that passes its checks completes (R263). -/
theorem exec_encode_ok {s : State} (hncomp : s.ncompOk = true) (hdim : s.dimOk Config.hw = true) :
    exec (.encode 0) s = .next (encodeEffect Config.hw s).completed := by
  have hpass : firstError (checksOf (.encode 0) s) = none := by
    rw [firstError_encode, if_pos hncomp, if_pos hdim]
  exact exec_ok hpass

/-- ENCODE writes as many slots as the grid has components, disturbed or not (R81, R263). -/
theorem encodeEffect_comp (cfg : Config) (s : State) : ∃ ts : List Triplet,
    ts.length = s.components ∧ (encodeEffect cfg s).comp = splice s.comp 0 ts := by
  cases hmark : s.pixDisturbed
  · obtain ⟨hcomp, -⟩ := encodeEffect_undisturbed (cfg := cfg) hmark
    exact ⟨_, length_components .., hcomp⟩
  · obtain ⟨hcomp, -⟩ := encodeEffect_disturbed (cfg := cfg) hmark
    exact ⟨_, by rw [List.length_map, List.length_range], hcomp⟩

/-- ENCODE keeps the slots behind the grid's components (R263). -/
theorem encodeEffect_slot_behind (cfg : Config) (s : State) {k : Nat} (h : s.components ≤ k) :
    (encodeEffect cfg s).slot k = s.slot k := by
  obtain ⟨ts, hlen, hcomp⟩ := encodeEffect_comp cfg s
  by_cases hk : k < 81
  · rw [State.slot_of_comp (hcomp.trans (s.setSlots_comp ts).symm), s.slot_setSlots ts k hk,
      List.getD_eq_default _ _ (by omega)]
  · rw [State.slot_absent _ (by omega), State.slot_absent _ (by omega)]

section
variable {cfg : Config} {s : State}

/-- An undisturbed ENCODE writes component k to slot k (R262, R263). -/
theorem encodeEffect_slot (hmark : s.pixDisturbed = false) (hncomp : s.ncompOk = true) {k : Nat}
    (hk : k < s.components) : (encodeEffect cfg s).slot k = s.gridComponent cfg k := by
  obtain ⟨hcomp, -⟩ := encodeEffect_undisturbed (cfg := cfg) hmark
  have hslots := State.components_le hncomp
  rw [State.slot_of_comp (hcomp.trans (s.setSlots_comp _).symm), s.slot_setSlots _ k (by omega),
    s.getD_gridComponents cfg hk]

/-- An undisturbed ENCODE writes the grid's string to the first bytes of HASH (R262, R263). -/
theorem encodeEffect_hashByte (hmark : s.pixDisturbed = false) {p : Nat} (hp : p < 166) :
    (encodeEffect cfg s).hashByte p = (hashString cfg s.nx.toNat s.ny.toNat (s.gridComponents cfg)
      (scaleSelect (s.gridComponents cfg).tail)).getD p (s.hashByte p) := by
  obtain ⟨-, hhash, -⟩ := encodeEffect_undisturbed (cfg := cfg) hmark
  rw [State.hashByte_of_hash (hhash.trans (s.writeHash_hash 0 _).symm), s.hashByte_writeHash 0 _ p hp,
    if_pos (Nat.zero_le p), Nat.sub_zero]

/-- The bytes of the string an undisturbed ENCODE writes, field by field: the size flag, the scale digit, the four DC
digits and two digits per AC term (R262). -/
theorem encodeEffect_string (hmark : s.pixDisturbed = false) (hncomp : s.ncompOk = true) :
    let sel := scaleSelect (s.gridComponents cfg).tail
    (encodeEffect cfg s).hashByte 0 = digitChar (sizeFlag s.nx.toNat s.ny.toNat) ∧
    (encodeEffect cfg s).hashByte 1 = digitChar sel.q ∧
    (∀ k, k < 4 → (encodeEffect cfg s).hashByte (2 + k) =
      digitChar (base83Digit (quantDC cfg (s.gridComponent cfg 0)).toNat 4 k)) ∧
    (∀ k e, 1 ≤ k → k < s.components → e < 2 → (encodeEffect cfg s).hashByte (6 + 2 * (k - 1) + e) =
      digitChar (base83Digit (quantAC cfg (s.gridComponent cfg k) sel.maximum) 2 e)) := by
  intro sel
  obtain ⟨-, hnx, -, hny⟩ := s.ncompOk_iff.mp hncomp
  have hflag : sizeFlag s.nx.toNat s.ny.toNat < 83 := Nat.lt_of_le_of_lt (sizeFlag_le hnx hny) (by decide)
  have hq : sel.q < 83 := Nat.lt_of_le_of_lt (scaleSelect_q_le _) (by decide)
  have hslots := State.components_le hncomp
  refine ⟨?_, ?_, fun k hk => ?_, fun k e hk hkn he => ?_⟩
  · rw [encodeEffect_hashByte hmark (by decide), hashString_eq_cons hflag hq]
    rfl
  · rw [encodeEffect_hashByte hmark (by decide), hashString_eq_cons hflag hq]
    rfl
  · rw [encodeEffect_hashByte hmark (by omega), getD_hashString_dc hflag hq hk,
      s.headD_gridComponents cfg (State.components_pos hncomp)]
  · have hac : k - 1 < (s.gridComponents cfg).tail.length := by
      rw [List.length_tail, length_components]
      exact Nat.sub_lt_sub_right hk hkn
    have hterm : (s.gridComponents cfg).tail[k - 1] = s.gridComponent cfg k := by
      simp [s.tail_gridComponents cfg, Nat.sub_add_cancel hk]
    rw [encodeEffect_hashByte hmark (by omega), getD_hashString_ac hflag hq hac he, hterm]

/-- An undisturbed ENCODE completes with no field changed but the buffers and registers R263 names. -/
theorem encodeEffect_completed_frame (hmark : s.pixDisturbed = false) : (encodeEffect cfg s).completed =
    { s with
      comp := (encodeEffect cfg s).comp, hash := (encodeEffect cfg s).hash
      hashlen := (encodeEffect cfg s).hashlen, resi := (encodeEffect cfg s).resi
      actmax := (encodeEffect cfg s).actmax, scale := (encodeEffect cfg s).scale
      max := (encodeEffect cfg s).max, status := s.status.succeeded } := by
  obtain ⟨-, -, -, -, -, hdraws⟩ := encodeEffect_undisturbed (cfg := cfg) hmark
  apply State.ext <;> simp [hmark, hdraws]

/-- HASHLEN and RESI hold the hash length, which fits them because a legal grid has at most 81 components (R263). -/
theorem encodeEffect_lengths (hncomp : s.ncompOk = true) :
    (encodeEffect cfg s).hashlen.toNat = hashLength s.components ∧
    (encodeEffect cfg s).resi.toNat = hashLength s.components := by
  obtain ⟨-, hmax⟩ := hashLength_range (State.components_le hncomp)
  rw [encodeEffect_hashlen, encodeEffect_resi, BitVec.toNat_ofNat, BitVec.toNat_ofNat]
  exact ⟨Nat.mod_eq_of_lt (by omega), Nat.mod_eq_of_lt (by omega)⟩

end

end Sys2Proof.Machine
end

section
/-! SUPPORT. The statement about the command ENCODE (44_encode.md), settled. -/

namespace Sys2Proof.Machine

/-- Settles O30: past its checks ENCODE makes its writes, the slots and the string over the grid's components, which
fit COMP and HASH because a legal grid has at most 81 of them, and else the first check to fail gives the error code. -/
theorem encodeWritesTheWholeHash : Obligations.EncodeWritesTheWholeHash := by
  refine ⟨rfl, fun s rsv => ?_⟩
  simp only [← State.ncompOk_iff, ← State.dimOk_iff]
  refine ⟨fun hncomp hdim hmark => ?_, fun hrsv => exec_reserved_bit_set rfl (beq_false_of_ne hrsv),
    fun hncomp => exec_err (e := .badNcomp) ?_, fun hncomp hdim => exec_err (e := .badDim) ?_⟩
  · obtain ⟨-, -, hactmax, hscale, hmax, -⟩ := encodeEffect_undisturbed (cfg := Config.hw) hmark
    obtain ⟨hsize, hdigit, hdc, hac⟩ := encodeEffect_string (cfg := Config.hw) hmark hncomp
    obtain ⟨hlen, hresi⟩ := encodeEffect_lengths (cfg := Config.hw) hncomp
    have hq := scaleSelect_q_le (s.gridComponents Config.hw).tail
    rw [s.tail_gridComponents] at hactmax hscale hmax hdigit hac hq
    refine ⟨_, exec_encode_ok hncomp hdim, fun k hk => encodeEffect_slot hmark hncomp hk,
      fun k hk => encodeEffect_slot_behind Config.hw s hk, hsize, hdigit, hdc, hac,
      fun p hp => encodeEffect_hashByte_behind Config.hw s hp, hlen, hresi, hactmax, ?_, hmax,
      encodeEffect_completed_frame hmark⟩
    rw [State.completed_scale, hscale, BitVec.toNat_ofNat]
    exact Nat.mod_eq_of_lt (Nat.lt_of_le_of_lt hq (by decide))
  · rw [firstError_encode, if_neg hncomp]
  · rw [firstError_encode, if_pos hncomp, if_neg hdim]

end Sys2Proof.Machine
end

section
/-! SUPPORT. The interrupt line, and what a Complete step makes of the STATUS it finds (R52, R301, R310, R311). -/

namespace Sys2Proof.Machine

/-! ## The interrupt line -/

/-- The line is asserted exactly when IE and DONE are 1 (R310). -/
theorem State.irq_eq_true_iff (s : State) : s.irq = true ↔ s.ie = true ∧ s.status.done = true :=
  Bool.and_eq_true_iff

/-- With DONE clear the line is deasserted, whatever IE is (R311). -/
theorem State.irq_of_not_done {s : State} (h : s.status.done = false) : s.irq = false := by
  rw [State.irq, h, Bool.and_false]

/-- A Complete step sets DONE and keeps IE (R52). -/
theorem complete_sets_done {s t : State} (h : complete s = .next t) : t.status.done = true ∧ t.ie = s.ie := by
  rcases complete_cases s with ⟨e, herr⟩ | ⟨i, -, -, hok⟩
  · obtain rfl : s.commandError e = t := Host.Outcome.next.inj (herr.symm.trans h)
    exact ⟨rfl, rfl⟩
  · obtain rfl : (effectOf i s).completed = t := Host.Outcome.next.inj (hok.symm.trans h)
    obtain ⟨-, -, hie, -⟩ := effectOf_keeps i s
    exact ⟨rfl, hie⟩

/-- A host write of an aligned word that is not dropped leaves what it stores (R79). -/
theorem hostWrite_stores {s t : State} {v : Word32} {o : Nat} (ha : o % 4 = 0) (ho : o < 4096)
    (hlets : s.status.busy = false ∨ (regAt o).isOperand = false) (h : hostWrite ⟨o, 4⟩ v s = .next t) :
    t = s.storeReg (regAt o) v := by
  rw [hostWrite_aligned s v ha ho, State.writeReg_performed v hlets] at h
  exact (Host.Outcome.next.inj h).symm

/-! ## STATUS at a Complete step -/

/-- The Complete step of a word the decoder accepts (R52). -/
theorem complete_of_decode_ok {s : State} {i : Instr} (h : decode s.cmd = .ok i) : complete s = exec i s := by
  rw [complete, h]

/-- No check reads STATUS (R302). -/
theorem checksOf_status (i : Instr) (s : State) (st : Status) :
    checksOf i { s with status := st } = checksOf i s := by
  cases i <;> rfl

/-- No write reads or changes STATUS. -/
theorem effectOf_status (i : Instr) (s : State) (st : Status) :
    effectOf i { s with status := st } = { effectOf i s with status := st } := by
  cases i
  case basis rsv j i =>
    simp only [effectOf, basisEffect]
    split <;> rfl
  case encode rsv =>
    simp only [effectOf, encodeEffect]
    split <;> rfl
  all_goals rfl

/-- A command ends in the same state whatever ERR and ECODE it finds (R301). -/
theorem exec_forgets_error (i : Instr) (s : State) (err : Bool) (ecode : BitVec 4) :
    exec i { s with status := { s.status with err := err, ecode := ecode } } = exec i s := by
  have hchecks := checksOf_status i s { s.status with err := err, ecode := ecode }
  rcases exec_cases i s with ⟨e, hfails, herr⟩ | ⟨hpass, hok⟩
  · rw [herr, exec_err (hchecks ▸ hfails)]
    rfl
  · obtain ⟨-, hstatus, -⟩ := effectOf_keeps i s
    rw [hok, exec_ok (hchecks ▸ hpass), effectOf_status, State.completed, State.completed, hstatus]
    rfl

end Sys2Proof.Machine
end

section
/-! SUPPORT. The statements about the interrupt line and about what a command error changes (60_exceptions.md),
settled. -/

namespace Sys2Proof.Machine

/-- Settles O17: a Complete step sets DONE and keeps IE; a write of CTRL stores IE, and each of the last three events
leaves DONE clear. -/
theorem interruptLineFollowsCompletion : Obligations.InterruptLineFollowsCompletion := by
  refine ⟨State.irq_eq_true_iff, fun s t h => ?_, fun s t v h => ?_, fun s t v hv h => ?_, fun s t v hidle h => ?_,
    fun s => rfl⟩
  · obtain ⟨hdone, hie⟩ := complete_sets_done h
    rw [State.irq, hdone, hie, Bool.and_true]
  · obtain rfl := hostWrite_stores rfl (by decide) (.inr rfl) h
    exact ⟨rfl, rfl⟩
  · obtain rfl := hostWrite_stores rfl (by decide) (.inr rfl) h
    have hcleared : (s.status.clearedBy v).done = false := by
      rw [Status.clearedBy_done, hv, Bool.not_true, Bool.and_false]
    exact State.irq_of_not_done hcleared
  · obtain rfl := hostWrite_stores rfl (by decide) (.inl hidle) h
    exact State.irq_of_not_done s.status.accepted_done

/-- Settles O32: a Complete step that does not succeed is a command error, and neither the checks nor the writes read
ERR and ECODE, which the end of the command overwrites. -/
theorem commandErrorsChangeOnlyStatus : Obligations.CommandErrorsChangeOnlyStatus := by
  refine ⟨fun s t h hcode => ?_, fun s err ecode => ?_⟩
  · rcases complete_cases s with ⟨e, herr⟩ | ⟨i, -, -, hok⟩
    · obtain rfl : s.commandError e = t := Host.Outcome.next.inj (herr.symm.trans h)
      exact s.commandError_eq_failedWith e
    · obtain rfl : (effectOf i s).completed = t := Host.Outcome.next.inj (hok.symm.trans h)
      exact absurd rfl hcode
  · rcases decode_cases s.cmd with ⟨i, hdecode, -⟩ | ⟨hdecode, -⟩
    · rw [complete_of_decode_ok hdecode]
      calc complete { s with status := { s.status with err := err, ecode := ecode } }
        _ = exec i { s with status := { s.status with err := err, ecode := ecode } } :=
            complete_of_decode_ok hdecode
        _ = exec i s := exec_forgets_error i s err ecode
    · rw [complete_of_decode_error hdecode]
      exact complete_of_decode_error hdecode

end Sys2Proof.Machine
end

section
/-! SUPPORT. A command word taken apart: the opcode's value, the word a decoded command came from, and the reserved bits
of each format as the format's mask (R100 to R107). -/

namespace Sys2Proof

/-! ## Opcode and operand field -/

/-- The opcode field's value is the word's quotient by 2^24 (R100). -/
theorem opcodeField_toNat (w : Word32) : (opcodeField w).toNat = w.toNat / 2 ^ 24 := by
  have hw := w.isLt
  rw [opcodeField, BitVec.extractLsb'_toNat, Nat.shiftRight_eq_div_pow]
  omega

/-- The opcode's value at the top of a command's word (R100, R105). -/
theorem encode_toNat_div (i : Instr) : (encode i).toNat / 2 ^ 24 = i.opcode.toNat := by
  have hopcode : opcodeField (encode i) = i.opcode := BitVec.extractLsb'_append_eq_left
  rw [← opcodeField_toNat, hopcode]

/-- The opcodes of the map as numbers (R105). -/
theorem mem_mappedOpcodes_iff (o : BitVec 8) :
    o ∈ mappedOpcodes ↔ o.toNat ∈ [0x00, 0x01, 0x10, 0x11, 0x20, 0x30, 0x31, 0x32, 0x40] := by
  have hvalues : [0x00, 0x01, 0x10, 0x11, 0x20, 0x30, 0x31, 0x32, 0x40] = mappedOpcodes.map BitVec.toNat := rfl
  rw [hvalues, List.mem_map_of_injective fun _ _ => BitVec.eq_of_toNat_eq]

/-- Decoding loses no operand bit and no reserved bit: the fields side by side are bits 23..0 (R101 to R104, R107). -/
theorem operandField_of_decode_ok {w : Word32} {i : Instr} (h : decode w = .ok i) :
    i.operandField = w.extractLsb' 0 24 := by
  have join {hi lo len len' : Nat} (hnext : hi = lo + len) :
      w.extractLsb' hi len' ++ w.extractLsb' lo len = w.extractLsb' lo (len' + len) :=
    BitVec.extractLsb'_append_extractLsb'_eq_extractLsb' hnext
  have hij : w.extractLsb' 8 16 ++ w.extractLsb' 4 4 ++ w.extractLsb' 0 4 = w.extractLsb' 0 24 := by
    rw [join (show 8 = 4 + 4 from rfl), join (show 4 = 0 + 4 from rfl)]
  have hk : w.extractLsb' 7 17 ++ w.extractLsb' 0 7 = w.extractLsb' 0 24 := join rfl
  have hlo : w.extractLsb' 16 8 ++ w.extractLsb' 8 8 ++ w.extractLsb' 4 4 ++ w.extractLsb' 0 4 =
      w.extractLsb' 0 24 := by
    rw [join (show 16 = 8 + 8 from rfl), join (show 8 = 4 + 4 from rfl), join (show 4 = 0 + 4 from rfl)]
  unfold decode at h
  dsimp only at h
  split_ifs at h <;> obtain rfl := Except.ok.inj h <;> simp only [Instr.operandField, hij, hk, hlo]

/-- A word that decodes is the word of its command (R107). -/
theorem encode_of_decode_ok {w : Word32} {i : Instr} (h : decode w = .ok i) : encode i = w := by
  rcases decode_cases w with ⟨i', hok, hopcode⟩ | ⟨herr, -⟩
  · obtain rfl : i' = i := Except.ok.inj (hok.symm.trans h)
    rw [encode, operandField_of_decode_ok h, ← hopcode]
    exact BitVec.extractLsb'_append_extractLsb' (w := 8) (len := 24)
  · exact absurd (herr.symm.trans h) nofun

/-! ## Reserved bits -/

/-- A mask meets neither of two fields side by side exactly when its parts meet neither. -/
theorem append_and_append_eq_zero_iff {n m : Nat} (x p : BitVec n) (y q : BitVec m) :
    (x ++ y) &&& (p ++ q) = 0#(n + m) ↔ x &&& p = 0#n ∧ y &&& q = 0#m := by
  rw [BitVec.and_append, ← BitVec.toNat_inj, toNat_append_eq_mul_add]
  simp [← BitVec.toNat_inj]

/-- The mask of format N meets the reserved bits alone (R101). -/
theorem append_and_maskN_eq_zero_iff (o : BitVec 8) (rsv : BitVec 24) :
    (o ++ rsv) &&& (0#8 ++ BitVec.allOnes 24) = 0#(8 + 24) ↔ rsv = 0#24 := by
  simp only [append_and_append_eq_zero_iff, BitVec.and_zero, BitVec.and_allOnes, true_and]

/-- The mask of format IJ meets the reserved bits alone (R102). -/
theorem append_and_maskIJ_eq_zero_iff (o : BitVec 8) (rsv : BitVec 16) (j i : BitVec 4) :
    (o ++ (rsv ++ j ++ i)) &&& (0#8 ++ (BitVec.allOnes 16 ++ 0#4 ++ 0#4)) = 0#(8 + (16 + 4 + 4)) ↔
      rsv = 0#16 := by
  simp only [append_and_append_eq_zero_iff, BitVec.and_zero, BitVec.and_allOnes, true_and, and_true]

/-- The mask of format K meets the reserved bits alone (R103). -/
theorem append_and_maskK_eq_zero_iff (o : BitVec 8) (rsv : BitVec 17) (k : BitVec 7) :
    (o ++ (rsv ++ k)) &&& (0#8 ++ (BitVec.allOnes 17 ++ 0#7)) = 0#(8 + (17 + 7)) ↔ rsv = 0#17 := by
  simp only [append_and_append_eq_zero_iff, BitVec.and_zero, BitVec.and_allOnes, true_and, and_true]

/-- The mask of format LO meets the two reserved fields alone (R104). -/
theorem append_and_maskLO_eq_zero_iff (o rsvHi off : BitVec 8) (rsvLo len : BitVec 4) :
    (o ++ (rsvHi ++ off ++ rsvLo ++ len)) &&& (0#8 ++ (BitVec.allOnes 8 ++ 0#8 ++ BitVec.allOnes 4 ++ 0#4)) =
      0#(8 + (8 + 8 + 4 + 4)) ↔ rsvHi = 0#8 ∧ rsvLo = 0#4 := by
  simp only [append_and_append_eq_zero_iff, BitVec.and_zero, BitVec.and_allOnes, true_and, and_true]

/-- The opcode's number selects the format, and so the mask (R105, R107). -/
theorem Instr.reservedMask_eq_ite (i : Instr) : i.reservedMask =
    if i.opcode.toNat = 0x20 then 0x00FFFF00#32 else if i.opcode.toNat = 0x32 then 0x00FFFF80#32
    else if i.opcode.toNat = 0x40 then 0x00FF00F0#32 else 0x00FFFFFF#32 := by
  cases i <;> rfl

/-- The reserved bits of a command are all clear exactly when its word has no bit of its format's mask (R107). -/
theorem Instr.reservedClear_iff (i : Instr) :
    i.reservedClear = true ↔ Sys2Proof.encode i &&& i.reservedMask = 0 := by
  cases i with
  | nop rsv | encode rsv | lin rsv | gam rsv | qdc rsv | qscale rsv =>
    exact beq_iff_eq.trans (append_and_maskN_eq_zero_iff _ rsv).symm
  | basis rsv j i => exact beq_iff_eq.trans (append_and_maskIJ_eq_zero_iff _ rsv j i).symm
  | qac rsv k => exact beq_iff_eq.trans (append_and_maskK_eq_zero_iff _ rsv k).symm
  | b83 rsvHi off rsvLo len =>
    refine Iff.trans ?_ (append_and_maskLO_eq_zero_iff _ rsvHi off rsvLo len).symm
    rw [reservedClear, Bool.and_eq_true, beq_iff_eq, beq_iff_eq]
    rfl

end Sys2Proof
end

section
/-! SUPPORT. The ECODE a command ends with, as the number of the first check that fails, and the checks of R302 read
from the command word (R302 to R308). -/

namespace Sys2Proof.Machine

/-- ECODE for the outcome of a command's checks: 0 when all pass (R302, R308). -/
def ecodeOf : Option ErrorCode → Nat
  | none => 0
  | some e => e.code.toNat

@[simp] theorem ecodeOf_firstError_nil : ecodeOf (firstError []) = 0 := rfl

/-- The first check decides unless it passes (R302). -/
@[simp] theorem ecodeOf_firstError_cons (ok : Bool) (e : ErrorCode) (later : List (Bool × ErrorCode)) :
    ecodeOf (firstError ((ok, e) :: later)) =
      if ¬ok = true then e.code.toNat else ecodeOf (firstError later) := by
  cases ok <;> rfl

/-- A command answers a next state whose ECODE is that of its first failing check (R302). -/
theorem exec_ecode (i : Instr) (s : State) :
    ∃ t, exec i s = .next t ∧ t.status.ecode.toNat = ecodeOf (firstError (checksOf i s)) := by
  rcases exec_cases i s with ⟨e, hfails, herr⟩ | ⟨hpass, hok⟩
  · exact ⟨_, herr, by rw [hfails]; rfl⟩
  · exact ⟨_, hok, by rw [hpass]; rfl⟩

/-- A set reserved bit is the first check to fail, whatever the command (R302, R305). -/
theorem firstError_of_reserved_set {i : Instr} (s : State) (h : i.reservedClear = false) :
    firstError (checksOf i s) = some .reservedField := by
  cases i <;> rw [Instr.reservedClear] at h <;> rw [checksOf, firstError, h] <;> rfl

/-- The checks of R302 that follow the one of the reserved bits, read from the opcode and the command word. -/
def State.laterCode (s : State) (opc w : Nat) : Nat :=
  let nx := s.nx.toNat
  let ny := s.ny.toNat
  if opc ∈ [0x01, 0x20, 0x31, 0x32] ∧ ¬(1 ≤ nx ∧ nx ≤ 9 ∧ 1 ≤ ny ∧ ny ≤ 9) then 3
  else if opc ∈ [0x01, 0x20] ∧ ¬(1 ≤ s.width.toNat ∧ 1 ≤ s.height.toNat ∧
    4 * s.width.toNat * s.height.toNat ≤ Config.hw.pixBytes) then 4
  else if opc = 0x20 ∧ ¬(w % 16 < nx ∧ w / 16 % 16 < ny) then 5
  else if opc = 0x32 ∧ ¬(1 ≤ w % 128 ∧ w % 128 < nx * ny) then 5
  else if opc = 0x40 ∧ ¬(1 ≤ w % 16 ∧ w % 16 ≤ 8 ∧ w / 256 % 256 + w % 16 ≤ 166) then 5
  else 0

/-- With its reserved bits clear a command's own checks are those its word states (R302, R303, R306, R307). -/
theorem ecodeOf_firstError_of_reservedClear {i : Instr} (s : State) (h : i.reservedClear = true) :
    ecodeOf (firstError (checksOf i s)) = s.laterCode i.opcode.toNat (encode i).toNat := by
  cases i with
  | nop rsv | lin rsv | gam rsv | qdc rsv =>
    obtain rfl := eq_of_beq h
    rfl
  | encode rsv | qscale rsv =>
    obtain rfl := eq_of_beq h
    simp [checksOf, State.laterCode, Instr.opcode, ErrorCode.code, State.ncompOk_iff, State.dimOk_iff]
  | basis rsv j i =>
    obtain rfl := eq_of_beq h
    have hi : (0x20000000 + j.toNat * 16 + i.toNat) % 16 = i.toNat := by omega
    have hj : (0x20000000 + j.toNat * 16 + i.toNat) / 16 % 16 = j.toNat := by omega
    rw [encode_basis_toNat, State.laterCode, hi, hj]
    simp [checksOf, Instr.opcode, ErrorCode.code, State.ncompOk_iff, State.dimOk_iff, State.basisOperandOk_iff]
  | qac rsv k =>
    obtain rfl := eq_of_beq h
    have hk : (0x32000000 + k.toNat) % 128 = k.toNat := by omega
    rw [encode_qac_toNat, State.laterCode, hk]
    simp [checksOf, Instr.opcode, ErrorCode.code, State.ncompOk_iff, State.qacOperandOk_iff]
  | b83 rsvHi off rsvLo len =>
    obtain ⟨hHi, hLo⟩ := Bool.and_eq_true_iff.mp h
    obtain rfl := eq_of_beq hHi
    obtain rfl := eq_of_beq hLo
    have hlen : (0x40000000 + off.toNat * 256 + len.toNat) % 16 = len.toNat := by omega
    have hoff : (0x40000000 + off.toNat * 256 + len.toNat) / 256 % 256 = off.toNat := by omega
    rw [encode_b83_toNat, State.laterCode, hlen, hoff]
    simp [checksOf, Instr.opcode, ErrorCode.code, b83OperandOk_iff]

/-- A command's checks answer what its word states: its format's mask first, then the later checks (R302). -/
theorem ecodeOf_firstError_eq (i : Instr) (s : State) : ecodeOf (firstError (checksOf i s)) =
    if encode i &&& i.reservedMask ≠ 0 then 2 else s.laterCode i.opcode.toNat (encode i).toNat := by
  cases hreserved : i.reservedClear
  · have hset : encode i &&& i.reservedMask ≠ 0 := mt i.reservedClear_iff.mpr (Bool.eq_false_iff.mp hreserved)
    rw [firstError_of_reserved_set s hreserved, if_pos hset]
    rfl
  · rw [if_neg (not_not_intro (i.reservedClear_iff.mp hreserved)), ecodeOf_firstError_of_reservedClear s hreserved]

end Sys2Proof.Machine
end

section
/-! SUPPORT. The statement about the order of the checks (60_exceptions.md), settled. -/

namespace Sys2Proof.Machine

/-- Settles O33: a word outside the map ends with code 1; any other is the word of the command it decodes to, whose
first failing check is the first that fails in the word. -/
theorem errorCodesFollowTheValidationOrder : Obligations.ErrorCodesFollowTheValidationOrder := by
  intro s
  rcases decode_cases s.cmd with ⟨i, hok, -⟩ | ⟨herr, hout⟩
  · obtain ⟨t, hexec, hcode⟩ := exec_ecode i s
    refine ⟨t, (complete_of_decode_ok hok).trans hexec, ?_⟩
    have hmapped := (mem_mappedOpcodes_iff i.opcode).mp i.opcode_mem_mappedOpcodes
    dsimp only
    rw [hcode, ← encode_of_decode_ok hok, encode_toNat_div, ← i.reservedMask_eq_ite,
      if_neg (not_not_intro hmapped)]
    exact ecodeOf_firstError_eq i s
  · refine ⟨_, complete_of_decode_error herr, ?_⟩
    dsimp only
    rw [← opcodeField_toNat, if_pos (mt (mem_mappedOpcodes_iff _).mpr hout)]
    rfl

end Sys2Proof.Machine
end

section
/-! SUPPORT. The fields of a command's word are the command's own, so the decoder reads the command back (R100 to
R105). -/

namespace Sys2Proof

/-- The opcode of a command's word (R100). -/
theorem opcodeField_encode (i : Instr) : opcodeField (encode i) = i.opcode := BitVec.extractLsb'_append_eq_left

/-- Bits below the opcode are bits of the operand field (R100). -/
theorem extractLsb'_encode (i : Instr) {start len : Nat} (h : start + len ≤ 24) :
    (encode i).extractLsb' start len = i.operandField.extractLsb' start len :=
  BitVec.extractLsb'_append_eq_of_add_le h

/-- The field in the middle of three side by side. -/
theorem extractLsb'_append_middle {n m k : Nat} (hi : BitVec n) (mid : BitVec m) (lo : BitVec k) :
    (hi ++ mid ++ lo).extractLsb' k m = mid := by
  rw [BitVec.extractLsb'_append_eq_of_le (Nat.le_refl k), Nat.sub_self]
  exact BitVec.extractLsb'_append_eq_right

/-- The operand fields of format IJ (R102). -/
theorem extractLsb'_formatIJ (rsv : BitVec 16) (j i : BitVec 4) :
    (rsv ++ j ++ i).extractLsb' 8 16 = rsv ∧ (rsv ++ j ++ i).extractLsb' 4 4 = j ∧
      (rsv ++ j ++ i).extractLsb' 0 4 = i := by
  refine ⟨?_, extractLsb'_append_middle rsv j i, BitVec.extractLsb'_append_eq_right⟩
  rw [BitVec.extractLsb'_append_eq_of_le (by decide)]
  exact BitVec.extractLsb'_append_eq_left

/-- The operand fields of format K (R103). -/
theorem extractLsb'_formatK (rsv : BitVec 17) (k : BitVec 7) :
    (rsv ++ k).extractLsb' 7 17 = rsv ∧ (rsv ++ k).extractLsb' 0 7 = k :=
  ⟨BitVec.extractLsb'_append_eq_left, BitVec.extractLsb'_append_eq_right⟩

/-- The operand fields of format LO (R104). -/
theorem extractLsb'_formatLO (rsvHi off : BitVec 8) (rsvLo len : BitVec 4) :
    (rsvHi ++ off ++ rsvLo ++ len).extractLsb' 16 8 = rsvHi ∧ (rsvHi ++ off ++ rsvLo ++ len).extractLsb' 8 8 = off ∧
      (rsvHi ++ off ++ rsvLo ++ len).extractLsb' 4 4 = rsvLo ∧
      (rsvHi ++ off ++ rsvLo ++ len).extractLsb' 0 4 = len := by
  refine ⟨?_, ?_, extractLsb'_append_middle (rsvHi ++ off) rsvLo len, BitVec.extractLsb'_append_eq_right⟩
  · iterate 2 rw [BitVec.extractLsb'_append_eq_of_le (by decide)]
    exact BitVec.extractLsb'_append_eq_left
  · rw [BitVec.extractLsb'_append_eq_of_le (by decide)]
    exact extractLsb'_append_middle rsvHi off rsvLo

/-- The decoder reads a command back from its word: the opcode selects the format, and the format's fields are the
command's (R105). -/
theorem decode_encode (i : Instr) : decode (encode i) = .ok i := by
  have hfields {start len : Nat} (h : start + len ≤ 24) := extractLsb'_encode i h
  unfold decode
  simp only [opcodeField_encode]
  cases i with
  | nop rsv | encode rsv | lin rsv | gam rsv | qdc rsv | qscale rsv =>
    have hrsv := hfields (start := 0) (len := 24) (by decide)
    rw [hrsv]
    simp [Instr.opcode, Instr.operandField]
  | basis rsv j i =>
    obtain ⟨hrsv, hj, hi⟩ := extractLsb'_formatIJ rsv j i
    simp [hfields, Instr.opcode, Instr.operandField, hrsv, hj, hi]
  | qac rsv k =>
    obtain ⟨hrsv, hk⟩ := extractLsb'_formatK rsv k
    simp [hfields, Instr.opcode, Instr.operandField, hrsv, hk]
  | b83 rsvHi off rsvLo len =>
    obtain ⟨hHi, hoff, hLo, hlen⟩ := extractLsb'_formatLO rsvHi off rsvLo len
    simp [hfields, Instr.opcode, Instr.operandField, hHi, hoff, hLo, hlen]

end Sys2Proof
end

section
/-! SUPPORT. The statements about the command encoding (30_encoding.md), settled. -/

namespace Sys2Proof

/-- Settles O1: the opcode selects the format the command was laid out by, whose fields are read back. -/
theorem decodeOfEncodeIsTheCommand : Obligations.DecodeOfEncodeIsTheCommand := decode_encode

/-- Settles O2: the operand fields side by side are bits 23..0, and the opcode is the command's own. -/
theorem encodeOfDecodeIsTheWord : Obligations.EncodeOfDecodeIsTheWord := fun _ _ => encode_of_decode_ok

/-- Settles O3: each format's mask meets its reserved fields alone. -/
theorem wellFormedIsTheReservedMask : Obligations.WellFormedIsTheReservedMask := Instr.reservedClear_iff

/-- Settles O5: each word is that of the command it is claimed to decode to, which the decoder reads back. -/
theorem writtenOutWordsDecode : Obligations.WrittenOutWordsDecode :=
  ⟨decode_encode (.nop 0), decode_encode (.encode 0), decode_encode (.lin 0), decode_encode (.gam 0),
    decode_encode (.basis 0 2 1), decode_encode (.qdc 0), decode_encode (.qscale 0), decode_encode (.qac 0 5),
    decode_encode (.b83 0 2 0 4)⟩

end Sys2Proof
end

section
/-! SUPPORT. What a step of the machine can make of the block, said once: a step takes at most one event off the
agenda and then does one of six things (R52, R82). -/

namespace Sys2Proof.Machine

/-! ## Host accesses and the block's turn -/

theorem hostRead_next {a : Access} {s t : State} (h : hostRead a s = .next t) : t = s.readReg (regAt a.offset) := by
  unfold hostRead at h
  split at h
  · exact (Host.Outcome.next.inj h).symm
  · cases h

theorem hostWrite_next {a : Access} {v : Word32} {s t : State} (h : hostWrite a v s = .next t) :
    t = s.writeReg (regAt a.offset) v := by
  unfold hostWrite at h
  split at h
  · exact (Host.Outcome.next.inj h).symm
  · cases h

theorem hostPixWrite_next {cfg : Config} {addr : Nat} {bytes : List Byte} {s t : State}
    (h : hostPixWrite cfg addr bytes s = .next t) :
    addr + bytes.length ≤ cfg.pixBytes ∧ t = s.fillPixels addr bytes := by
  unfold hostPixWrite at h
  split at h
  · exact ⟨‹_›, (Host.Outcome.next.inj h).symm⟩
  · cases h

theorem hostPixWrite_inside {cfg : Config} {addr : Nat} {bytes : List Byte} (s : State)
    (h : addr + bytes.length ≤ cfg.pixBytes) : hostPixWrite cfg addr bytes s = .next (s.fillPixels addr bytes) :=
  if_pos h

theorem blockTurn_busy {s : State} (h : s.status.busy = true) : blockTurn s = complete s := if_pos h

theorem blockTurn_idle {s : State} (h : s.status.busy = false) : blockTurn s = .next s :=
  if_neg (Bool.eq_false_iff.mp h)

/-- A WAIT first on the agenda of a busy block gives it its turn and stays there (R111, R352). -/
theorem step_wait_busy {s : State} {rest : List Event} (hagenda : s.agenda = .wait :: rest)
    (hbusy : s.status.busy = true) : step s = complete s := by
  have hkept : { s with agenda := .wait :: rest } = s := by rw [← hagenda]
  calc step s = hostWait rest { s with agenda := .wait :: rest } := step_event hagenda
    _ = complete { s with agenda := .wait :: rest } := if_pos hbusy
    _ = complete s := by rw [hkept]

/-- A WAIT first on the agenda of an idle block ends with its last read of STATUS (R111). -/
theorem step_wait_idle {s : State} {rest : List Event} (hagenda : s.agenda = .wait :: rest)
    (hidle : s.status.busy = false) : step s = .next ({ s with agenda := rest }.readReg .status) :=
  (step_event hagenda).trans (if_neg (Bool.eq_false_iff.mp hidle))

/-! ## The six things a step can do -/

/-- What a step makes of a state from which the event it takes is already gone. -/
inductive BlockStep (s : State) : State → Prop
  /-- The block holds no command (R318). -/
  | idle : BlockStep s s
  /-- The Complete step of the held command (R52). -/
  | complete {t : State} (hbusy : s.status.busy = true) (hnext : complete s = .next t) : BlockStep s t
  /-- The host reads a register (R78, R80). -/
  | read (r : Reg) : BlockStep s (s.readReg r)
  /-- The host writes a register (R34, R79). -/
  | write (r : Reg) (v : Word32) : BlockStep s (s.writeReg r v)
  /-- The host fills pixel memory (R72). -/
  | fill {addr : Nat} {bytes : List Byte} (hfits : addr + bytes.length ≤ Config.hw.pixBytes) :
      BlockStep s (s.fillPixels addr bytes)
  /-- The platform resets the block (R340). -/
  | reset : BlockStep s s.resetBlock

theorem blockTurn_blockStep {s t : State} (h : blockTurn s = .next t) : BlockStep s t := by
  cases hbusy : s.status.busy
  · rw [blockTurn_idle hbusy] at h
    obtain rfl := Host.Outcome.next.inj h
    exact .idle
  · rw [blockTurn_busy hbusy] at h
    exact .complete hbusy h

/-- Every step is one of the six, on the state with some agenda. -/
theorem step_blockStep {s t : State} (h : step s = .next t) :
    ∃ rest, BlockStep { s with agenda := rest } t := by
  rcases hagenda : s.agenda with _ | ⟨e, rest⟩
  · rw [step_idle hagenda] at h
    exact ⟨s.agenda, blockTurn_blockStep h⟩
  · have hevent := (step_event hagenda).symm.trans h
    cases e with
    | read a =>
      obtain rfl := hostRead_next hevent
      exact ⟨rest, .read _⟩
    | write a v =>
      obtain rfl := hostWrite_next hevent
      exact ⟨rest, .write _ v⟩
    | pixWrite addr bytes =>
      obtain ⟨hfits, rfl⟩ := hostPixWrite_next hevent
      exact ⟨rest, .fill hfits⟩
    | wait =>
      cases hbusy : s.status.busy
      · obtain rfl := Host.Outcome.next.inj ((step_wait_idle hagenda hbusy).symm.trans h)
        exact ⟨rest, .read .status⟩
      · exact ⟨s.agenda, .complete hbusy ((step_wait_busy hagenda hbusy).symm.trans h)⟩
    | reset =>
      obtain rfl := Host.Outcome.next.inj hevent
      exact ⟨rest, .reset⟩
    | complete => exact ⟨rest, blockTurn_blockStep hevent⟩

end Sys2Proof.Machine
end

section
/-! SUPPORT. Which commands write each result, and what every Complete step leaves in STATUS (R36 to R55). -/

namespace Sys2Proof.Machine

/-! ## The writers of each result -/

/-- A command whose writes change a result is one of those the result's rule names (R46 to R55). -/
theorem effectOf_writers (i : Instr) (s : State) :
    ((effectOf i s).resf ≠ s.resf → i.opcode = 0x10) ∧
    ((effectOf i s).resi ≠ s.resi → i.opcode ∈ [0x11#8, 0x30#8, 0x31#8, 0x32#8, 0x01#8]) ∧
    ((effectOf i s).scale ≠ s.scale ∨ (effectOf i s).max ≠ s.max ∨ (effectOf i s).actmax ≠ s.actmax →
      i.opcode ∈ [0x31#8, 0x01#8]) ∧
    ((effectOf i s).hashlen ≠ s.hashlen → i.opcode = 0x01) ∧
    ((effectOf i s).comp ≠ s.comp → i.opcode ∈ [0x20#8, 0x01#8]) ∧
    ((effectOf i s).hash ≠ s.hash → i.opcode ∈ [0x40#8, 0x01#8]) := by
  cases i <;> simp [effectOf, Instr.opcode]

/-- The only command of opcode 0x01 is ENCODE (R105). -/
theorem eq_encode_of_opcode {i : Instr} (h : i.opcode = 0x01) : ∃ rsv, i = .encode rsv := by
  cases i <;> simp_all [Instr.opcode]

/-! ## STATUS and HASHLEN after a Complete step -/

/-- Every Complete step answers a next state, in which the command has ended (R36 to R40, R52). -/
theorem complete_ends (s : State) : ∃ t, complete s = .next t ∧ t.status.busy = false ∧ t.status.done = true ∧
    t.status.ovr = s.status.ovr ∧ t.status.err = decide (t.status.ecode ≠ 0) ∧
    t.status.ecode.toNat ≤ 5 ∧ t.cmd = s.cmd ∧ t.pixDisturbed = false := by
  rcases complete_cases s with ⟨e, herr⟩ | ⟨i, -, -, hok⟩
  · exact ⟨_, herr, rfl, rfl, rfl, (decide_eq_true e.code_ne_zero).symm, e.code_range.2, rfl, rfl⟩
  · obtain ⟨hcmd, hstatus, -⟩ := effectOf_keeps i s
    refine ⟨_, hok, rfl, rfl, ?_, rfl, Nat.zero_le 5, hcmd, rfl⟩
    rw [State.completed_status, Status.succeeded_ovr, hstatus]

/-- The lengths HASHLEN can hold (R51, R122). -/
def HashlenLegal (l : Byte) : Prop :=
  l = 0 ∨ ∃ nx ny, 1 ≤ nx ∧ nx ≤ 9 ∧ 1 ≤ ny ∧ ny ≤ 9 ∧ l.toNat = hashLength (nx * ny)

/-- A Complete step keeps HASHLEN, or leaves the length of the grid's hash (R51, R263). -/
theorem complete_hashlen {s t : State} (h : complete s = .next t) (hs : HashlenLegal s.hashlen) :
    HashlenLegal t.hashlen := by
  rcases complete_cases s with ⟨e, herr⟩ | ⟨i, -, hpass, hok⟩
  · obtain rfl := Host.Outcome.next.inj (herr.symm.trans h)
    exact hs
  · obtain rfl := Host.Outcome.next.inj (hok.symm.trans h)
    rw [State.completed_hashlen]
    by_cases hkept : (effectOf i s).hashlen = s.hashlen
    · rwa [hkept]
    · obtain ⟨-, -, -, hwriter, -⟩ := effectOf_writers i s
      obtain ⟨rsv, rfl⟩ := eq_encode_of_opcode (hwriter hkept)
      have hgrid : s.ncompOk = true := firstError_eq_none.mp hpass (s.ncompOk, .badNcomp) (by simp [checksOf])
      obtain ⟨hnx, hnx9, hny, hny9⟩ := s.ncompOk_iff.mp hgrid
      obtain ⟨hlen, -⟩ := encodeEffect_lengths (cfg := Config.hw) hgrid
      exact .inr ⟨s.nx.toNat, s.ny.toNat, hnx, hnx9, hny, hny9, hlen⟩

end Sys2Proof.Machine
end

section
/-! SUPPORT. Every one of the six things a step can do keeps the state consistent (R36 to R40, R51, R72, R81). -/

namespace Sys2Proof.Machine

/-- Consistency reads PIX, STATUS, the mark of R81 and HASHLEN, and nothing else of the state. -/
theorem State.Consistent.of_same {s t : State} (hs : s.Consistent) (hpix : t.pix = s.pix)
    (hstatus : t.status = s.status) (hmark : t.pixDisturbed = s.pixDisturbed) (hlen : t.hashlen = s.hashlen) :
    t.Consistent where
  pixWf := hpix ▸ hs.pixWf
  pixInRange := hpix ▸ hs.pixInRange
  errIffEcode := hstatus ▸ hs.errIffEcode
  ecodeLegal := hstatus ▸ hs.ecodeLegal
  busyNotDone := hstatus ▸ hs.busyNotDone
  markOnlyBusy := by rw [hmark, hstatus]; exact hs.markOnlyBusy
  hashlenLegal := hlen ▸ hs.hashlenLegal

/-- A Complete step ends the command, which clears BUSY and the mark together (R36, R81). -/
theorem State.Consistent.complete {s t : State} (hs : s.Consistent) (h : complete s = .next t) : t.Consistent := by
  obtain ⟨t', h', hbusy, -, -, herr, hecode, -, hmark⟩ := complete_ends s
  obtain rfl := Host.Outcome.next.inj (h'.symm.trans h)
  obtain ⟨-, -, hpix, -⟩ := complete_keeps h
  exact {
    pixWf := hpix ▸ hs.pixWf
    pixInRange := hpix ▸ hs.pixInRange
    errIffEcode := herr
    ecodeLegal := hecode
    busyNotDone := by simp [hbusy]
    markOnlyBusy := by simp [hmark]
    hashlenLegal := complete_hashlen h hs.hashlenLegal }

/-- A read changes nothing of the block (R78). -/
theorem State.Consistent.readReg {s : State} (hs : s.Consistent) (r : Reg) : (s.readReg r).Consistent := by
  rcases s.readReg_cases r with ⟨-, -, h⟩ | ⟨-, h⟩ <;> exact h ▸ hs.of_same rfl rfl rfl rfl

/-- Of STATUS, a write can only set BUSY with DONE clear, set OVR, or clear DONE and OVR (R34, R35, R39). -/
theorem State.Consistent.with_status {s : State} (hs : s.Consistent) {st : Status}
    (herr : st.err = s.status.err) (hecode : st.ecode = s.status.ecode)
    (hbusy : s.status.busy = true → st.busy = true) (hdone : st.busy = true → st.done = false) :
    State.Consistent { s with status := st } where
  pixWf := hs.pixWf
  pixInRange := hs.pixInRange
  errIffEcode := by show st.err = decide (st.ecode ≠ 0); rw [herr, hecode]; exact hs.errIffEcode
  ecodeLegal := by show st.ecode.toNat ≤ 5; rw [hecode]; exact hs.ecodeLegal
  busyNotDone := hdone
  markOnlyBusy := fun hmark => hbusy (hs.markOnlyBusy hmark)
  hashlenLegal := hs.hashlenLegal

/-- A performed write of CMD accepts a command, one of STATUS clears bits, and the others store fields no condition
reads (R34 to R54). -/
theorem State.Consistent.storeReg {s : State} (hs : s.Consistent) (r : Reg) (v : Word32) :
    (s.storeReg r v).Consistent := by
  cases r with
  | cmd =>
    have haccepted := hs.with_status (st := s.status.accepted) rfl rfl (fun _ => rfl) (fun _ => rfl)
    exact haccepted.of_same rfl rfl rfl rfl
  | status =>
    refine hs.with_status rfl rfl id fun hbusy => ?_
    rw [Status.clearedBy_done, hs.busyNotDone hbusy, Bool.false_and]
  | _ => exact hs.of_same rfl rfl rfl rfl

/-- A dropped write sets OVR, which no condition reads (R39). -/
theorem State.Consistent.writeReg {s : State} (hs : s.Consistent) (r : Reg) (v : Word32) :
    (s.writeReg r v).Consistent := by
  rcases s.writeReg_cases r v with ⟨-, -, h⟩ | ⟨-, h⟩
  · exact h ▸ hs.with_status rfl rfl id hs.busyNotDone
  · exact h ▸ hs.storeReg r v

/-- A fill inside PIX keeps the canonical form, and sets the mark only while BUSY (R72, R81). -/
theorem State.Consistent.fillPixels {s : State} (hs : s.Consistent) {addr : Nat} {bytes : List Byte}
    (hfits : addr + bytes.length ≤ Config.hw.pixBytes) : (s.fillPixels addr bytes).Consistent where
  pixWf := Memory.writeBytes_wf hs.pixWf addr bytes
  pixInRange := fun c hc => by
    rcases Memory.mem_writeBytes hc with hold | hnew
    · exact hs.pixInRange c hold
    · exact hnew.trans_le hfits
  errIffEcode := hs.errIffEcode
  ecodeLegal := hs.ecodeLegal
  busyNotDone := hs.busyNotDone
  markOnlyBusy := fun hmark => by
    rcases Bool.or_eq_true_iff.mp hmark with hold | hnew
    · exact hs.markOnlyBusy hold
    · exact (Bool.and_eq_true_iff.mp hnew).1
  hashlenLegal := hs.hashlenLegal

/-- A reset leaves PIX and puts the rest at values that are consistent (R340). -/
theorem State.Consistent.resetBlock {s : State} (hs : s.Consistent) : s.resetBlock.Consistent where
  pixWf := hs.pixWf
  pixInRange := hs.pixInRange
  errIffEcode := rfl
  ecodeLegal := Nat.zero_le 5
  busyNotDone := nofun
  markOnlyBusy := nofun
  hashlenLegal := .inl rfl

theorem BlockStep.consistent {s t : State} (h : BlockStep s t) (hs : s.Consistent) : t.Consistent := by
  cases h with
  | idle => exact hs
  | complete hbusy hnext => exact hs.complete hnext
  | read r => exact hs.readReg r
  | write r v => exact hs.writeReg r v
  | fill hfits => exact hs.fillPixels hfits
  | reset => exact hs.resetBlock

end Sys2Proof.Machine
end

section
/-! SUPPORT. Progress: while the agenda is legal every step answers a state whose agenda is legal, and works off some
of what is left (R352). -/

namespace Sys2Proof.Machine

/-- Every event on the agenda has a meaning (R70, R71, R76). -/
def State.AgendaLegal (s : State) : Prop := ∀ e ∈ s.agenda, e.legal Config.hw = true

/-- How many steps may be left: two per event, since a write of CMD is followed by a turn of the block, and one for
the command held. -/
def State.work (s : State) : Nat := 2 * s.agenda.length + s.status.busy.toNat

theorem State.work_eq_zero_iff (s : State) : s.work = 0 ↔ s.agenda = [] ∧ s.status.busy = false := by
  unfold State.work
  cases s.status.busy <;> simp

/-- A step that leaves at most one more command held takes an event off the agenda. -/
theorem State.work_lt_of_tail {s t : State} {e : Event} (h : s.agenda = e :: t.agenda) : t.work < s.work := by
  have hbusy := t.status.busy.toNat_le
  unfold State.work
  rw [h, List.length_cons]
  omega

/-- A Complete step leaves the agenda and clears BUSY (R36). -/
theorem complete_work_lt {s t : State} (hbusy : s.status.busy = true) (h : complete s = .next t) :
    t.work < s.work := by
  obtain ⟨t', h', hidle, -⟩ := complete_ends s
  obtain rfl := Host.Outcome.next.inj (h'.symm.trans h)
  obtain ⟨hagenda, -⟩ := complete_keeps h
  unfold State.work
  rw [hagenda, hidle, hbusy]
  simp

@[simp] theorem State.readReg_agenda (s : State) (r : Reg) : (s.readReg r).agenda = s.agenda := by
  rcases s.readReg_cases r with ⟨-, -, h⟩ | ⟨-, h⟩ <;> rw [h]

@[simp] theorem State.writeReg_agenda (s : State) (r : Reg) (v : Word32) : (s.writeReg r v).agenda = s.agenda := by
  rcases s.writeReg_cases r v with ⟨-, -, h⟩ | ⟨-, h⟩ <;> rw [h]
  exact s.storeReg_agenda r v

/-- An event with a meaning, other than the block's turn and a WAIT, happens and is off the agenda. -/
theorem happen_legal {e : Event} {s : State} (hlegal : e.legal Config.hw = true) (hturn : e ≠ .complete)
    (hwait : e ≠ .wait) : ∃ t, happen Config.hw e s = .next t ∧ t.agenda = s.agenda := by
  cases e with
  | read a => exact ⟨_, if_pos hlegal, s.readReg_agenda _⟩
  | write a v => exact ⟨_, if_pos hlegal, s.writeReg_agenda _ v⟩
  | pixWrite addr bytes => exact ⟨_, hostPixWrite_inside s (of_decide_eq_true hlegal), rfl⟩
  | reset => exact ⟨_, rfl, rfl⟩
  | wait => exact absurd rfl hwait
  | complete => exact absurd rfl hturn

/-- From a state with work left and a legal agenda, a step answers a state with less work, whose agenda is the old one
or its tail. -/
theorem step_progress {s : State} (hlegal : s.AgendaLegal) (hwork : s.work ≠ 0) :
    ∃ t, step s = .next t ∧ (∀ e ∈ t.agenda, e ∈ s.agenda) ∧ t.work < s.work := by
  obtain ⟨c, hcomplete, -⟩ := complete_ends s
  obtain ⟨hkept, -⟩ := complete_keeps hcomplete
  rcases hagenda : s.agenda with _ | ⟨e, rest⟩
  · have hbusy : s.status.busy = true := by
      by_contra hidle
      exact hwork (s.work_eq_zero_iff.mpr ⟨hagenda, Bool.eq_false_iff.mpr hidle⟩)
    refine ⟨c, ?_, by rw [hkept, hagenda]; exact fun _ => id, complete_work_lt hbusy hcomplete⟩
    rw [step_idle hagenda, blockTurn_busy hbusy, hcomplete]
  · have of_tail {t : State} (hstep : step s = .next t) (htail : t.agenda = rest) :
        ∃ t, step s = .next t ∧ (∀ e' ∈ t.agenda, e' ∈ e :: rest) ∧ t.work < s.work :=
      ⟨t, hstep, fun e' he' => List.mem_cons_of_mem _ (htail ▸ he'),
        State.work_lt_of_tail (e := e) (by rw [hagenda, htail])⟩
    by_cases hturn : e = .complete
    · subst hturn
      cases hbusy : s.status.busy
      · exact of_tail ((step_event hagenda).trans (blockTurn_idle hbusy)) rfl
      · obtain ⟨t, ht, -⟩ := complete_ends { s with agenda := rest }
        have hturn' := (blockTurn_busy (s := { s with agenda := rest }) hbusy).trans ht
        exact of_tail ((step_event hagenda).trans hturn') (complete_keeps ht).1
    · by_cases hwait : e = .wait
      · subst hwait
        cases hbusy : s.status.busy
        · exact of_tail (step_wait_idle hagenda hbusy) (State.readReg_agenda _ _)
        · exact ⟨c, (step_wait_busy hagenda hbusy).trans hcomplete, by rw [hkept, hagenda]; exact fun _ => id,
            complete_work_lt hbusy hcomplete⟩
      · obtain ⟨t, ht, htail⟩ := happen_legal (s := { s with agenda := rest })
          (hlegal e (by rw [hagenda]; exact List.mem_cons_self)) hturn hwait
        exact of_tail ((step_event hagenda).trans ht) htail

/-- With no work left the block is idle and a step changes nothing (R318). -/
theorem step_of_no_work {s : State} (h : s.work = 0) : step s = .next s := by
  obtain ⟨hagenda, hidle⟩ := s.work_eq_zero_iff.mp h
  rw [step_idle hagenda, blockTurn_idle hidle]

/-- From a legal agenda the machine never stops (R76). -/
theorem State.AgendaLegal.safeRun {s : State} (hs : s.AgendaLegal) : SafeRun s := by
  intro k
  induction k generalizing s with
  | zero => exact ⟨s, rfl⟩
  | succ k ih =>
    by_cases hwork : s.work = 0
    · rw [run_succ (step_of_no_work hwork)]
      exact ih hs
    · obtain ⟨t, hstep, hsub, -⟩ := step_progress hs hwork
      rw [run_succ hstep]
      exact ih fun e he => hs e (hsub e he)

/-- From a legal agenda all work is done after at most as many steps as there is work (R352). -/
theorem State.AgendaLegal.worked_off {s : State} (hs : s.AgendaLegal) :
    ∃ k t, k ≤ s.work ∧ Sys2Proof.core.run k s = .next t ∧ t.work = 0 := by
  induction hn : s.work using Nat.strong_induction_on generalizing s with
  | _ n ih =>
    by_cases hwork : s.work = 0
    · exact ⟨0, s, Nat.zero_le _, rfl, hwork⟩
    · obtain ⟨t, hstep, hsub, hless⟩ := step_progress hs hwork
      obtain ⟨k, u, hk, hrun, hdone⟩ := ih t.work (hn ▸ hless) (fun e he => hs e (hsub e he)) rfl
      exact ⟨k + 1, u, by omega, (run_succ hstep).trans hrun, hdone⟩

end Sys2Proof.Machine
end

section
/-! SUPPORT. The statements about consistency, safety and progress of the whole machine, settled. -/

namespace Sys2Proof.Machine

/-- Settles O34: a command error and a success leave the same fields of STATUS but for ERR and ECODE, which agree. -/
theorem everyAcceptedCommandCompletes : Obligations.EveryAcceptedCommandCompletes := complete_ends

/-- Settles O42: a step is one of six things once its event is off the agenda, which no condition reads, and each of
the six keeps the conditions. -/
theorem everyStepKeepsTheStateConsistent : Obligations.EveryStepKeepsTheStateConsistent := by
  intro s t hs hstep
  obtain ⟨rest, hblock⟩ := step_blockStep hstep
  exact hblock.consistent (hs.of_same rfl rfl rfl rfl)

/-- Settles O43: nothing is listed in PIX, and the other fields are at values that are consistent. -/
theorem resetStateIsConsistent : Obligations.ResetStateIsConsistent where
  pixWf := ⟨List.Pairwise.nil, nofun⟩
  pixInRange := nofun
  errIffEcode := rfl
  ecodeLegal := Nat.zero_le 5
  busyNotDone := nofun
  markOnlyBusy := nofun
  hashlenLegal := .inl rfl

/-- Settles O44: a legal agenda stays legal, so a next state follows every step. -/
theorem legalHostAccessesNeverStopTheMachine : Obligations.LegalHostAccessesNeverStopTheMachine :=
  fun _ hlegal => State.AgendaLegal.safeRun hlegal

/-- Settles O45: every step takes an event off the agenda or ends the command held, so the work left falls, from at
most two per event and one. -/
theorem legalAgendasAreWorkedOff : Obligations.LegalAgendasAreWorkedOff := by
  intro s hlegal
  obtain ⟨k, t, hk, hrun, hdone⟩ := State.AgendaLegal.worked_off hlegal
  obtain ⟨hagenda, hidle⟩ := t.work_eq_zero_iff.mp hdone
  have hbound : s.work ≤ 2 * s.agenda.length + 1 := Nat.add_le_add_left s.status.busy.toNat_le _
  exact ⟨k, t, hk.trans hbound, hrun, hagenda, hidle⟩

end Sys2Proof.Machine
end

section
/-! SUPPORT. What the host can and cannot change while a command is held, which offsets read as results, and the
values of the plain registers (R32 to R51, R75, R79 to R81). -/

namespace Sys2Proof.Machine

/-! ## The operands of the held command -/

/-- What a Complete step finds: BUSY, the command word, and everything a command reads short of PIX (R79). -/
def State.operands (s : State) :=
  (s.status.busy, s.cmd, s.width, s.height, s.nx, s.ny, s.arg, s.argf, s.comp, s.hash, s.max)

@[simp] theorem State.operands_readReg (s : State) (r : Reg) : (s.readReg r).operands = s.operands := by
  rcases s.readReg_cases r with ⟨-, -, h⟩ | ⟨-, h⟩ <;> rw [h] <;> rfl

@[simp] theorem State.operands_fillPixels (s : State) (addr : Nat) (bytes : List Byte) :
    (s.fillPixels addr bytes).operands = s.operands := rfl

/-- A write while BUSY is dropped, or is of a register that is no operand (R39, R79). -/
theorem State.operands_writeReg_busy {s : State} (hbusy : s.status.busy = true) (r : Reg) (v : Word32) :
    (s.writeReg r v).operands = s.operands := by
  cases hop : r.isOperand
  · rw [State.writeReg_performed v (.inr hop)]
    cases r with
    | cmd | dim | ncomp | arg | argfLo | argfHi | comp => cases hop
    | _ => rfl
  · rw [State.writeReg_dropped v hbusy hop]
    rfl

/-! ## Result offsets -/

/-- The offsets whose reads are unspecified while BUSY (R80). -/
theorem regAt_isResult_iff {o : Nat} (ha : o % 4 = 0) (ho : o < 4096) : (regAt o).isResult = true ↔
    (0x020 ≤ o ∧ o ≤ 0x040) ∨ (0x400 ≤ o ∧ o < 0xB98) ∨ (0xC00 ≤ o ∧ o < 0xCA8) := by
  have ranges : o < 0x044 ∨ (0x400 ≤ o ∧ o < 0xB98) ∨ (0xC00 ≤ o ∧ o < 0xCA8) ∨
      ((0x044 ≤ o ∧ o < 0x400) ∨ (0xB98 ≤ o ∧ o < 0xC00) ∨ (0xCA8 ≤ o ∧ o < 0x1000)) := by omega
  rcases ranges with hlow | hcomp | hhash | hres
  · have registers : ∀ o < 0x044, o % 4 = 0 → ((regAt o).isResult = true ↔ 0x020 ≤ o ∧ o ≤ 0x040) := by decide
    rw [registers o hlow ha]
    omega
  · obtain ⟨n, c, k, hr⟩ := regAt_comp_window ha hcomp
    rw [hr]
    exact iff_of_true rfl (.inr (.inl hcomp))
  · obtain ⟨w, hr⟩ := regAt_hash_window ha hhash
    rw [hr]
    exact iff_of_true rfl (.inr (.inr hhash))
  · rw [regAt_reserved hres]
    exact iff_of_false nofun (by omega)

/-! ## Zero-padded register words -/

/-- Padding with zeros keeps the value (R33). -/
theorem toNat_zero_append {n m : Nat} (x : BitVec m) : (0#n ++ x).toNat = x.toNat := by
  rw [toNat_append_eq_mul_add, BitVec.toNat_ofNat, Nat.zero_mod, Nat.zero_mul, Nat.zero_add]

/-- NCOMP: NX in bits 3..0 and NY in bits 7..4 (R43). -/
theorem State.regValue_ncomp_toNat (s : State) : (s.regValue .ncomp).toNat = s.ny.toNat * 16 + s.nx.toNat := by
  rw [State.regValue, toNat_append_eq_mul_add, toNat_zero_append]
  rfl

/-! ## The mark of R81 -/

/-- A fill sets the mark exactly when it falls in BUSY and reaches a byte of the grid that commands read (R81). -/
theorem State.fillPixels_pixDisturbed_iff (s : State) (addr : Nat) (bytes : List Byte) :
    (s.fillPixels addr bytes).pixDisturbed = true ↔ s.pixDisturbed = true ∨ (s.status.busy = true ∧
      ∃ k, k < bytes.length ∧ addr + k < 4 * s.width.toNat * s.height.toNat ∧ (addr + k) % 4 ≠ 3) := by
  simp only [State.fillPixels, State.readsPixelByte, Bool.or_eq_true, Bool.and_eq_true, List.any_eq_true,
    List.mem_range, decide_eq_true_eq, Nat.mul_assoc]

end Sys2Proof.Machine
end

section
/-! SUPPORT. The statements about host accesses, fills, resets and the step itself, settled (10_state.md,
20_memory.md, 70_reset_and_hazards.md). -/

namespace Sys2Proof.Machine

/-- Settles O6: each agenda selects its branch of the step, and the Complete step is that of the decoder's answer. -/
theorem stepRunsTheDecodedCommand : Obligations.StepRunsTheDecodedCommand := by
  have turn {s : State} {rest : List Event} (hagenda : s.agenda = .complete :: rest) :
      step s = blockTurn { s with agenda := rest } := step_event hagenda
  have runs {u : State} {i : Instr} (hbusy : u.status.busy = true) (hdecode : decode u.cmd = .ok i) :
      blockTurn u = exec i u := (blockTurn_busy hbusy).trans (complete_of_decode_ok hdecode)
  have fails {u : State} {e : DecodeError} (hbusy : u.status.busy = true) (hdecode : decode u.cmd = .error e) :
      blockTurn u = .next (u.failedWith 1) := (blockTurn_busy hbusy).trans (complete_of_decode_error hdecode)
  refine ⟨fun s i hbusy hdecode => ⟨fun hagenda => ?_, fun rest hagenda => ?_, fun rest hagenda => ?_⟩,
    fun s e hbusy hdecode => ⟨fun hagenda => ?_, fun rest hagenda => ?_, fun rest hagenda => ?_⟩,
    fun s hidle => ⟨fun hagenda => ?_, fun rest hagenda => ?_, fun rest hagenda => ?_⟩,
    fun s rest a v => ⟨fun hagenda => step_event hagenda, fun hagenda => step_event hagenda⟩, ?_⟩
  · exact (step_idle hagenda).trans (runs hbusy hdecode)
  · exact (turn hagenda).trans (runs (u := { s with agenda := rest }) hbusy hdecode)
  · exact (step_wait_busy hagenda hbusy).trans (complete_of_decode_ok hdecode)
  · exact (step_idle hagenda).trans (fails hbusy hdecode)
  · exact (turn hagenda).trans (fails (u := { s with agenda := rest }) hbusy hdecode)
  · exact (step_wait_busy hagenda hbusy).trans (complete_of_decode_error hdecode)
  · exact (step_idle hagenda).trans (blockTurn_idle hidle)
  · exact (turn hagenda).trans (blockTurn_idle (s := { s with agenda := rest }) hidle)
  · rw [step_wait_idle hagenda hidle, hostRead_aligned _ (by decide) (by decide)]
    rfl
  · intro s w accepted
    have hword : BitVec.ofNat 32 (w.toNat % 2 ^ 32) = w := by
      rw [Nat.mod_eq_of_lt w.isLt, BitVec.ofNat_toNat, BitVec.setWidth_eq]
    have hplaced : { s.withFetchWord 32 w.toNat with agenda := s.agenda } = accepted := by
      rw [State.withFetchWord, hword, Status.accepted]
    have hturn : step (s.withFetchWord 32 w.toNat) = blockTurn accepted := hplaced ▸ turn rfl
    exact ⟨fun i hdecode => hturn.trans (runs (u := accepted) rfl hdecode),
      fun e hdecode => hturn.trans (fails (u := accepted) rfl hdecode)⟩

/-- Settles O10: a read and a fill change no operand, and a write while BUSY is dropped or is of another register. -/
theorem operandsAreStableWhileBusy : Obligations.OperandsAreStableWhileBusy := by
  intro s t e rest hbusy hagenda hreset hturn hwait hstep
  have hevent := (step_event hagenda).symm.trans hstep
  have hkept : t.operands = s.operands := by
    cases e with
    | read a => rw [hostRead_next hevent, State.operands_readReg]; rfl
    | write a v =>
      rw [hostWrite_next hevent]
      exact State.operands_writeReg_busy (s := { s with agenda := rest }) hbusy _ v
    | pixWrite addr bytes => rw [(hostPixWrite_next hevent).2, State.operands_fillPixels]; rfl
    | wait => exact absurd rfl hwait
    | reset => exact absurd rfl hreset
    | complete => exact absurd rfl hturn
  simpa only [State.operands, hbusy, Prod.mk.injEq] using hkept

/-- Settles O11: the offsets of R80 are those of the result registers; each plain register's word is its field padded
with zeros, or a half of its field. -/
theorem readsHaveNoSideEffect : Obligations.ReadsHaveNoSideEffect := by
  refine ⟨fun s o ha ho => ?_, fun s => ?_⟩
  · intro result
    rw [hostRead_aligned s ha ho]
    refine ⟨fun hbusy hres => congrArg _ ?_, fun hdefined => congrArg _ (State.readReg_defined ?_)⟩
    · exact State.readReg_busy_result hbusy ((regAt_isResult_iff ha ho).mpr hres)
    · exact hdefined.imp_right fun hres => Bool.eq_false_iff.mpr (mt (regAt_isResult_iff ha ho).mp hres)
  · refine ⟨(toNat_zero_append _).trans (BitVec.toNat_ofBool s.ie), toNat_append_eq_mul_add _ _,
      s.regValue_ncomp_toNat, rfl, rfl, rfl, rfl, rfl, rfl, toNat_zero_append _, rfl, rfl, rfl, rfl,
      toNat_zero_append _⟩

/-- Settles O14: CTRL is no operand register and the others are stored because the block is idle; the registers from
0x020 to 0x040 ignore writes. -/
theorem operandWritesStoreTheFields : Obligations.OperandWritesStoreTheFields := by
  refine ⟨fun s o v ha hlo hhi => ?_, fun s v hidle => ?_⟩
  · rw [hostWrite_aligned s v ha (by omega), s.writeReg_ignored v (regAt_ignoresWrites ha (by omega) (by omega))]
  · have stored {o : Nat} (ha : o % 4 = 0) (ho : o < 4096) :
        hostWrite ⟨o, 4⟩ v s = .next (s.storeReg (regAt o) v) := by
      rw [hostWrite_aligned s v ha ho, State.writeReg_performed v (.inl hidle)]
    exact ⟨stored rfl (by decide), stored rfl (by decide), stored rfl (by decide), stored rfl (by decide),
      stored rfl (by decide), stored rfl (by decide)⟩

/-- Settles O19: the step is the reset of the block, whose fields are those of `State.resetAt`. -/
theorem resetEventAbandonsTheCommand : Obligations.ResetEventAbandonsTheCommand :=
  fun _ _ hagenda => ⟨_, step_event hagenda, rfl, rfl, rfl, rfl, rfl, rfl, rfl, rfl, rfl, rfl, rfl, rfl, rfl, rfl,
    rfl, rfl, rfl, rfl, rfl⟩

/-- Settles O20: the bytes of the fill read back and the others stay, and the mark is set by a byte of the grid that
commands read. -/
theorem pixelFillsWriteOnlyTheirBytes : Obligations.PixelFillsWriteOnlyTheirBytes := by
  intro s addr bytes rest hwf hagenda hfits
  exact ⟨_, (step_event hagenda).trans (hostPixWrite_inside _ hfits), Memory.writeBytes_wf hwf addr bytes,
    fun k hk => Memory.read_writeBytes_inside hwf addr k bytes hk,
    fun a ha => Memory.read_writeBytes_outside s.pix bytes ha, s.fillPixels_pixDisturbed_iff addr bytes, rfl⟩

/-- Settles O21: the bytes do not lie in PIX. -/
theorem fillsBeyondPixFault : Obligations.FillsBeyondPixFault :=
  fun _ _ _ _ hagenda hbeyond => (step_event hagenda).trans (if_neg (Nat.not_le.mpr hbeyond))

end Sys2Proof.Machine
end

section
/-! SUPPORT. What the mark of R81 and the unread bytes of PIX can and cannot make a difference to (R74, R81, R177). -/

namespace Sys2Proof.Machine

/-! ## The mark of R81 -/

/-- No check reads the mark. -/
theorem checksOf_pixDisturbed (i : Instr) (s : State) (b : Bool) :
    checksOf i { s with pixDisturbed := b } = checksOf i s := by
  cases i <;> rfl

/-- The commands that read no pixel neither read nor change the mark (log entry 8). -/
theorem effectOf_pixDisturbed {i : Instr} (s : State) (b : Bool) (h : i.opcode ∉ [0x01#8, 0x20#8]) :
    effectOf i { s with pixDisturbed := b } = { effectOf i s with pixDisturbed := b } := by
  cases i with
  | encode rsv | basis rsv j i => exact absurd (by simp [Instr.opcode]) h
  | _ => rfl

/-- A disturbed BASIS changes its one slot, and takes draws (R81). -/
theorem basisEffect_disturbed_frame {cfg : Config} {s : State} (hmark : s.pixDisturbed = true) (j i : BitVec 4) :
    (∀ n, n ≠ s.slotOf i.toNat j.toNat → (basisEffect cfg j i s).slot n = s.slot n) ∧
    basisEffect cfg j i s =
      { s with comp := (basisEffect cfg j i s).comp, draws := (basisEffect cfg j i s).draws } := by
  rw [basisEffect_disturbed hmark]
  refine ⟨fun n hn => ?_, rfl⟩
  rw [State.slot_of_comp (State.drew_comp _ 3), State.slot_setSlot, if_neg fun hsame => hn hsame.1.symm]

/-- ENCODE changes no field but the buffers, the registers R263 names and the draws, disturbed or not. -/
theorem encodeEffect_completed (cfg : Config) (s : State) : (encodeEffect cfg s).completed =
    { s with
      comp := (encodeEffect cfg s).comp, hash := (encodeEffect cfg s).hash
      hashlen := (encodeEffect cfg s).hashlen, resi := (encodeEffect cfg s).resi
      actmax := (encodeEffect cfg s).actmax, scale := (encodeEffect cfg s).scale
      max := (encodeEffect cfg s).max, draws := (encodeEffect cfg s).draws
      status := s.status.succeeded, pixDisturbed := false } := by
  apply State.ext <;> simp

/-! ## Bytes no command reads -/

/-- Two pixel memories agree on the R, G and B bytes of a grid (R73, R74). -/
def SameGrid (w h : Nat) (pix pix' : List Host.Cell) : Prop :=
  ∀ a, a < 4 * (w * h) → a % 4 ≠ 3 → Memory.read pix a = Memory.read pix' a

section
variable {w h : Nat} {pix pix' : List Host.Cell}

/-- Every channel of every pixel is an R, G or B byte of the grid (R73). -/
theorem SameGrid.channel (hsame : SameGrid w h pix pix') {x y c : Nat} (hx : x < w) (hy : y < h) (hc : c < 3) :
    channel pix w x y c = channel pix' w x y c := by
  have hrow : (y + 1) * w ≤ h * w := Nat.mul_le_mul_right w hy
  have hinside : y * w + x < w * h := by rw [Nat.mul_comm w h]; linarith [Nat.succ_mul y w]
  unfold Machine.channel pixelAddress
  exact hsame _ (by omega) (by omega)

theorem SameGrid.addPixel (hsame : SameGrid w h pix pix') (cfg : Config) (i j : Nat) (acc : Triplet) {x y : Nat}
    (hx : x < w) (hy : y < h) : addPixel cfg pix w h i j y acc x = addPixel cfg pix' w h i j y acc x := by
  simp only [Machine.addPixel, hsame.channel hx hy (show 0 < 3 by decide), hsame.channel hx hy (show 1 < 3 by decide),
    hsame.channel hx hy (show 2 < 3 by decide)]

/-- `Basis(i, j)` reads no other byte (R74, R174). -/
theorem SameGrid.basis (hsame : SameGrid w h pix pix') (cfg : Config) (i j : Nat) :
    Machine.basis cfg pix w h i j = Machine.basis cfg pix' w h i j := by
  have hrow (acc : Triplet) (y : Nat) (hy : y ∈ List.range h) :
      addRow cfg pix w h i j acc y = addRow cfg pix' w h i j acc y :=
    List.foldl_ext _ _ _ fun acc' x hx => hsame.addPixel cfg i j acc' (List.mem_range.mp hx) (List.mem_range.mp hy)
  have hsum : basisSum cfg pix w h i j = basisSum cfg pix' w h i j := List.foldl_ext _ _ _ hrow
  rw [Machine.basis, hsum, Machine.basis]

theorem SameGrid.components (hsame : SameGrid w h pix pix') (cfg : Config) (nx ny : Nat) :
    Machine.components cfg pix w h nx ny = Machine.components cfg pix' w h nx ny :=
  List.map_congr_left fun n _ => hsame.basis cfg (n % nx) (n / nx)

end

/-- No check reads PIX. -/
theorem checksOf_pix (i : Instr) (s : State) (pix : List Host.Cell) :
    checksOf i { s with pix := pix } = checksOf i s := by
  cases i <;> rfl

/-- The writes of a command on another pixel memory that agrees on the grid (R74, R177). -/
theorem effectOf_pix (i : Instr) {s : State} {pix : List Host.Cell}
    (hsame : SameGrid s.width.toNat s.height.toNat pix s.pix) :
    effectOf i { s with pix := pix } = { effectOf i s with pix := pix } := by
  cases i with
  | basis rsv j i =>
    have hbasis : State.basis Config.hw { s with pix := pix } i.toNat j.toNat = s.basis Config.hw i.toNat j.toNat :=
      hsame.basis Config.hw i.toNat j.toNat
    simp only [effectOf]
    rcases Bool.eq_false_or_eq_true s.pixDisturbed with hmark | hmark
    · rw [basisEffect_disturbed hmark, basisEffect_disturbed (s := { s with pix := pix }) hmark]
      rfl
    · rw [basisEffect_undisturbed hmark, basisEffect_undisturbed (s := { s with pix := pix }) hmark, hbasis]
      rfl
  | encode rsv =>
    have hgrid := hsame.components Config.hw s.nx.toNat s.ny.toNat
    simp only [effectOf, encodeEffect, encodeWrites, hgrid]
    split <;> rfl
  | _ => rfl

/-- A command on another pixel memory that agrees on the grid ends in the same state but for PIX (R74, R177). -/
theorem exec_pix {i : Instr} {s t : State} {pix : List Host.Cell}
    (hsame : SameGrid s.width.toNat s.height.toNat pix s.pix) (hexec : exec i s = .next t) :
    exec i { s with pix := pix } = .next { t with pix := pix } := by
  have hchecks := checksOf_pix i s pix
  rcases exec_cases i s with ⟨e, hfails, herr⟩ | ⟨hpass, hok⟩
  · obtain rfl := Host.Outcome.next.inj (herr.symm.trans hexec)
    exact exec_err (hchecks ▸ hfails)
  · obtain rfl := Host.Outcome.next.inj (hok.symm.trans hexec)
    rw [exec_ok (hchecks ▸ hpass), effectOf_pix i hsame]
    rfl

/-- The Complete step on another pixel memory that agrees on the grid (R52, R81). -/
theorem complete_pix {s t : State} {pix : List Host.Cell} (hsame : SameGrid s.width.toNat s.height.toNat pix s.pix)
    (hcomplete : complete s = .next t) : complete { s with pix := pix } = .next { t with pix := pix } := by
  rcases decode_cases s.cmd with ⟨i, hdecode, -⟩ | ⟨hdecode, -⟩
  · rw [complete_of_decode_ok (s := { s with pix := pix }) hdecode]
    exact exec_pix hsame ((complete_of_decode_ok hdecode).symm.trans hcomplete)
  · obtain rfl := Host.Outcome.next.inj ((complete_of_decode_error hdecode).symm.trans hcomplete)
    exact complete_of_decode_error (s := { s with pix := pix }) hdecode

/-- A fill of bytes no command reads does not set the mark, so it changes PIX alone (R81). -/
theorem State.fillPixels_of_unread {s : State} {addr : Nat} {bytes : List Byte}
    (h : ∀ k, k < bytes.length → (addr + k) % 4 = 3 ∨ 4 * (s.width.toNat * s.height.toNat) ≤ addr + k) :
    s.fillPixels addr bytes = { s with pix := Memory.writeBytes s.pix addr bytes } := by
  have hmark : (s.fillPixels addr bytes).pixDisturbed = s.pixDisturbed := by
    rw [Bool.eq_iff_iff, State.fillPixels_pixDisturbed_iff, Nat.mul_assoc]
    refine or_iff_left ?_
    rintro ⟨-, k, hk, hinside, hread⟩
    have := h k hk
    omega
  calc s.fillPixels addr bytes
    _ = { s with pix := Memory.writeBytes s.pix addr bytes,
                 pixDisturbed := (s.fillPixels addr bytes).pixDisturbed } := rfl
    _ = { s with pix := Memory.writeBytes s.pix addr bytes } := by rw [hmark]

/-- After a fill of unread bytes the grid holds what it held (R81). -/
theorem sameGrid_writeBytes {w h addr : Nat} {bytes : List Byte} (pix : List Host.Cell)
    (hunread : ∀ k, k < bytes.length → (addr + k) % 4 = 3 ∨ 4 * (w * h) ≤ addr + k) :
    SameGrid w h (Memory.writeBytes pix addr bytes) pix := by
  intro a ha hread
  refine Memory.read_writeBytes_outside pix bytes ?_
  by_contra hinside
  have := hunread (a - addr) (by omega)
  omega

end Sys2Proof.Machine
end

section
/-! SUPPORT. The bytes a command writes to HASH, and the values MAX can take (R49, R121). -/

namespace Sys2Proof.Machine

/-! ## The bytes of HASH -/

theorem mem_hashString {cfg : Config} {nx ny : Nat} {comps : List Triplet} {c : Scale} {b : Byte}
    (h : b ∈ hashString cfg nx ny comps c) : b ∈ alphabet := by
  simp only [hashString, List.mem_append, List.mem_flatMap] at h
  rcases h with ((hflag | hscale) | hdc) | ⟨t, -, hac⟩
  · exact mem_base83 hflag
  · exact mem_base83 hscale
  · exact mem_base83 hdc
  · exact mem_base83 hac

/-- An undisturbed command writes a string over the alphabet to HASH, which may be empty (R121). -/
theorem effectOf_hash_undisturbed (i : Instr) {s : State} (hmark : s.pixDisturbed = false) :
    ∃ off bytes, (∀ b ∈ bytes, b ∈ alphabet) ∧ (effectOf i s).hash = (s.writeHash off bytes).hash := by
  cases i with
  | b83 rsvHi off rsvLo len => exact ⟨off.toNat, base83 s.arg.toNat len.toNat, fun _ => mem_base83, rfl⟩
  | encode rsv =>
    obtain ⟨-, hhash, -⟩ := encodeEffect_undisturbed (cfg := Config.hw) hmark
    refine ⟨0, _, fun b hb => ?_, hhash.trans (s.writeHash_hash 0 _).symm⟩
    exact mem_hashString hb
  | basis rsv j i => exact ⟨0, [], nofun, basisEffect_hash Config.hw s j i⟩
  | _ => exact ⟨0, [], nofun, rfl⟩

/-- A write of hash bytes leaves in each place one of its bytes or the byte that was there. -/
theorem State.hashByte_writeHash_mem (s : State) (off : Nat) (bytes : List Byte) {p : Nat} (hp : p < 166) :
    (s.writeHash off bytes).hashByte p = s.hashByte p ∨ (s.writeHash off bytes).hashByte p ∈ bytes := by
  rw [s.hashByte_writeHash off bytes p hp]
  split
  · by_cases hlen : p - off < bytes.length
    · rw [List.getD_eq_getElem _ _ hlen]
      exact .inr (List.getElem_mem hlen)
    · exact .inl (List.getD_eq_default _ _ (by omega))
  · exact .inl rfl

/-! ## The values of MAX -/

/-- ScaleSelect gives 1.0 without AC terms and (q + 1)/166 with them (R210, R211). -/
theorem scaleSelect_maximum_legal (acs : List Triplet) : MaxLegal (scaleSelect acs).maximum := by
  unfold scaleSelect
  split
  · exact .inl rfl
  · exact .inr ⟨_, quantizedScale_le _, rfl⟩

/-- An undisturbed command leaves MAX as it is, or at a value ScaleSelect gives (R212, R263). -/
theorem effectOf_max_legal (i : Instr) {s : State} (hmark : s.pixDisturbed = false) (hs : MaxLegal s.max) :
    MaxLegal (effectOf i s).max := by
  cases i with
  | encode rsv =>
    obtain ⟨-, -, -, -, hmax, -⟩ := encodeEffect_undisturbed (cfg := Config.hw) hmark
    exact hmax ▸ scaleSelect_maximum_legal _
  | qscale rsv => exact scaleSelect_maximum_legal _
  | basis rsv j i => exact (basisEffect_max Config.hw s j i).symm ▸ hs
  | _ => exact hs

theorem complete_max_legal {s t : State} (h : complete s = .next t) (hmark : s.pixDisturbed = false)
    (hs : MaxLegal s.max) : MaxLegal t.max := by
  rcases complete_cases s with ⟨e, herr⟩ | ⟨i, -, -, hok⟩
  · obtain rfl := Host.Outcome.next.inj (herr.symm.trans h)
    exact hs
  · obtain rfl := Host.Outcome.next.inj (hok.symm.trans h)
    exact effectOf_max_legal i hmark hs

/-- No host access reaches MAX, and a reset leaves 1.0 (R49, R340). -/
theorem BlockStep.max_legal {s t : State} (h : BlockStep s t) (hmark : s.pixDisturbed = false)
    (hs : MaxLegal s.max) : MaxLegal t.max := by
  cases h with
  | idle | fill => exact hs
  | complete hbusy hnext => exact complete_max_legal hnext hmark hs
  | read r => rcases s.readReg_cases r with ⟨-, -, h⟩ | ⟨-, h⟩ <;> exact h ▸ hs
  | write r v =>
    rcases s.writeReg_cases r v with ⟨-, -, h⟩ | ⟨-, h⟩
    · exact h ▸ hs
    · rw [h]
      cases r <;> exact hs
  | reset => exact .inl rfl

/-- The 83 values (q + 1)/166 are finite and in (0, 1] (R49). -/
theorem maximumOf_range : ∀ q < 83, Arith.isFinite (maximumOf q) = true ∧ Arith.lt 0 (maximumOf q) = true ∧
    Arith.le (maximumOf q) Arith.one = true := by
  decide +kernel

/-- Every legal MAX is finite and in (0, 1] (R49). -/
theorem maxLegal_range {m : F64} (h : MaxLegal m) :
    Arith.isFinite m = true ∧ Arith.lt 0 m = true ∧ Arith.le m Arith.one = true := by
  rcases h with rfl | ⟨q, hq, rfl⟩
  · decide +kernel
  · exact maximumOf_range q (by omega)

end Sys2Proof.Machine
end

section
/-! SUPPORT. The statements about what a command can read and write, settled. -/

namespace Sys2Proof.Machine

/-- Settles O31: a command that fails or reads no pixel leaves the same state with the mark and without it; BASIS and
ENCODE put draws where they would put their results. -/
theorem disturbedPixelsLeaveTheRestDefined : Obligations.DisturbedPixelsLeaveTheRestDefined := by
  intro s t u c hmark hexec hclear
  have hchecks := checksOf_pixDisturbed c s false
  rcases exec_cases c s with ⟨e, hfails, herr⟩ | ⟨hpass, hok⟩
  · obtain rfl := Host.Outcome.next.inj (herr.symm.trans hexec)
    obtain rfl := Host.Outcome.next.inj ((exec_err (hchecks ▸ hfails)).symm.trans hclear)
    exact ⟨rfl, rfl, fun _ => rfl, fun _ _ _ _ => ⟨fun _ _ => rfl, rfl⟩,
      fun _ _ hcode => absurd hcode e.code_ne_zero⟩
  · obtain rfl := Host.Outcome.next.inj (hok.symm.trans hexec)
    obtain rfl := Host.Outcome.next.inj ((exec_ok (hchecks ▸ hpass)).symm.trans hclear)
    refine ⟨?_, rfl, fun hread => ?_, ?_, ?_⟩
    · obtain ⟨-, hstatus, -⟩ := effectOf_keeps c s
      obtain ⟨-, hstatus', -⟩ := effectOf_keeps c { s with pixDisturbed := false }
      rw [State.completed_status, State.completed_status, hstatus, hstatus']
    · have hnone : c.opcode ∉ [0x01#8, 0x20#8] := hread.resolve_right (not_not_intro rfl)
      rw [effectOf_pixDisturbed s false hnone]
      rfl
    · rintro rsv j i rfl
      obtain ⟨hslots, hframe⟩ := basisEffect_disturbed_frame (cfg := Config.hw) hmark j i
      refine ⟨hslots, (congrArg State.completed hframe).trans ?_⟩
      rw [effectOf, State.completed_status, basisEffect_status]
      rfl
    · rintro rsv rfl -
      have hgrid : s.ncompOk = true := firstError_eq_none.mp hpass (s.ncompOk, .badNcomp) (by simp [checksOf])
      obtain ⟨hlen, hresi⟩ := encodeEffect_lengths (cfg := Config.hw) hgrid
      refine ⟨hlen, hresi.trans hlen.symm, fun n hn => encodeEffect_slot_behind Config.hw s hn, fun p hp => ?_,
        (encodeEffect_completed Config.hw s).trans ?_⟩
      · exact encodeEffect_hashByte_behind Config.hw s (hlen.symm.trans_le hp)
      · rw [effectOf, State.completed_status, encodeEffect_status]
        rfl

/-- Settles O35: a command error writes no result, and each command's writes are those of its rule. -/
theorem onlyTheNamedCommandsWriteEachResult : Obligations.OnlyTheNamedCommandsWriteEachResult := by
  intro i s t hexec
  rcases exec_cases i s with ⟨e, -, herr⟩ | ⟨-, hok⟩
  · obtain rfl := Host.Outcome.next.inj (herr.symm.trans hexec)
    simp
  · obtain rfl := Host.Outcome.next.inj (hok.symm.trans hexec)
    obtain ⟨-, -, hie, hwidth, hheight, hnx, hny, harg, hargf, hpix, -⟩ := effectOf_keeps i s
    obtain ⟨hresf, hresi, hscale, hhashlen, hcomp, hhash⟩ := effectOf_writers i s
    exact ⟨hresf, hresi, hscale, hhashlen, hcomp, hhash, hie, hwidth, hheight, hnx, hny, harg, hargf, hpix⟩

/-- Settles O36: what a command writes to HASH is a string over the alphabet, whose 83 codes are compared with those
of R121. -/
theorem hashBytesComeFromTheAlphabet : Obligations.HashBytesComeFromTheAlphabet := by
  refine ⟨fun i s t hmark hexec p hp => ?_, length_alphabet, by decide, by decide, by decide, rfl, by decide⟩
  rcases exec_cases i s with ⟨e, -, herr⟩ | ⟨-, hok⟩
  · obtain rfl := Host.Outcome.next.inj (herr.symm.trans hexec)
    exact .inl rfl
  · obtain rfl := Host.Outcome.next.inj (hok.symm.trans hexec)
    obtain ⟨off, bytes, hbytes, hhash⟩ := effectOf_hash_undisturbed i hmark
    rw [State.hashByte_of_hash ((State.completed_hash _).trans hhash)]
    exact (s.hashByte_writeHash_mem off bytes hp).imp_right (hbytes _)

/-- Settles O38: no check reads PIX, and the writes read R, G and B bytes of the grid alone. -/
theorem alphaAndOutsideBytesAreIgnored : Obligations.AlphaAndOutsideBytesAreIgnored :=
  fun _ _ _ _ hsame hexec => exec_pix hsame hexec

/-- Settles O39: the fill sets no mark and leaves the grid's R, G and B bytes as they are. -/
theorem fillsOfUnreadBytesAreHarmless : Obligations.FillsOfUnreadBytesAreHarmless := by
  intro s t addr bytes hunread hcomplete
  rw [State.fillPixels_of_unread hunread]
  exact complete_pix (sameGrid_writeBytes s.pix hunread) hcomplete

/-- Settles O40: of the things a step can do only a Complete step and a reset write MAX; the legal values are 1.0 and
83 quotients. -/
theorem maxStaysLegal : Obligations.MaxStaysLegal := by
  refine ⟨fun s t hs hmark hstep => ?_, .inl rfl, fun m hm => maxLegal_range hm⟩
  obtain ⟨rest, hblock⟩ := step_blockStep hstep
  exact hblock.max_legal hmark hs

end Sys2Proof.Machine
end

section
/-! SUPPORT. What ENCODE computes from DIM, NCOMP and PIX alone (R262, R265). -/

namespace Sys2Proof.Machine

/-- Two states that hold the same grid: DIM, NCOMP and PIX. -/
structure State.SameImage (s t : State) : Prop where
  width : s.width = t.width
  height : s.height = t.height
  nx : s.nx = t.nx
  ny : s.ny = t.ny
  pix : s.pix = t.pix

namespace State.SameImage

variable {s t : State} (h : s.SameImage t)
include h

theorem components : s.components = t.components := by
  rw [State.components, State.components, h.nx, h.ny]

theorem gridComponent (cfg : Config) (k : Nat) : s.gridComponent cfg k = t.gridComponent cfg k := by
  simp only [State.gridComponent, State.basis, h.nx, h.pix, h.width, h.height]

theorem gridComponents (cfg : Config) : s.gridComponents cfg = t.gridComponents cfg := by
  simp only [State.gridComponents, h.nx, h.ny, h.pix, h.width, h.height]

/-- ENCODE's checks read DIM and NCOMP alone (R263, R303, R306). -/
theorem checksOf_encode (rsv : BitVec 24) : checksOf (.encode rsv) s = checksOf (.encode rsv) t := by
  simp only [checksOf, State.ncompOk, State.dimOk, h.nx, h.ny, h.width, h.height]

end State.SameImage

@[simp] theorem State.slot_completed (s : State) (n : Nat) : s.completed.slot n = s.slot n := rfl

@[simp] theorem State.hashByte_completed (s : State) (p : Nat) : s.completed.hashByte p = s.hashByte p := rfl

/-- A byte of the string an undisturbed ENCODE writes (R262, R263). -/
theorem encodeEffect_hashByte_lt {cfg : Config} {s : State} (hmark : s.pixDisturbed = false)
    (hncomp : s.ncompOk = true) {p : Nat} (hp : p < hashLength s.components) (d : Byte) :
    (encodeEffect cfg s).hashByte p = (hashString cfg s.nx.toNat s.ny.toNat (s.gridComponents cfg)
      (scaleSelect (s.gridComponents cfg).tail)).getD p d := by
  obtain ⟨-, hmax⟩ := hashLength_range (State.components_le hncomp)
  have hlen : p < (hashString cfg s.nx.toNat s.ny.toNat (s.gridComponents cfg)
      (scaleSelect (s.gridComponents cfg).tail)).length := by
    rwa [length_hashString, length_components]
  rw [encodeEffect_hashByte hmark (by omega), List.getD_eq_getElem _ _ hlen, List.getD_eq_getElem _ _ hlen]

end Sys2Proof.Machine
end

section
/-! SUPPORT. A run of BASIS commands fills the slots it names with the grid's components, and the QSCALE after it
selects the scale ENCODE selects (R177, R212, R266). -/

namespace Sys2Proof.Machine

/-- A command that answers a next state, and the commands after it. -/
theorem execAll_cons {i : Instr} {rest : List Instr} {s t : State} (h : exec i s = .next t) :
    execAll (i :: rest) s = execAll rest t := by
  rw [execAll, h]

theorem execAll_append {is js : List Instr} {s t : State} (h : execAll is s = .next t) :
    execAll (is ++ js) s = execAll js t := by
  induction is generalizing s with
  | nil =>
    obtain rfl := Host.Outcome.next.inj h
    rfl
  | cons i is ih =>
    rcases exec_cases i s with ⟨e, -, hnext⟩ | ⟨-, hnext⟩ <;>
    · rw [execAll_cons hnext] at h
      rw [List.cons_append, execAll_cons hnext]
      exact ih h

/-- The BASIS command of a component given as (j, i). -/
def basisAt (p : Nat × Nat) : Instr := .basis 0 (BitVec.ofNat 4 p.1) (BitVec.ofNat 4 p.2)

/-- The components of a grid in the order of R266: j outer and i inner. -/
def gridOrder (nx ny : Nat) : List (Nat × Nat) := List.range ny ×ˢ List.range nx

theorem componentCommands_eq (nx ny : Nat) :
    componentCommands nx ny = (gridOrder nx ny).map basisAt ++ [.qscale 0] := by
  simp only [componentCommands, gridOrder, SProd.sprod, List.product, List.map_flatMap, List.map_map]
  rfl

theorem mem_gridOrder {nx ny : Nat} {p : Nat × Nat} : p ∈ gridOrder nx ny ↔ p.1 < ny ∧ p.2 < nx := by
  rw [gridOrder, List.mem_product, List.mem_range, List.mem_range]

/-- Slot n is that of a component of the grid exactly when it is below N (R176). -/
theorem mem_map_slotOf_iff (s : State) (n : Nat) :
    n ∈ (gridOrder s.nx.toNat s.ny.toNat).map (fun p => s.slotOf p.2 p.1) ↔ n < s.components := by
  rw [List.mem_map]
  constructor
  · rintro ⟨⟨j, i⟩, hp, rfl⟩
    obtain ⟨hj, hi⟩ := mem_gridOrder.mp hp
    calc j * s.nx.toNat + i < (j + 1) * s.nx.toNat := by rw [Nat.succ_mul]; exact Nat.add_lt_add_left hi _
      _ ≤ s.ny.toNat * s.nx.toNat := Nat.mul_le_mul_right _ hj
      _ = s.components := Nat.mul_comm _ _
  · intro hn
    have hnx : 0 < s.nx.toNat := Nat.pos_of_mul_pos_right (Nat.zero_lt_of_lt hn)
    refine ⟨(n / s.nx.toNat, n % s.nx.toNat), mem_gridOrder.mpr ⟨?_, Nat.mod_lt _ hnx⟩, ?_⟩
    · exact Nat.div_lt_of_lt_mul hn
    · exact Nat.div_add_mod' n s.nx.toNat

/-- A state in which BASIS can write the components of its grid. -/
structure State.Ready (s : State) : Prop where
  ncomp : s.ncompOk = true
  dim : s.dimOk Config.hw = true
  undisturbed : s.pixDisturbed = false

/-- The BASIS of a component of the grid writes that component to its slot (R176, R177). -/
theorem exec_basisAt {s : State} (hs : s.Ready) {p : Nat × Nat} (hp : p ∈ gridOrder s.nx.toNat s.ny.toNat) :
    exec (basisAt p) s =
      .next (s.setSlot (s.slotOf p.2 p.1) (s.gridComponent Config.hw (s.slotOf p.2 p.1))).completed := by
  obtain ⟨hj, hi⟩ := mem_gridOrder.mp hp
  have hjval : (BitVec.ofNat 4 p.1).toNat = p.1 := Nat.mod_eq_of_lt (hj.trans s.ny.isLt)
  have hival : (BitVec.ofNat 4 p.2).toNat = p.2 := Nat.mod_eq_of_lt (hi.trans s.nx.isLt)
  have hoperand : s.basisOperandOk (BitVec.ofNat 4 p.1) (BitVec.ofNat 4 p.2) = true := by
    rw [State.basisOperandOk_iff, hjval, hival]
    exact ⟨hi, hj⟩
  have hcomponent : s.gridComponent Config.hw (s.slotOf p.2 p.1) = s.basis Config.hw p.2 p.1 := by
    have hnx : 0 < s.nx.toNat := Nat.zero_lt_of_lt hi
    rw [State.gridComponent, State.slotOf, Nat.mul_add_mod_of_lt hi, Nat.mul_comm, Nat.mul_add_div hnx,
      Nat.div_eq_of_lt hi, Nat.add_zero]
  rw [basisAt, exec_basis_ok hs.ncomp hs.dim hoperand hs.undisturbed, hjval, hival, hcomponent]

/-- What a run of BASIS commands leaves: the slots named hold their components, the others what they held. -/
structure BasisRun (s : State) (ps : List (Nat × Nat)) (t : State) : Prop where
  frame : t = { s with comp := t.comp, status := t.status }
  slots : ∀ n < 81, t.slot n =
    if n ∈ ps.map (fun p => s.slotOf p.2 p.1) then s.gridComponent Config.hw n else s.slot n

theorem execAll_basisAt {s : State} (hs : s.Ready) {ps : List (Nat × Nat)}
    (hps : ∀ p ∈ ps, p ∈ gridOrder s.nx.toNat s.ny.toNat) :
    ∃ t, execAll (ps.map basisAt) s = .next t ∧ BasisRun s ps t := by
  induction ps generalizing s with
  | nil => exact ⟨s, rfl, rfl, fun n _ => by simp⟩
  | cons p ps ih =>
    have hfirst := exec_basisAt hs (hps p List.mem_cons_self)
    set s₁ := (s.setSlot (s.slotOf p.2 p.1) (s.gridComponent Config.hw (s.slotOf p.2 p.1))).completed with hs₁
    obtain ⟨t, hrun, hframe, hslots⟩ := ih (s := s₁) ⟨hs.ncomp, hs.dim, rfl⟩ fun q hq =>
      hps q (List.mem_cons_of_mem _ hq)
    refine ⟨t, (execAll_cons hfirst).trans hrun, ?_, fun n hn => ?_⟩
    · rw [hs₁, State.completed_undisturbed (s := s.setSlot _ _) hs.undisturbed] at hframe
      exact hframe
    · have hslot₁ : s₁.slot n = if s.slotOf p.2 p.1 = n ∧ s.slotOf p.2 p.1 < 81 then
          s.gridComponent Config.hw (s.slotOf p.2 p.1) else s.slot n := s.slot_setSlot _ n _
      have hslots₁ : t.slot n = if n ∈ ps.map (fun p => s.slotOf p.2 p.1) then s.gridComponent Config.hw n
          else s₁.slot n := hslots n hn
      rw [hslots₁, hslot₁, List.map_cons]
      by_cases hlater : n ∈ ps.map fun p => s.slotOf p.2 p.1
      · rw [if_pos hlater, if_pos (List.mem_cons_of_mem _ hlater)]
      · rw [if_neg hlater]
        by_cases hhere : s.slotOf p.2 p.1 = n
        · rw [if_pos ⟨hhere, hhere.symm ▸ hn⟩, if_pos (List.mem_cons.mpr (.inl hhere.symm)), hhere]
        · rw [if_neg fun h => hhere h.1, if_neg fun h => (List.mem_cons.mp h).elim (hhere ·.symm) hlater]

/-- After the BASIS commands of the whole grid COMP holds what ENCODE writes to it (R266). -/
theorem BasisRun.slot_eq_encode {s t : State} (hs : s.Ready) (h : BasisRun s (gridOrder s.nx.toNat s.ny.toNat) t)
    {n : Nat} (hn : n < 81) : t.slot n = (encodeEffect Config.hw s).slot n := by
  rw [h.slots n hn]
  by_cases hin : n < s.components
  · rw [if_pos ((mem_map_slotOf_iff s n).mpr hin), encodeEffect_slot hs.undisturbed hs.ncomp hin]
  · rw [if_neg (mt (mem_map_slotOf_iff s n).mp hin), encodeEffect_slot_behind Config.hw s (not_lt.mp hin)]

section
variable {s t : State} (h : BasisRun s (gridOrder s.nx.toNat s.ny.toNat) t)
include h

theorem BasisRun.ncompOk : t.ncompOk = s.ncompOk := by rw [h.frame]; rfl

theorem BasisRun.components : t.components = s.components := by rw [h.frame]; rfl

/-- The AC slots are then the AC terms ENCODE selects the scale from (R210, R262). -/
theorem BasisRun.acSlots (hs : s.Ready) : t.acSlots = (s.gridComponents Config.hw).tail := by
  rw [State.acSlots, h.components, s.tail_gridComponents]
  refine List.map_congr_left fun k hk => ?_
  have hk' : k + 1 < s.components := by have := List.mem_range.mp hk; omega
  have hbound := State.components_le hs.ncomp
  rw [h.slot_eq_encode hs (by omega), encodeEffect_slot hs.undisturbed hs.ncomp hk']

end

/-- What the per-unit commands of R266 leave, seen beside the writes of ENCODE. -/
structure UnitRun (s t : State) : Prop where
  ncomp : t.ncompOk = true
  components : t.components = s.components
  slots : ∀ n < 81, t.slot n = (encodeEffect Config.hw s).slot n
  actmax : t.actmax = (scaleSelect (s.gridComponents Config.hw).tail).actmax
  scale : t.scale = BitVec.ofNat 7 (scaleSelect (s.gridComponents Config.hw).tail).q
  max : t.max = (scaleSelect (s.gridComponents Config.hw).tail).maximum
  resi : t.resi = BitVec.ofNat 32 (scaleSelect (s.gridComponents Config.hw).tail).q
  hashlen : t.hashlen = s.hashlen

theorem execAll_componentCommands {s : State} (hs : s.Ready) :
    ∃ t, execAll (componentCommands s.nx.toNat s.ny.toNat) s = .next t ∧ UnitRun s t := by
  obtain ⟨t, hrun, hbasis⟩ := execAll_basisAt hs (ps := gridOrder s.nx.toNat s.ny.toNat) fun _ => id
  have hncomp : t.ncompOk = true := hbasis.ncompOk.trans hs.ncomp
  have hqscale : exec (.qscale 0) t = .next (qscaleEffect t).completed :=
    exec_ok (i := .qscale 0) (by rw [firstError_qscale, if_pos hncomp])
  refine ⟨(qscaleEffect t).completed, ?_, hncomp, hbasis.components, fun n hn => hbasis.slot_eq_encode hs hn,
    ?_, ?_, ?_, ?_, ?_⟩
  · rw [componentCommands_eq, execAll_append hrun, execAll_cons hqscale, execAll]
  · rw [State.completed_actmax, qscaleEffect_actmax, hbasis.acSlots hs]
  · rw [State.completed_scale, qscaleEffect_scale, hbasis.acSlots hs]
  · rw [State.completed_max, qscaleEffect_max, hbasis.acSlots hs]
  · rw [State.completed_resi, qscaleEffect_resi, hbasis.acSlots hs]
  · rw [State.completed_hashlen, qscaleEffect_hashlen, hbasis.frame]

namespace UnitRun

variable {s t : State} (h : UnitRun s t) (hs : s.Ready)
include h hs

theorem slot_eq_gridComponent {k : Nat} (hk : k < s.components) : t.slot k = s.gridComponent Config.hw k := by
  have hbound := State.components_le hs.ncomp
  rw [h.slots k (by omega), encodeEffect_slot hs.undisturbed hs.ncomp hk]

/-- QDC then packs the DC term ENCODE packs (R201, R262). -/
theorem exec_qdc : ∃ d, exec (.qdc 0) t = .next d ∧
    d.resi.toNat = (quantDC Config.hw (s.gridComponent Config.hw 0)).toNat := by
  refine ⟨_, exec_ok (i := .qdc 0) rfl, ?_⟩
  rw [← h.slot_eq_gridComponent hs (State.components_pos hs.ncomp)]
  exact BitVec.toNat_setWidth_of_le (by decide)

/-- QAC k then packs the AC term ENCODE packs (R222, R262). -/
theorem exec_qac {k : BitVec 7} (hk : 1 ≤ k.toNat) (hkn : k.toNat < s.components) :
    ∃ a, exec (.qac 0 k) t = .next a ∧ a.resi.toNat = quantAC Config.hw (s.gridComponent Config.hw k.toNat)
      (scaleSelect (s.gridComponents Config.hw).tail).maximum := by
  have hoperand : t.qacOperandOk k = true := (t.qacOperandOk_iff k).mpr ⟨hk, hkn.trans_eq h.components.symm⟩
  refine ⟨_, exec_ok (i := .qac 0 k) (by rw [firstError_qac, if_pos h.ncomp, if_pos hoperand]), ?_⟩
  rw [← h.slot_eq_gridComponent hs hkn, ← h.max]
  exact toNat_ofNat_quantAC Config.hw (t.slot k.toNat) t.max

end UnitRun

end Sys2Proof.Machine
end

section
/-! SUPPORT. The statements about ENCODE's dependence on the grid alone, and about the per-unit commands
(44_encode.md), settled. -/

namespace Sys2Proof.Machine

/-- Settles O37: ENCODE's checks read DIM and NCOMP, and its writes are functions of the grid's components, which the
two states share. -/
theorem encodeDependsOnNoHistory : Obligations.EncodeDependsOnNoHistory := by
  intro s₁ s₂ t₁ t₂ hwidth hheight hnx hny hpix hmark₁ hmark₂ hexec₁ hexec₂
  have himage : s₁.SameImage s₂ := ⟨hwidth, hheight, hnx, hny, hpix⟩
  have hchecks := himage.checksOf_encode 0
  rcases exec_cases (.encode 0) s₁ with ⟨e, hfails, herr⟩ | ⟨hpass, hok⟩
  · obtain rfl := Host.Outcome.next.inj (herr.symm.trans hexec₁)
    obtain rfl := Host.Outcome.next.inj ((exec_err (hchecks ▸ hfails)).symm.trans hexec₂)
    exact ⟨rfl, fun hcode => absurd hcode e.code_ne_zero⟩
  · obtain rfl := Host.Outcome.next.inj (hok.symm.trans hexec₁)
    obtain rfl := Host.Outcome.next.inj ((exec_ok (hchecks ▸ hpass)).symm.trans hexec₂)
    have hgrid₁ : s₁.ncompOk = true := firstError_eq_none.mp hpass (s₁.ncompOk, .badNcomp) (by simp [checksOf])
    have hgrid₂ : s₂.ncompOk = true :=
      firstError_eq_none.mp (hchecks ▸ hpass) (s₂.ncompOk, .badNcomp) (by simp [checksOf])
    obtain ⟨-, -, hactmax₁, hscale₁, hmax₁, -⟩ := encodeEffect_undisturbed (cfg := Config.hw) hmark₁
    obtain ⟨-, -, hactmax₂, hscale₂, hmax₂, -⟩ := encodeEffect_undisturbed (cfg := Config.hw) hmark₂
    obtain ⟨hlen₁, -⟩ := encodeEffect_lengths (cfg := Config.hw) hgrid₁
    simp only [effectOf, State.completed_status, Status.succeeded_ecode, State.slot_completed,
      State.hashByte_completed, State.completed_hashlen, State.completed_resi, State.completed_actmax,
      State.completed_scale, State.completed_max]
    refine ⟨trivial, fun _ => ⟨fun k hk => ?_, fun p hp => ?_, ?_, ?_, ?_, ?_, ?_⟩⟩
    · rw [encodeEffect_slot hmark₁ hgrid₁ hk, himage.gridComponent,
        encodeEffect_slot hmark₂ hgrid₂ (himage.components ▸ hk)]
    · have hp₁ : p < hashLength s₁.components := hp.trans_eq hlen₁
      rw [encodeEffect_hashByte_lt hmark₁ hgrid₁ hp₁ 0, himage.gridComponents, hnx, hny,
        encodeEffect_hashByte_lt hmark₂ hgrid₂ (himage.components ▸ hp₁) 0]
    · rw [encodeEffect_hashlen, encodeEffect_hashlen, himage.components]
    · rw [encodeEffect_resi, encodeEffect_resi, himage.components]
    · rw [hactmax₁, hactmax₂, himage.gridComponents]
    · rw [hscale₁, hscale₂, himage.gridComponents]
    · rw [hmax₁, hmax₂, himage.gridComponents]

/-- Settles O41: the BASIS commands leave COMP as ENCODE does, QSCALE then selects the same scale, and QDC and QAC
pack the values whose digits ENCODE writes. -/
theorem unitCommandsHoldTheValuesEncodeWrites : Obligations.UnitCommandsHoldTheValuesEncodeWrites := by
  intro s hnx hnx9 hny hny9 hwidth hheight hpix hmark
  have hncomp : s.ncompOk = true := s.ncompOk_iff.mpr ⟨hnx, hnx9, hny, hny9⟩
  have hdim : s.dimOk Config.hw = true := (s.dimOk_iff Config.hw).mpr ⟨hwidth, hheight, hpix⟩
  have hs : s.Ready := ⟨hncomp, hdim, hmark⟩
  obtain ⟨t, hrun, hunit⟩ := execAll_componentCommands hs
  obtain ⟨-, -, hactmax, hscale, hmax, -⟩ := encodeEffect_undisturbed (cfg := Config.hw) hmark
  obtain ⟨-, hdigit, hdc, hac⟩ := encodeEffect_string (cfg := Config.hw) hmark hncomp
  have hq := scaleSelect_q_le (s.gridComponents Config.hw).tail
  refine ⟨t, _, hrun, exec_encode_ok hncomp hdim, hunit.slots, hunit.scale.trans hscale.symm,
    hunit.max.trans hmax.symm, hunit.actmax.trans hactmax.symm, hunit.hashlen, ?_, ?_, fun k hk hkn => ?_⟩
  · have hresi : t.resi.toNat % 83 = (scaleSelect (s.gridComponents Config.hw).tail).q := by
      rw [hunit.resi, BitVec.toNat_ofNat]
      omega
    rw [hresi]
    exact hdigit
  · obtain ⟨d, hexec, hresi⟩ := hunit.exec_qdc hs
    exact ⟨d, hexec, fun e he => hresi ▸ hdc e he⟩
  · obtain ⟨a, hexec, hresi⟩ := hunit.exec_qac hs hk hkn
    exact ⟨a, hexec, fun e he => hresi ▸ hac k.toNat e hk hkn he⟩

end Sys2Proof.Machine
end

section
/-! SUPPORT. NaN, the absolute value and the larger of two data (R8, R9). -/

namespace Sys2Proof.Arith

/-! ## NaN -/

/-- The NaN an operator delivers is a NaN, whatever its free bits are (R8). -/
theorem isNaN_nanResult (op : FpOp) (a b : F64) : isNaN (nanResult op a b) = true := by
  have hquiet : 0x7FF8000000000000 ≤ mag (nanResult op a b) := by
    have hmod : signBit = 2 ^ 63 := rfl
    rw [mag, nanResult, BitVec.toNat_or, hmod, Nat.or_mod_two_pow]
    exact Nat.right_le_or
  exact decide_eq_true (by simp only [infMag]; omega)

theorem isNaN_mul_of_isNaN_right (a : F64) {b : F64} (h : isNaN b = true) : isNaN (mul a b) = true := by
  simp only [mul, h, Bool.or_true, if_true, isNaN_nanResult]

theorem isNaN_mul_of_isNaN_left {a : F64} (b : F64) (h : isNaN a = true) : isNaN (mul a b) = true := by
  simp only [mul, h, Bool.true_or, if_true, isNaN_nanResult]

theorem isNaN_add_of_isNaN_left {a : F64} (b : F64) (h : isNaN a = true) : isNaN (add a b) = true := by
  simp only [add, h, Bool.true_or, if_true, isNaN_nanResult]

theorem isNaN_div_of_isNaN_left {a : F64} (b : F64) (h : isNaN a = true) : isNaN (div a b) = true := by
  simp only [div, h, Bool.true_or, if_true, isNaN_nanResult]

theorem isFinite_of_isNaN {a : F64} (h : isNaN a = true) : isFinite a = false := by
  simp only [isNaN, isFinite, decide_eq_true_eq, decide_eq_false_iff_not] at *
  omega

/-- The floor of a NaN is that NaN (R9). -/
theorem ffloor_of_isNaN {a : F64} (h : isNaN a = true) : ffloor a = a := by
  simp only [ffloor, isFinite_of_isNaN h, Bool.not_false, Bool.true_or, if_true]

/-- A NaN is clamped to the lower bound (R9). -/
theorem fclamp_of_isNaN {a : F64} (lo hi : F64) (h : isNaN a = true) : fclamp a lo hi = lo := by
  simp only [fclamp, h, Bool.true_or, if_true]

/-! ## Sign and magnitude -/

/-- Two data of one sign and one magnitude are equal. -/
theorem eq_of_sign_mag {a b : F64} (hs : sign a = sign b) (hm : mag a = mag b) : a = b := by
  rw [← ofMag_sign_mag a, ← ofMag_sign_mag b, hs, hm]

theorem sign_fabs (a : F64) : sign (fabs a) = false := by
  rw [sign, fabs, BitVec.msb_and, show (0x7FFFFFFFFFFFFFFF#64).msb = false by decide, Bool.and_false]

theorem mag_fabs (a : F64) : mag (fabs a) = mag a := by
  have hones : (0x7FFFFFFFFFFFFFFF#64).toNat = 2 ^ 63 - 1 := rfl
  have hmod : signBit = 2 ^ 63 := rfl
  rw [mag, mag, fabs, BitVec.toNat_and, hones, Nat.and_two_pow_sub_one_eq_mod, hmod, Nat.mod_mod]

theorem isNaN_fabs (a : F64) : isNaN (fabs a) = isNaN a := by rw [isNaN, isNaN, mag_fabs]

/-- The absolute value is the datum of the same magnitude without the sign (R9). -/
theorem fabs_eq_ofMag (a : F64) : fabs a = ofMag false (mag a) :=
  eq_of_sign_mag (by rw [sign_fabs, sign_ofMag _ _ (mag_lt a)]) (by rw [mag_fabs, mag_ofMag _ _ (mag_lt a)])

/-- The data above zero (R9). -/
theorem pos_of_lt_zero {a : F64} (h : lt 0 a = true) : isNaN a = false ∧ sign a = false ∧ mag a ≠ 0 := by
  obtain ⟨-, hnan, hlt⟩ := lt_iff.mp h
  have hzero : order 0 = 0 := by decide
  rw [hzero, order] at hlt
  cases hs : sign a <;> simp only [hs, if_true, Bool.false_eq_true, if_false] at hlt
  · exact ⟨hnan, rfl, by omega⟩
  · omega

/-! ## The larger of two data -/

/-- The larger of a number and any datum is the number, unless the datum is a larger number (R9). -/
theorem fmax_cases {a : F64} (ha : isNaN a = false) (b : F64) :
    (fmax a b = a ∧ (isNaN b = true ∨ order b ≤ order a)) ∨
    (fmax a b = b ∧ isNaN b = false ∧ order a ≤ order b) := by
  unfold fmax
  rw [ha, if_neg Bool.false_ne_true]
  cases hb : isNaN b
  · rw [if_neg Bool.false_ne_true]
    by_cases hlt : lt a b = true
    · rw [if_pos hlt]
      exact .inr ⟨rfl, rfl, (lt_iff.mp hlt).2.2.le⟩
    · rw [if_neg hlt]
      exact .inl ⟨rfl, .inr (not_lt.mp fun hgt => hlt (lt_iff.mpr ⟨ha, hb, hgt⟩))⟩
  · rw [if_pos rfl]
    exact .inl ⟨rfl, .inl rfl⟩

end Sys2Proof.Arith
end

section
/-! SUPPORT. The fold of ScaleSelect, and the digit of a special operand (R210, R220). -/

namespace Sys2Proof.Machine

open Sys2Proof.Arith

/-! ## The largest magnitude -/

/-- The larger of a running maximum and the absolute value of a datum (R210). -/
def maxAbs (m v : F64) : F64 := fmax m (fabs v)

/-- `actual_max` is one fold over the channels of all triplets in a row (R210). -/
theorem actualMax_eq_foldl (acs : List Triplet) :
    actualMax acs = (acs.flatMap Triplet.channels).foldl maxAbs zero := by
  rw [List.foldl_flatMap]
  rfl

/-- A datum that is the start of a fold or the absolute value of a number folded in. -/
def IsMaxCandidate (m : F64) (vs : List F64) (r : F64) : Prop :=
  r = m ∨ ∃ v ∈ vs, isNaN v = false ∧ r = fabs v

/-- The fold from a number gives the largest of the candidates (R210). -/
theorem foldl_maxAbs {m : F64} (hm : isNaN m = false) (vs : List F64) :
    IsMaxCandidate m vs (vs.foldl maxAbs m) ∧ isNaN (vs.foldl maxAbs m) = false ∧
    order m ≤ order (vs.foldl maxAbs m) ∧
    ∀ v ∈ vs, isNaN v = false → order (fabs v) ≤ order (vs.foldl maxAbs m) := by
  induction vs generalizing m with
  | nil => exact ⟨.inl rfl, hm, le_refl _, nofun⟩
  | cons v vs ih =>
    rw [List.foldl_cons]
    rcases fmax_cases hm (fabs v) with ⟨heq, hsmall⟩ | ⟨heq, hnumber, hlarge⟩
    · obtain ⟨hcand, hnan, hstart, hall⟩ := ih hm
      rw [maxAbs, heq]
      refine ⟨hcand.imp_right fun ⟨u, hu, hrest⟩ => ⟨u, List.mem_cons_of_mem _ hu, hrest⟩, hnan, hstart,
        fun u hu hu' => ?_⟩
      rcases List.mem_cons.mp hu with rfl | hu
      · rw [isNaN_fabs, hu'] at hsmall
        exact (hsmall.resolve_left Bool.false_ne_true).trans hstart
      · exact hall u hu hu'
    · obtain ⟨hcand, hnan, hstart, hall⟩ := ih hnumber
      rw [maxAbs, heq]
      rw [isNaN_fabs] at hnumber
      refine ⟨.inr ?_, hnan, hlarge.trans hstart, fun u hu hu' => ?_⟩
      · rcases hcand with hfirst | ⟨u, hu, hrest⟩
        · exact ⟨v, List.mem_cons_self, hnumber, hfirst⟩
        · exact ⟨u, List.mem_cons_of_mem _ hu, hrest⟩
      · rcases List.mem_cons.mp hu with rfl | hu
        · exact hstart
        · exact hall u hu hu'

/-! ## Digits of special operands -/

/-- A digit from the quotient and the root of its absolute value (R220). -/
theorem quantACch_eq {cfg : Config} {v m x r : F64} (hx : div v m = x) (hr : cfg.pow (fabs x) half = r) :
    quantACch cfg v m = toNat (fclamp (ffloor (add (mul (mul (fsign x) r) c9) c9_5)) zero c18) := by
  simp only [quantACch, hx, hr]

/-- A zero over a positive number is a zero. -/
theorem div_zero_pos {v m : F64} (hv : mag v = 0) (hm : isFinite m = true) (hpos : lt 0 m = true) :
    div v m = ofMag (sign v) 0 := by
  obtain ⟨-, hsign, hmag⟩ := pos_of_lt_zero hpos
  have hfin : isFinite v = true := by rw [isFinite, hv]; rfl
  rw [div_finite hfin hm hmag, units, hv, unitsOfMag_zero, Nat.zero_mul, roundRatio_zero, hsign, Bool.bne_false]

/-- An infinity over a positive number is that infinity. -/
theorem div_inf_pos {v m : F64} (hv : isInf v = true) (hm : isFinite m = true) (hpos : lt 0 m = true) :
    div v m = v := by
  obtain ⟨hnan, hsign, -⟩ := pos_of_lt_zero hpos
  have hmag : mag v = infMag := of_decide_eq_true hv
  have hvnan : isNaN v = false := by rw [isNaN, hmag]; rfl
  simp only [div, hvnan, hnan, hv, isInf_of_isFinite hm, hsign, Bool.or_self, Bool.false_eq_true, if_false, if_true,
    Bool.bne_false]
  rw [← hmag, ofMag_sign_mag]

section
variable {cfg : Config} {v m : F64} (hm : isFinite m = true) (hpos : lt 0 m = true)
include hm hpos

/-- A zero gives digit 9 (R220). -/
theorem quantACch_zero (hpow : cfg.PowZero) (hv : mag v = 0) : quantACch cfg v m = 9 := by
  have hroot : cfg.pow (fabs (ofMag (sign v) 0)) half = zero := by
    rw [fabs_eq_ofMag, mag_ofMag _ _ (by decide)]
    exact hpow half (by decide)
  rw [quantACch_eq (div_zero_pos hv hm hpos) hroot]
  cases sign v <;> decide +kernel

/-- An infinity gives the digit of its sign's bound (R220). -/
theorem quantACch_inf (hpow : cfg.PowInf) (hv : isInf v = true) :
    quantACch cfg v m = if sign v then 0 else 18 := by
  have hmag : mag v = infMag := of_decide_eq_true hv
  have hroot : cfg.pow (fabs v) half = 0x7FF0000000000000#64 := by
    rw [fabs_eq_ofMag, hmag]
    exact hpow
  rw [quantACch_eq (div_inf_pos hv hm hpos) hroot, fsign]
  cases sign v <;> decide +kernel

end

/-- A NaN gives digit 0, whatever its free bits are (R220). -/
theorem quantACch_nan {cfg : Config} (hpow : cfg.PowNaN) {v : F64} (m : F64) (hv : isNaN v = true) :
    quantACch cfg v m = 0 := by
  have hx : isNaN (fabs (div v m)) = true := (isNaN_fabs _).trans (isNaN_div_of_isNaN_left m hv)
  have hp := isNaN_mul_of_isNaN_right (fsign (div v m)) (hpow _ half hx)
  have hsum := isNaN_add_of_isNaN_left c9_5 (isNaN_mul_of_isNaN_left c9 hp)
  rw [quantACch_eq rfl rfl, ffloor_of_isNaN hsum, fclamp_of_isNaN _ _ hsum, toNat_zero]

end Sys2Proof.Machine
end

section
/-! SUPPORT. The statements about the functions of the Quantizer (42_quantize.md), settled. -/

namespace Sys2Proof.Machine

open Sys2Proof.Arith

/-- Settles O54: the fold starts at a number, so it gives the largest of +0.0 and the absolute values of the channels
that are numbers. -/
theorem actualMaxIsTheLargestMagnitude : Obligations.ActualMaxIsTheLargestMagnitude := by
  intro acs
  obtain ⟨hcand, hnan, -, hall⟩ := foldl_maxAbs (m := zero) rfl (acs.flatMap Triplet.channels)
  rw [← actualMax_eq_foldl] at hcand hnan hall
  refine ⟨hnan, ?_, fun t ht v hv hnumber => ?_, ?_⟩
  · rcases hcand with heq | ⟨v, -, -, heq⟩ <;> rw [heq]
    · rfl
    · exact sign_fabs v
  · exact le_iff.mpr ⟨(isNaN_fabs v).trans hnumber, hnan, hall v (List.mem_flatMap.mpr ⟨t, ht, hv⟩) hnumber⟩
  · refine hcand.imp_right fun ⟨v, hv, hnumber, heq⟩ => ?_
    obtain ⟨t, ht, hvt⟩ := List.mem_flatMap.mp hv
    exact ⟨t, ht, v, hvt, hnumber, heq⟩

/-- Settles O55: q and the digits are clamped, and three digits below 19 are read back from their number. -/
theorem quantizerRanges : Obligations.QuantizerRanges := by
  refine ⟨fun acs => ⟨scaleSelect_q_le acs, ?_⟩, quantACch_le, fun cfg t m => ⟨quantAC_le cfg t m, ?_⟩⟩
  · rintro rfl
    rfl
  · have hr := quantACch_le cfg t.r m
    have hg := quantACch_le cfg t.g m
    have hb := quantACch_le cfg t.b m
    unfold quantAC
    omega

/-- Settles O56: over a positive finite MAX a zero, an infinity and a NaN stay what they are. -/
theorem specialOperandsOfQuantAc : Obligations.SpecialOperandsOfQuantAc := by
  intro cfg v m hm hpos
  refine ⟨quantACch_zero hm hpos, ?_, ?_, fun hpow hv => quantACch_nan hpow m hv⟩
  · rintro hpow rfl
    exact quantACch_inf hm hpos hpow rfl
  · rintro hpow rfl
    exact quantACch_inf hm hpos hpow rfl

end Sys2Proof.Machine
end

section
/-! SUPPORT. The real number a datum stands for, the whole data, and the data too large to have a fraction (R8,
R9). -/

namespace Sys2Proof.Arith

/-! ## Values -/

theorem unitsPerOne_cast_pos : (0 : ℚ) < (unitsPerOne : ℚ) := by exact_mod_cast unitsPerOne_pos

theorem units_ofMag (s : Bool) {m : Nat} (h : m < signBit) : units (ofMag s m) = unitsOfMag m := by
  rw [units, mag_ofMag s m h]

theorem value_neg (a : F64) : value (neg a) = -value a := by
  rw [value, signedUnits_neg, value, Int.cast_neg, neg_div]

/-- The absolute value in units (R8). -/
theorem abs_value (a : F64) : |value a| = (units a : ℚ) / unitsPerOne := by
  rw [value, abs_div, abs_of_pos unitsPerOne_cast_pos, ← natAbs_signedUnits, Nat.cast_natAbs, Int.cast_abs]

/-- The value is the absolute value under the sign. -/
theorem value_eq (a : F64) : value a = if sign a then -|value a| else |value a| := by
  rw [abs_value, value, signedUnits]
  split <;> push_cast <;> ring

theorem value_eq_zero_iff (a : F64) : value a = 0 ↔ units a = 0 := by
  rw [← abs_eq_zero, abs_value, div_eq_zero_iff, or_iff_left unitsPerOne_cast_pos.ne', Nat.cast_eq_zero]

theorem units_eq_zero_iff (a : F64) : units a = 0 ↔ mag a = 0 :=
  ⟨fun h => unitsOfMag_strictMono.injective (h.trans unitsOfMag_zero.symm), fun h => by
    rw [units, h, unitsOfMag_zero]⟩

/-- The real floor of a value, in units. -/
theorem floor_value (a : F64) : ⌊value a⌋ = signedUnits a / (unitsPerOne : Int) :=
  Rat.floor_intCast_div_natCast _ _

theorem floor_abs_value (a : F64) : ⌊|value a|⌋ = (units a / unitsPerOne : Nat) := by
  rw [abs_value]
  exact Rat.floor_natCast_div_natCast _ _

/-- A datum whose units are a whole number of ones has that whole number as its value. -/
theorem value_of_signedUnits {a : F64} {z : Int} (h : signedUnits a = z * unitsPerOne) : value a = z := by
  rw [value, h]
  push_cast
  exact mul_div_cancel_right₀ _ unitsPerOne_cast_pos.ne'

/-! ## Data with a fraction -/

/-- From 2^52 on every datum is whole, so one with a fraction is below 2^52. -/
theorem units_lt_of_fraction {a : F64} (h : isIntegral a = false) : units a < hiddenBit * unitsPerOne := by
  obtain ⟨up, k, hsplit, hup, hk⟩ := mag_split (mag a)
  have hunits : units a = up * 2 ^ k := by rw [units, hsplit, unitsOfMag_split hup.le hk]
  have hsmall : k < 1074 := by
    by_contra hlarge
    have hwhole : unitsPerOne ∣ units a := by
      rw [hunits, unitsPerOne]
      exact Dvd.dvd.mul_left (pow_dvd_pow 2 (not_lt.mp hlarge)) up
    exact of_decide_eq_false h (Nat.mod_eq_zero_of_dvd hwhole)
  have hscale : 2 * 2 ^ k ≤ unitsPerOne := by
    rw [← pow_succ', unitsPerOne]
    exact pow_le_pow_right₀ (by decide) hsmall
  calc units a = up * 2 ^ k := hunits
    _ < 2 * hiddenBit * 2 ^ k := Nat.mul_lt_mul_of_pos_right hup (Nat.two_pow_pos k)
    _ = hiddenBit * (2 * 2 ^ k) := by ring
    _ ≤ hiddenBit * unitsPerOne := Nat.mul_le_mul_left _ hscale

theorem whole_part_lt {a : F64} (h : isIntegral a = false) : units a / unitsPerOne < hiddenBit :=
  Nat.div_lt_of_lt_mul (by rw [Nat.mul_comm]; exact units_lt_of_fraction h)

theorem signedUnits_ofNat {n : Nat} (h : n < 2 ^ 53) : signedUnits (ofNat n) = n * unitsPerOne := by
  rw [signedUnits, sign_ofNat, units_ofNat h]
  push_cast
  rfl

/-- A whole datum's units divide. -/
theorem isIntegral_iff (a : F64) : isIntegral a = true ↔ units a % unitsPerOne = 0 := decide_eq_true_iff

/-! ## Floor and truncation -/

theorem ffloor_cases {a : F64} (ha : isFinite a = true) :
    (isIntegral a = true ∧ ffloor a = a) ∨ (isIntegral a = false ∧
      ffloor a = if sign a then neg (ofNat (units a / unitsPerOne + 1)) else ofNat (units a / unitsPerOne)) := by
  cases hw : isIntegral a <;> simp [ffloor, ha, hw]

theorem ftrunc_cases {a : F64} (ha : isFinite a = true) :
    (isIntegral a = true ∧ ftrunc a = a) ∨
    (isIntegral a = false ∧ ftrunc a = ofMag (sign a) (mag (ofNat (units a / unitsPerOne)))) := by
  cases hw : isIntegral a <;> simp [ftrunc, ha, hw]

/-- The floor of a negative quotient with a remainder is one below the negated quotient. -/
theorem neg_ediv_of_remainder {n d : Nat} (hd : 0 < d) (hr : n % d ≠ 0) :
    -(n : Int) / (d : Int) = -((n / d + 1 : Nat) : Int) := by
  have hsplit := Nat.div_add_mod n d
  have hlt := Nat.mod_lt n hd
  generalize n / d = q at *
  generalize n % d = r at *
  rw [Int.ediv_eq_iff_of_pos (by exact_mod_cast hd), ← hsplit]
  push_cast
  constructor <;> linarith [show (0 : Int) < r by omega, show (r : Int) < d by omega]

/-- The floor in units is the floor of the quotient (R9). -/
theorem signedUnits_ffloor {a : F64} (ha : isFinite a = true) : isFinite (ffloor a) = true ∧
    signedUnits (ffloor a) = signedUnits a / (unitsPerOne : Int) * unitsPerOne := by
  rcases ffloor_cases ha with ⟨hw, heq⟩ | ⟨hw, heq⟩
  · have hdvd : (unitsPerOne : Int) ∣ signedUnits a := by
      rw [Int.natCast_dvd, natAbs_signedUnits]
      exact Nat.dvd_of_mod_eq_zero ((isIntegral_iff a).mp hw)
    rw [heq]
    exact ⟨ha, (Int.ediv_mul_cancel hdvd).symm⟩
  · have hq : units a / unitsPerOne < hiddenBit := whole_part_lt hw
    have hr : units a % unitsPerOne ≠ 0 := of_decide_eq_false hw
    have hq53 : units a / unitsPerOne + 1 < 2 ^ 53 := by simp only [hiddenBit] at hq; omega
    rw [heq]
    cases hs : sign a
    · refine ⟨isFinite_ofNat (by omega), (signedUnits_ofNat (by omega)).trans ?_⟩
      rw [signedUnits, hs, if_neg Bool.false_ne_true, Int.natCast_ediv]
    · rw [if_pos rfl, isFinite_neg, signedUnits_neg, signedUnits_ofNat hq53, signedUnits, hs, if_pos rfl,
        neg_ediv_of_remainder unitsPerOne_pos hr, Int.neg_mul]
      exact ⟨isFinite_ofNat hq53, rfl⟩

/-- Truncation keeps the sign and the whole part (R9). -/
theorem units_ftrunc {a : F64} (ha : isFinite a = true) : isFinite (ftrunc a) = true ∧
    sign (ftrunc a) = sign a ∧ units (ftrunc a) = units a / unitsPerOne * unitsPerOne := by
  rcases ftrunc_cases ha with ⟨hw, heq⟩ | ⟨hw, heq⟩
  · have hdvd : unitsPerOne ∣ units a := Nat.dvd_of_mod_eq_zero ((isIntegral_iff a).mp hw)
    rw [heq]
    exact ⟨ha, rfl, (Nat.div_mul_cancel hdvd).symm⟩
  · have hq : units a / unitsPerOne < hiddenBit := whole_part_lt hw
    have hq53 : units a / unitsPerOne < 2 ^ 53 := by simp only [hiddenBit] at hq; omega
    have hmag := mag_lt (ofNat (units a / unitsPerOne))
    rw [heq, isFinite, mag_ofMag _ _ hmag, sign_ofMag _ _ hmag, units_ofMag _ hmag]
    exact ⟨isFinite_ofNat hq53, rfl, units_ofNat hq53⟩

end Sys2Proof.Arith
end

section
/-! SUPPORT. A rounded ratio is the real number it stands for, rounded to nearest with ties to even (R8). -/

namespace Sys2Proof.Arith

/-! ## Where rounding overflows -/

/-- The last magnitude of a binade, in half steps of it. -/
theorem unitsOfMag_binade_end (j : Nat) :
    unitsOfMag ((2 * hiddenBit - 1) + (j + 1) * hiddenBit) = (2 ^ 54 - 2) * 2 ^ j := by
  rw [unitsOfMag_split (by decide) (.inr (by decide)), pow_succ]
  simp only [hiddenBit]
  omega

/-- The magnitude after it, in the same half steps. -/
theorem unitsOfMag_next_binade (j : Nat) : unitsOfMag (hiddenBit + (j + 2) * hiddenBit) = 2 ^ 54 * 2 ^ j := by
  rw [unitsOfMag_split (by decide) (.inr (by decide)), pow_add]
  simp only [hiddenBit]
  omega

/-- The largest finite magnitude and the first infinite one, in half steps of the top binade. -/
theorem unitsOfMag_top : unitsOfMag (infMag - 1) = (2 ^ 54 - 2) * 2 ^ 2044 ∧ unitsOfMag infMag = 2 ^ 54 * 2 ^ 2044 :=
  ⟨unitsOfMag_binade_end 2044, unitsOfMag_next_binade 2044⟩

/-- The raw rounding reaches the infinity's pattern exactly from halfway above the largest finite magnitude on. -/
theorem infMag_le_rawRound_iff (n d : Nat) (hd : 0 < d) :
    infMag ≤ rawRound n d ↔ d * ((2 ^ 54 - 1) * 2 ^ 2044) ≤ n := by
  obtain ⟨lo, e, r, he, hr, hn, hhi, hround⟩ := rawRound_cases n d hd
  obtain ⟨hmax, hinf⟩ := unitsOfMag_top
  generalize 2 ^ 2044 = k at *
  have hcap (m m' : Nat) (h : m ≤ m') : d * unitsOfMag m ≤ d * unitsOfMag m' :=
    Nat.mul_le_mul_left d (unitsOfMag_strictMono.monotone h)
  have hdmax : d * unitsOfMag (infMag - 1) = (2 ^ 54 - 2) * (d * k) := by rw [hmax]; ring
  have hdinf : d * unitsOfMag infMag = 2 ^ 54 * (d * k) := by rw [hinf]; ring
  have hdmid : d * ((2 ^ 54 - 1) * k) = (2 ^ 54 - 1) * (d * k) := by ring
  rw [hdmid, hround]
  rcases lt_trichotomy lo (infMag - 1) with hlow | heq | hhigh
  · have hbelow := hcap (lo + 1) (infMag - 1) hlow
    have hcase : ¬ infMag ≤ if e < 2 * r ∨ 2 * r = e ∧ lo % 2 = 1 then lo + 1 else lo := by
      split <;> omega
    refine iff_of_false hcase ?_
    omega
  · have hodd : lo % 2 = 1 := by rw [heq]; rfl
    have hnext : lo + 1 = infMag := by rw [heq]; rfl
    have hup : (e < 2 * r ∨ 2 * r = e ∧ lo % 2 = 1) ↔ e ≤ 2 * r := by omega
    rw [hnext, hdinf, heq, hdmax] at hhi
    rw [if_congr hup rfl rfl, hnext, hn, heq, hdmax]
    by_cases htie : e ≤ 2 * r
    · rw [if_pos htie]
      exact iff_of_true (le_refl _) (by omega)
    · rw [if_neg htie]
      exact iff_of_false (by decide) (by omega)
  · have habove := hcap infMag lo (Nat.le_of_pred_lt hhigh)
    rw [hdinf] at habove
    refine iff_of_true ?_ (by omega)
    split <;> omega

/-! ## Rounding to nearest -/

/-- The threshold of the overflow in units (R8). -/
theorem overflow_threshold_units :
    ((2 : ℚ) ^ 1024 - 2 ^ 970) * unitsPerOne = ((2 ^ 54 - 1) * 2 ^ 2044 : Nat) := by
  have hone : (2 : ℚ) ^ 1024 = 2 ^ 54 * 2 ^ 970 := by rw [← pow_add]
  have hhalf : (2 : ℚ) ^ 2044 = 2 ^ 970 * 2 ^ 1074 := by rw [← pow_add]
  have hunit : (unitsPerOne : ℚ) = 2 ^ 1074 := by rw [unitsPerOne, Nat.cast_pow, Nat.cast_ofNat]
  rw [Nat.cast_mul, Nat.cast_pow, Nat.cast_ofNat, hhalf, hone, hunit]
  generalize (2 : ℚ) ^ 970 = x
  generalize (2 : ℚ) ^ 1074 = y
  push_cast
  ring

/-- The distance of a magnitude from a ratio of units, as real numbers. -/
theorem abs_sub_units {n d : Nat} (hd : 0 < d) (m : Nat) :
    |(n : ℚ) / d / unitsPerOne - (unitsOfMag m : ℚ) / unitsPerOne| = (unitDist n d m : ℚ) / (d * unitsPerOne) := by
  have hd' : (0 : ℚ) < d := by exact_mod_cast hd
  have hU := unitsPerOne_cast_pos
  have hjoin : (n : ℚ) / d / unitsPerOne - (unitsOfMag m : ℚ) / unitsPerOne =
      ((n : ℚ) - d * unitsOfMag m) / (d * unitsPerOne) := by field_simp
  rw [hjoin, abs_div, abs_of_pos (mul_pos hd' hU), unitDist]
  push_cast
  rfl

end Sys2Proof.Arith
end

section
/-! SUPPORT. The operators on finite data round their exact results (R8). -/

namespace Sys2Proof.Arith

/-! ## A number under a sign -/

/-- A real number is its absolute value under its sign; the sign of zero does not matter. -/
theorem eq_signed_abs {x : ℚ} {s : Bool} (h : x ≠ 0 → s = decide (x < 0)) : x = if s then -|x| else |x| := by
  by_cases hx : x = 0
  · simp [hx]
  · rw [h hx]
    by_cases hneg : x < 0
    · rw [decide_eq_true hneg, if_pos rfl, abs_of_neg hneg, neg_neg]
    · rw [decide_eq_false hneg, if_neg Bool.false_ne_true, abs_of_nonneg (not_lt.mp hneg)]

/-- Two numbers under one sign are as far apart as without it. -/
theorem abs_signed_sub_signed (s : Bool) (a b : ℚ) :
    |(if s then -a else a) - (if s then -b else b)| = |a - b| := by
  cases s
  · rfl
  · rw [if_pos rfl, if_pos rfl, neg_sub_neg, abs_sub_comm]

theorem value_ofMag (s : Bool) {m : Nat} (h : m < signBit) : value (ofMag s m) =
    if s then -((unitsOfMag m : ℚ) / unitsPerOne) else (unitsOfMag m : ℚ) / unitsPerOne := by
  rw [value_eq, abs_value, sign_ofMag s m h, units_ofMag s h]

/-- Of two different values of one magnitude, which are opposite, only zero is as far from both. -/
theorem eq_zero_of_tie_with_opposite {x : ℚ} {a c : F64} (hmag : mag c = mag a) (hne : value c ≠ value a)
    (htie : |x - value c| = |x - value a|) : x = 0 := by
  have hsign : sign c ≠ sign a := fun h => hne (congrArg value (eq_of_sign_mag h hmag))
  have hneg : c = neg a :=
    eq_of_sign_mag (by rw [sign_neg]; exact Bool.eq_not_of_ne hsign) (hmag.trans (mag_neg a).symm)
  rw [hneg, value_neg] at hne htie
  have hsquare : (x - -value a) ^ 2 = (x - value a) ^ 2 := sq_eq_sq_iff_abs_eq_abs _ _ |>.mpr htie
  have hproduct : x * value a = 0 := by linarith [sub_sq x (value a), sub_sq x (-value a)]
  refine (mul_eq_zero.mp hproduct).resolve_right fun hzero => hne ?_
  rw [hzero, neg_zero]

/-! ## Rounding a real number -/

section
variable {x : ℚ} {s : Bool} {n d : Nat} (hd : 0 < d) (habs : |x| = (n : ℚ) / d / unitsPerOne)
include hd habs

/-- The distance of the number from a datum of its sign. -/
theorem abs_sub_value_ofMag (hsign : x ≠ 0 → s = decide (x < 0)) {m : Nat} (hm : m < signBit) :
    |x - value (ofMag s m)| = (unitDist n d m : ℚ) / (d * unitsPerOne) := by
  rw [eq_signed_abs hsign, value_ofMag s hm, abs_signed_sub_signed, habs, abs_sub_units hd]

/-- No datum is nearer to the number than its magnitude is to the number's. -/
theorem unitDist_le_abs_sub_value (c : F64) :
    (unitDist n d (mag c) : ℚ) / (d * unitsPerOne) ≤ |x - value c| := by
  rw [← abs_sub_units hd, ← habs, ← units, ← abs_value]
  exact abs_abs_sub_abs_le x (value c)

/-- The number lies at or above the threshold of the overflow exactly when its units do (R8). -/
theorem overflow_le_abs_iff : 2 ^ 1024 - 2 ^ 970 ≤ |x| ↔ d * ((2 ^ 54 - 1) * 2 ^ 2044) ≤ n := by
  have hd' : (0 : ℚ) < d := by exact_mod_cast hd
  rw [habs, le_div_iff₀ unitsPerOne_cast_pos, overflow_threshold_units, le_div_iff₀ hd', mul_comm]
  exact_mod_cast Iff.rfl

/-- The magnitude nearest to the units of a number, under its sign, is the number rounded (R8). -/
theorem roundsTo_ofMag (hsign : x ≠ 0 → s = decide (x < 0)) : RoundsTo x (ofMag s (roundRatio n d)) := by
  have hle := roundRatio_le_infMag n d
  have hlt : roundRatio n d < signBit := hle.trans_lt infMag_lt_signBit
  have hscale : (0 : ℚ) < d * unitsPerOne := mul_pos (by exact_mod_cast hd) unitsPerOne_cast_pos
  have hfinite : isFinite (ofMag s (roundRatio n d)) = true ↔ rawRound n d < infMag := by
    rw [isFinite, mag_ofMag_le s hle, decide_eq_true_iff, roundRatio_eq, min_lt_iff, or_iff_left (lt_irrefl _)]
  have hraw (h : isFinite (ofMag s (roundRatio n d)) = true) : roundRatio n d = rawRound n d := by
    rw [roundRatio_eq, Nat.min_eq_left (hfinite.mp h).le]
  refine ⟨isNaN_round s n d, fun hx => ?_, ?_, fun hc c hc' => ?_, fun hc c hc' hne htie => ?_⟩
  · rw [sign_ofMag_le s hle, hsign hx]
  · rw [overflow_le_abs_iff hd habs, ← infMag_le_rawRound_iff n d hd, ← not_lt, ← hfinite, Bool.not_eq_true]
  · rw [abs_sub_value_ofMag hd habs hsign hlt, hraw hc]
    refine le_trans ?_ (unitDist_le_abs_sub_value hd habs c)
    exact (div_le_div_iff_of_pos_right hscale).mpr (by exact_mod_cast rawRound_nearest n d hd (mag c))
  · by_cases hmag : mag c = mag (ofMag s (roundRatio n d))
    · have hx : x = 0 := eq_zero_of_tie_with_opposite hmag hne htie
      have hn : n = 0 := by
        rw [hx, abs_zero, eq_comm, div_eq_zero_iff, or_iff_left unitsPerOne_cast_pos.ne', div_eq_zero_iff] at habs
        exact_mod_cast habs.resolve_right (by exact_mod_cast hd.ne')
      rw [mag_ofMag_le s hle, hn, roundRatio_zero]
    · rw [mag_ofMag_le s hle, hraw hc] at hmag ⊢
      rw [abs_sub_value_ofMag hd habs hsign hlt, hraw hc] at htie
      refine rawRound_tie_even n d hd (mag c) hmag (le_antisymm ?_ (rawRound_nearest n d hd (mag c)))
      have hclose := (unitDist_le_abs_sub_value hd habs c).trans_eq htie
      exact_mod_cast (div_le_div_iff_of_pos_right hscale).mp hclose

end

/-! ## The four operators -/

theorem roundsTo_add {a b : F64} (ha : isFinite a = true) (hb : isFinite b = true) :
    RoundsTo (value a + value b) (add a b) := by
  have hsum : value a + value b = ((signedUnits a + signedUnits b : Int) : ℚ) / unitsPerOne := by
    rw [value, value, ← add_div, Int.cast_add]
  have habs : |value a + value b| = ((signedUnits a + signedUnits b).natAbs : ℚ) / (1 : Nat) / unitsPerOne := by
    rw [hsum, abs_div, abs_of_pos unitsPerOne_cast_pos, Nat.cast_one, div_one, Nat.cast_natAbs, Int.cast_abs]
  rw [add_finite ha hb]
  split
  next hzero =>
    rw [← roundRatio_zero 1]
    rw [hzero, Int.natAbs_zero] at habs
    refine roundsTo_ofMag Nat.one_pos habs fun hne => absurd ?_ hne
    rw [hsum, hzero, Int.cast_zero, zero_div]
  next =>
    refine roundsTo_ofMag Nat.one_pos habs fun _ => ?_
    rw [hsum, decide_eq_decide, div_lt_iff₀ unitsPerOne_cast_pos, zero_mul, Int.cast_lt_zero]

theorem roundsTo_sub {a b : F64} (ha : isFinite a = true) (hb : isFinite b = true) :
    RoundsTo (value a - value b) (sub a b) := by
  rw [sub_finite ha hb, sub_eq_add_neg, ← value_neg]
  exact roundsTo_add ha ((isFinite_neg b).trans hb)

/-- The sign of a value that is not zero is the sign bit. -/
theorem value_neg_iff {a : F64} (h : value a ≠ 0) : value a < 0 ↔ sign a = true := by
  have hpos : 0 < |value a| := abs_pos.mpr h
  rw [value_eq]
  cases sign a
  · exact iff_of_false (not_lt.mpr hpos.le) Bool.false_ne_true
  · exact iff_of_true (neg_neg_iff_pos.mpr hpos) rfl

/-- The sign bit of a product or a quotient that is not zero (R8). -/
theorem signs_differ_iff {a b : F64} (ha : value a ≠ 0) (hb : value b ≠ 0) :
    (sign a != sign b) = decide (value a * value b < 0) := by
  rw [Bool.eq_iff_iff, decide_eq_true_iff, mul_neg_iff, value_neg_iff ha, value_neg_iff hb, ← not_le, ← not_le,
    ha.le_iff_lt, hb.le_iff_lt, value_neg_iff ha, value_neg_iff hb]
  cases sign a <;> cases sign b <;> decide

theorem roundsTo_mul {a b : F64} (ha : isFinite a = true) (hb : isFinite b = true) :
    RoundsTo (value a * value b) (mul a b) := by
  rw [mul_finite ha hb]
  refine roundsTo_ofMag unitsPerOne_pos ?_ fun hne => ?_
  · rw [abs_mul, abs_value, abs_value, div_mul_div_comm, Nat.cast_mul, div_div]
  · exact signs_differ_iff (left_ne_zero_of_mul hne) (right_ne_zero_of_mul hne)

theorem roundsTo_div {a b : F64} (ha : isFinite a = true) (hb : isFinite b = true) (h0 : value b ≠ 0) :
    RoundsTo (value a / value b) (div a b) := by
  have hunits : units b ≠ 0 := mt (value_eq_zero_iff b).mpr h0
  rw [div_finite ha hb (mt (units_eq_zero_iff b).mpr hunits)]
  refine roundsTo_ofMag (Nat.pos_of_ne_zero hunits) ?_ fun hne => ?_
  · have hU := unitsPerOne_cast_pos.ne'
    rw [abs_div, abs_value, abs_value, Nat.cast_mul]
    field_simp
  · rw [signs_differ_iff (div_ne_zero_iff.mp hne).1 h0, decide_eq_decide, mul_neg_iff, div_neg_iff]

end Sys2Proof.Arith
end

section
/-! SUPPORT. The statements about binary64 arithmetic (00_scope.md), settled. -/

namespace Sys2Proof.Arith

/-- Settles O46: each operator rounds the ratio of units that is its exact result, under its sign. -/
theorem arithmeticRoundsToNearestEven : Obligations.ArithmeticRoundsToNearestEven :=
  fun _ _ ha hb => ⟨roundsTo_add ha hb, roundsTo_sub ha hb, roundsTo_mul ha hb, roundsTo_div ha hb⟩

/-- Settles O47: below 2^53 the conversion of the whole part is exact, and from 2^52 on a datum is its own floor. -/
theorem floorAndTruncateAreExact : Obligations.FloorAndTruncateAreExact := by
  intro a ha
  obtain ⟨hfloor, hunits⟩ := signedUnits_ffloor ha
  obtain ⟨htrunc, hsign, hwhole⟩ := units_ftrunc ha
  refine ⟨hfloor, ?_, htrunc, ?_, ?_⟩
  · rw [value_of_signedUnits hunits, floor_value]
  · rw [floor_abs_value, abs_value, hwhole, Nat.cast_mul, mul_div_cancel_right₀ _ unitsPerOne_cast_pos.ne']
    rfl
  · rw [value_eq (ftrunc a), value_eq a, hsign]
    cases sign a
    · exact mul_nonneg (abs_nonneg _) (abs_nonneg _)
    · exact mul_nonneg_of_nonpos_of_nonpos (neg_nonpos.mpr (abs_nonneg _)) (neg_nonpos.mpr (abs_nonneg _))

end Sys2Proof.Arith
end

section
/-! SUPPORT. The two branches of to_linear and of to_gamma (R140 to R145). -/

namespace Sys2Proof.Arith

/-- A datum that is not NaN and lies in [0, 1] is finite. -/
theorem isFinite_of_mem_unit {a : F64} (hlo : le zero a = true) (hhi : le a one = true) : isFinite a = true := by
  obtain ⟨-, -, h0⟩ := le_iff.mp hlo
  obtain ⟨-, -, h1⟩ := le_iff.mp hhi
  have hzero : order zero = 0 := by decide
  have hone : order one = 0x3FF0000000000000 := by decide
  rw [hzero, order] at h0
  rw [hone, order] at h1
  refine decide_eq_true ?_
  simp only [infMag]
  cases hs : sign a <;> simp only [hs, if_true, Bool.false_eq_true, if_false] at h0 h1 <;> omega

/-- A NaN and a datum at or below zero are clamped to a zero (R9). -/
theorem fclamp_unit_low {a : F64} (h : isNaN a = true ∨ le a zero = true) :
    ∃ s, fclamp a zero one = ofMag s 0 := by
  rcases h with hnan | hle
  · exact ⟨false, fclamp_of_isNaN zero one hnan⟩
  · obtain ⟨hnan, -, horder⟩ := le_iff.mp hle
    by_cases hlt : lt a zero = true
    · exact ⟨false, by simp only [fclamp, hlt, Bool.or_true, if_true]; rfl⟩
    · have hzero : order zero = 0 := by decide
      have heq : order a = 0 := by
        refine le_antisymm (hzero ▸ horder) (not_lt.mp fun hneg => hlt ?_)
        exact lt_iff.mpr ⟨hnan, rfl, hzero.symm ▸ hneg⟩
      have hmag : mag a = 0 := by
        rw [order] at heq
        split at heq <;> omega
      have habove : le zero a = true := le_iff.mpr ⟨rfl, hnan, (hzero.trans heq.symm).le⟩
      have hbelow : le a one = true := le_iff.mpr ⟨hnan, rfl, horder.trans (by decide)⟩
      refine ⟨sign a, (fclamp_inside habove hbelow).trans ?_⟩
      rw [← hmag, ofMag_sign_mag]

/-- A datum at or above 1.0 is clamped to 1.0 (R9). -/
theorem fclamp_unit_high {a : F64} (h : le one a = true) : fclamp a zero one = one := by
  obtain ⟨-, hnan, horder⟩ := le_iff.mp h
  have hone : order one = 0x3FF0000000000000 := by decide
  have hzero : order zero = 0 := by decide
  have hlow : lt a zero = false := Bool.eq_false_iff.mpr fun hlt => by
    have := (lt_iff.mp hlt).2.2
    omega
  by_cases hhigh : lt one a = true
  · simp only [fclamp, hnan, hlow, hhigh, Bool.or_self, Bool.false_eq_true, if_false, if_true]
  · have heq : order a = order one :=
      le_antisymm (not_lt.mp fun hgt => hhigh (lt_iff.mpr ⟨rfl, hnan, hgt⟩)) horder
    have hsame : a = one := by
      rw [hone, order] at heq
      cases hs : sign a <;> simp only [hs, if_true, Bool.false_eq_true, if_false] at heq
      · exact eq_of_sign_mag hs (by exact_mod_cast heq)
      · omega
    rw [hsame]
    decide

end Sys2Proof.Arith

namespace Sys2Proof.Machine

open Sys2Proof.Arith

/-! ## to_linear -/

/-- The bytes of the linear branch, and what it gives for them (R140). -/
theorem linear_branch_bytes : ∀ n < 11, le (div (ofNat n) c255) c0_04045 = true ∧
    le zero (div (div (ofNat n) c255) c12_92) = true ∧ le (div (div (ofNat n) c255) c12_92) one = true := by
  decide +kernel

/-- The bytes of the POW branch, and the operand it takes for them (R140, R142). -/
theorem power_branch_bytes : ∀ n < 256, 11 ≤ n → le (div (ofNat n) c255) c0_04045 = false ∧
    le zero (div (add (div (ofNat n) c255) c0_055) c1_055) = true ∧
    le (div (add (div (ofNat n) c255) c0_055) c1_055) one = true := by
  decide +kernel

theorem toLinear_low (cfg : Config) {b : Byte} (hb : b.toNat ≤ 10) :
    toLinear cfg b = div (div (ofNat b.toNat) c255) c12_92 :=
  if_pos (linear_branch_bytes b.toNat (by omega)).1

theorem toLinear_high (cfg : Config) {b : Byte} (hb : 11 ≤ b.toNat) :
    toLinear cfg b = cfg.pow (div (add (div (ofNat b.toNat) c255) c0_055) c1_055) c2_4 :=
  if_neg (Bool.eq_false_iff.mp (power_branch_bytes b.toNat b.isLt hb).1)

/-- to_linear of a byte lies in [0, 1] (R142). -/
theorem toLinear_mem_unit {cfg : Config} (hpow : cfg.PowRange) (b : Byte) :
    le zero (toLinear cfg b) = true ∧ le (toLinear cfg b) one = true := by
  rcases Nat.lt_or_ge b.toNat 11 with hlow | hhigh
  · rw [toLinear_low cfg (by omega)]
    exact (linear_branch_bytes b.toNat hlow).2
  · obtain ⟨-, hlo, hhi⟩ := power_branch_bytes b.toNat b.isLt hhigh
    rw [toLinear_high cfg hhigh]
    exact hpow _ c2_4 hlo hhi (by decide)

theorem toLinear_zero (cfg : Config) : toLinear cfg 0 = zero :=
  (toLinear_low cfg (by decide)).trans (by decide +kernel)

/-! ## to_gamma -/

section
variable {cfg : Config} {f v : F64} (hv : fclamp f zero one = v)
include hv

theorem toGamma_low (h : le v c0_0031308 = true) : toGamma cfg f = roundByte (mul (mul v c12_92) c255) := by
  simp only [toGamma, hv, h, if_true]

theorem toGamma_high (h : le v c0_0031308 = false) :
    toGamma cfg f = roundByte (mul (sub (mul (cfg.pow v cInv2_4) c1_055) c0_055) c255) := by
  simp only [toGamma, hv, h, Bool.false_eq_true, if_false]

end

/-- The byte of a datum, with its conditions written apart (R144, R145). -/
theorem roundByte_eq (t : F64) : roundByte t =
    let r := ftrunc (add t half)
    if isNaN r = true ∨ le r zero = true then 0#8
    else if le c255 r = true then 255#8
    else BitVec.ofNat 8 (toNat r) := by
  simp only [roundByte, satByte, Bool.or_eq_true]

theorem toGamma_one {cfg : Config} (hpow : cfg.PowOne) : toGamma cfg one = 255 := by
  have hroot : cfg.pow one cInv2_4 = one := hpow cInv2_4 (by decide)
  rw [toGamma_high (fclamp_unit_high (by decide)) (by decide), hroot]
  decide +kernel

/-! ## The round trip under the default configuration -/

/-- to_gamma undoes to_linear on the 32 bytes from one on, under the default configuration (R148). -/
@[reducible] def RoundTripFrom (start : Nat) : Prop := ∀ k < 32,
  toGamma Config.default (toLinear Config.default (BitVec.ofNat 8 (start + k))) = BitVec.ofNat 8 (start + k)

end Sys2Proof.Machine
end

section
/-! SUPPORT. The round trip of R148, computed in eight parts. -/

namespace Sys2Proof.Machine

-- One theorem after another: many kernel evaluations at once need a thread each.
set_option Elab.async false

theorem roundTripFrom_0 : RoundTripFrom 0 := by decide +kernel
theorem roundTripFrom_32 : RoundTripFrom 32 := by decide +kernel
theorem roundTripFrom_64 : RoundTripFrom 64 := by decide +kernel
theorem roundTripFrom_96 : RoundTripFrom 96 := by decide +kernel
theorem roundTripFrom_128 : RoundTripFrom 128 := by decide +kernel
theorem roundTripFrom_160 : RoundTripFrom 160 := by decide +kernel
theorem roundTripFrom_192 : RoundTripFrom 192 := by decide +kernel
theorem roundTripFrom_224 : RoundTripFrom 224 := by decide +kernel

/-- The eight parts together. -/
theorem roundTripFrom_block (q : Nat) (hq : q < 8) : RoundTripFrom (32 * q) := by
  match q with
  | 0 => exact roundTripFrom_0
  | 1 => exact roundTripFrom_32
  | 2 => exact roundTripFrom_64
  | 3 => exact roundTripFrom_96
  | 4 => exact roundTripFrom_128
  | 5 => exact roundTripFrom_160
  | 6 => exact roundTripFrom_192
  | 7 => exact roundTripFrom_224

end Sys2Proof.Machine
end

section
/-! SUPPORT. The statements about to_linear and to_gamma (40_color.md), settled. -/

namespace Sys2Proof.Machine

open Sys2Proof.Arith

/-- Settles O48: the threshold lies between bytes 10 and 11, and the operand of POW in [0, 1]. -/
theorem toLinearBranchesAndEnds : Obligations.ToLinearBranchesAndEnds := by
  intro cfg
  refine ⟨toLinear_zero cfg, (toLinear_low cfg (by decide)).trans (by decide +kernel),
    fun b hb => toLinear_low cfg hb, fun b hb => ?_, fun hpow => ?_, fun hpow b => ?_⟩
  · obtain ⟨-, hlo, hhi⟩ := power_branch_bytes b.toNat b.isLt hb
    exact ⟨hlo, hhi, toLinear_high cfg hb⟩
  · have hoperand : div (add (div (ofNat 255) c255) c0_055) c1_055 = one := by decide +kernel
    rw [toLinear_high cfg (by decide)]
    exact (congrArg (cfg.pow · c2_4) hoperand).trans (hpow c2_4 (by decide))
  · obtain ⟨hlo, hhi⟩ := toLinear_mem_unit hpow b
    exact ⟨isFinite_of_mem_unit hlo hhi, hlo, hhi⟩

/-- Settles O49: the clamp leaves a datum of [0, 1] as it is and sends the others to a zero or to 1.0. -/
theorem toGammaBranchesAndCorners : Obligations.ToGammaBranchesAndCorners := by
  intro cfg f byteOf curve
  have hhigh (h : le one f = true) : toGamma cfg f = toGamma cfg one := by
    rw [toGamma, fclamp_unit_high h, toGamma, fclamp_unit_high (by decide : le one one = true)]
  refine ⟨fun h => ?_, (toGamma_low rfl (by decide)).trans (by decide +kernel),
    (toGamma_low rfl (by decide)).trans (by decide +kernel), fun hlo hhi => ?_, fun hlo hhi => ?_, hhigh,
    fun hpow h => (hhigh h).trans (toGamma_one hpow)⟩
  · obtain ⟨s, hs⟩ := fclamp_unit_low h
    cases s
    · exact (toGamma_low hs (by decide)).trans (by decide +kernel)
    · exact (toGamma_low hs (by decide)).trans (by decide +kernel)
  · have hinside : le f one = true := by
      obtain ⟨hnan, -, horder⟩ := le_iff.mp hhi
      exact le_iff.mpr ⟨hnan, rfl, horder.trans (by decide)⟩
    exact (toGamma_low (fclamp_inside hlo hinside) hhi).trans (roundByte_eq _)
  · obtain ⟨-, hnan, horder⟩ := lt_iff.mp hlo
    have hinside : le zero f = true := le_iff.mpr ⟨rfl, hnan, le_trans (by decide) horder.le⟩
    have habove : le f c0_0031308 = false := Bool.eq_false_iff.mpr fun hle => by
      exact absurd (le_iff.mp hle).2.2 (not_le.mpr horder)
    exact (toGamma_high (fclamp_inside hinside hhi) habove).trans (roundByte_eq _)

/-- Settles O50: the default configuration's POW computes, so the 256 bytes are tried. -/
theorem gammaUndoesLinearUnderTheDefault : Obligations.GammaUndoesLinearUnderTheDefault := by
  intro b
  have hblock := roundTripFrom_block (b.toNat / 32) (by omega) (b.toNat % 32) (by omega)
  rwa [Nat.div_add_mod, BitVec.ofNat_toNat, BitVec.setWidth_eq] at hblock

end Sys2Proof.Machine
end

section
/-! SUPPORT. The sum of BASIS as one fold over the pixels, channel by channel (R170 to R175). -/

namespace Sys2Proof.Machine

open Sys2Proof.Arith

/-- A fold over rows of a fold over columns is one fold in row-major order. -/
theorem foldl_rows {α : Type} (f : α → Nat → Nat → α) (w h : Nat) (a : α) :
    (List.range h).foldl (fun a y => (List.range w).foldl (fun a x => f a x y) a) a =
      (List.range (w * h)).foldl (fun a k => f a (k % w) (k / w)) a := by
  induction h with
  | zero => rfl
  | succ h ih =>
    rw [List.range_succ, List.foldl_append, ih, Nat.mul_succ, List.range_add, List.foldl_append, List.foldl_map,
      List.foldl_cons, List.foldl_nil]
    refine List.foldl_ext _ _ _ fun a x hx => ?_
    have hxw : x < w := List.mem_range.mp hx
    rw [Nat.mul_add_mod, Nat.mod_eq_of_lt hxw, Nat.mul_add_div (Nat.zero_lt_of_lt hxw),
      Nat.div_eq_of_lt hxw, Nat.add_zero]

/-- What pixel k adds to channel c: its weight times the linear value of its byte (R174). -/
def pixelTerm (cfg : Config) (pix : List Host.Cell) (w h i j c k : Nat) : F64 :=
  mul (basisWeight cfg i j (k % w) (k / w) w h) (toLinear cfg (Memory.read pix (4 * k + c)))

section
variable (cfg : Config) (pix : List Host.Cell) (w h i j : Nat) {c : Nat} (hc : c < 3)
include hc

/-- Channel c of the sum is one fold over the pixels in row-major order, from +0.0 (R174). -/
theorem basisSum_channel : (basisSum cfg pix w h i j).channel c =
    (List.range (w * h)).foldl (fun acc k => add acc (pixelTerm cfg pix w h i j c k)) zero := by
  have hrows : (basisSum cfg pix w h i j).channel c = (List.range h).foldl (fun a y => (List.range w).foldl
      (fun a x => add a (mul (basisWeight cfg i j x y w h) (toLinear cfg (channel pix w x y c)))) a)
      (Triplet.zero.channel c) :=
    (List.foldl_hom (Triplet.channel · c) fun acc y => (addRow_channel cfg pix w h i j y acc hc).symm).symm
  have hzero : Triplet.zero.channel c = zero := by
    obtain rfl | rfl | rfl : c = 0 ∨ c = 1 ∨ c = 2 := by omega
    all_goals rfl
  rw [hrows, hzero, foldl_rows fun a x y =>
    add a (mul (basisWeight cfg i j x y w h) (toLinear cfg (channel pix w x y c)))]
  refine List.foldl_ext _ _ _ fun acc k _ => ?_
  rw [pixelTerm, channel, pixelAddress, Nat.div_add_mod']

/-- Channel c of `Basis(i, j)` (R170, R175). -/
theorem basis_channel : (basis cfg pix w h i j).channel c =
    mul ((List.range (w * h)).foldl (fun acc k => add acc (pixelTerm cfg pix w h i j c k)) zero)
      (div one (ofNat (w * h))) := by
  rw [basis, Triplet.scaledBy_channel _ _ hc, basisSum_channel cfg pix w h i j hc]

end

@[simp] theorem Triplet.channel_zero (t : Triplet) : t.channel 0 = t.r := rfl
@[simp] theorem Triplet.channel_one (t : Triplet) : t.channel 1 = t.g := rfl
@[simp] theorem Triplet.channel_two (t : Triplet) : t.channel 2 = t.b := rfl

/-- A triplet is its three channels (R12). -/
theorem Triplet.eq_of_channels {t u : Triplet} (h : ∀ c < 3, t.channel c = u.channel c) : t = u := by
  obtain ⟨r, g, b⟩ := t
  obtain ⟨r', g', b'⟩ := u
  obtain rfl : r = r' := h 0 (by decide)
  obtain rfl : g = g' := h 1 (by decide)
  obtain rfl : b = b' := h 2 (by decide)
  rfl

end Sys2Proof.Machine
end

section
/-! SUPPORT. Data bounded by a whole number below 2^53: rounding keeps the bound, since the bound is itself a datum
(R8). -/

namespace Sys2Proof.Arith

/-- A finite datum of absolute value at most n. -/
def AbsLe (a : F64) (n : Nat) : Prop := isFinite a = true ∧ units a ≤ n * unitsPerOne

theorem AbsLe.mono {a : F64} {m n : Nat} (h : AbsLe a m) (hmn : m ≤ n) : AbsLe a n :=
  ⟨h.1, h.2.trans (Nat.mul_le_mul_right _ hmn)⟩

theorem absLe_ofMag_round (s : Bool) {n d k : Nat} (hd : 0 < d) (hk : k < 2 ^ 53) (h : n ≤ d * (k * unitsPerOne)) :
    AbsLe (ofMag s (roundRatio n d)) k := by
  obtain ⟨m, hm, hu⟩ := exists_mag_of_nat hk
  have hle : roundRatio n d ≤ m := roundRatio_le n d m hd (by rwa [hu])
  have hlt : roundRatio n d < signBit := (hle.trans_lt hm).trans infMag_lt_signBit
  refine ⟨decide_eq_true ?_, ?_⟩
  · rw [mag_ofMag s _ hlt]
    exact hle.trans_lt hm
  · rw [units_ofMag s hlt, ← hu]
    exact unitsOfMag_strictMono.monotone hle

theorem absLe_ofMag_zero (s : Bool) (n : Nat) : AbsLe (ofMag s 0) n := by
  refine ⟨?_, ?_⟩
  · cases s <;> decide
  · rw [units_ofMag s (by decide), unitsOfMag_zero]
    exact Nat.zero_le _

theorem AbsLe.add {a b : F64} {m n : Nat} (ha : AbsLe a m) (hb : AbsLe b n) (h : m + n < 2 ^ 53) :
    AbsLe (Arith.add a b) (m + n) := by
  rw [add_finite ha.1 hb.1]
  split
  · exact absLe_ofMag_zero _ _
  · refine absLe_ofMag_round _ Nat.one_pos h ?_
    calc (signedUnits a + signedUnits b).natAbs
      _ ≤ units a + units b := by
        rw [← natAbs_signedUnits a, ← natAbs_signedUnits b]
        exact Int.natAbs_add_le _ _
      _ ≤ m * unitsPerOne + n * unitsPerOne := Nat.add_le_add ha.2 hb.2
      _ = 1 * ((m + n) * unitsPerOne) := by ring

theorem AbsLe.mul {a b : F64} {m n : Nat} (ha : AbsLe a m) (hb : AbsLe b n) (h : m * n < 2 ^ 53) :
    AbsLe (Arith.mul a b) (m * n) := by
  rw [mul_finite ha.1 hb.1]
  refine absLe_ofMag_round _ unitsPerOne_pos h ?_
  calc units a * units b ≤ m * unitsPerOne * (n * unitsPerOne) := Nat.mul_le_mul ha.2 hb.2
    _ = unitsPerOne * (m * n * unitsPerOne) := by ring

theorem absLe_ofNat {n : Nat} (h : n < 2 ^ 53) : AbsLe (ofNat n) n := ⟨isFinite_ofNat h, (units_ofNat h).le⟩

theorem mag_ofNat_ne_zero {n : Nat} (hpos : 0 < n) (h : n < 2 ^ 53) : mag (ofNat n) ≠ 0 := by
  refine mt (units_eq_zero_iff _).mpr ?_
  rw [units_ofNat h]
  exact (Nat.mul_pos hpos unitsPerOne_pos).ne'

/-- Dividing by a whole number keeps the bound. -/
theorem AbsLe.div_ofNat {a : F64} {m w : Nat} (ha : AbsLe a m) (hm : m < 2 ^ 53) (hpos : 0 < w) (hw : w < 2 ^ 53) :
    AbsLe (Arith.div a (ofNat w)) m := by
  rw [div_finite ha.1 (isFinite_ofNat hw) (mag_ofNat_ne_zero hpos hw), units_ofNat hw]
  refine absLe_ofMag_round _ (Nat.mul_pos hpos unitsPerOne_pos) hm ?_
  calc units a * unitsPerOne ≤ m * unitsPerOne * unitsPerOne := Nat.mul_le_mul_right _ ha.2
    _ ≤ w * (m * unitsPerOne * unitsPerOne) := Nat.le_mul_of_pos_left _ hpos
    _ = w * unitsPerOne * (m * unitsPerOne) := by ring

theorem ofNat_one : ofNat 1 = one := by decide +kernel

theorem absLe_one : AbsLe one 1 := ofNat_one ▸ absLe_ofNat (by decide)

theorem absLe_two : AbsLe two 2 := (by decide +kernel : ofNat 2 = two) ▸ absLe_ofNat (by decide)

/-- A datum between -1.0 and 1.0. -/
theorem absLe_of_between {a : F64} (hlo : le (neg one) a = true) (hhi : le a one = true) : AbsLe a 1 := by
  obtain ⟨-, -, h0⟩ := le_iff.mp hlo
  obtain ⟨-, -, h1⟩ := le_iff.mp hhi
  have hone : order one = mag one := by decide
  have hneg : order (neg one) = -(mag one : Int) := by decide
  have hmag : mag a ≤ mag one := by
    rw [hneg, order] at h0
    rw [hone, order] at h1
    cases hs : sign a <;> simp only [hs, if_true, Bool.false_eq_true, if_false] at h0 h1 <;> omega
  have hfin : mag one < infMag := by decide
  exact ⟨decide_eq_true (hmag.trans_lt hfin), (unitsOfMag_strictMono.monotone hmag).trans absLe_one.2⟩

/-- A datum between 0 and 1.0. -/
theorem absLe_of_mem_unit {a : F64} (hlo : le zero a = true) (hhi : le a one = true) : AbsLe a 1 := by
  obtain ⟨-, hnan, h0⟩ := le_iff.mp hlo
  exact absLe_of_between (le_iff.mpr ⟨rfl, hnan, le_trans (by decide) h0⟩) hhi

/-- A sum of terms of absolute value at most b, each added in turn. -/
theorem absLe_foldl_add {t : Nat → F64} {b : Nat} (ks : List Nat) (ht : ∀ k ∈ ks, AbsLe (t k) b) {acc : F64} {m : Nat}
    (hacc : AbsLe acc m) (hsum : m + b * ks.length < 2 ^ 53) :
    AbsLe (ks.foldl (fun a k => Arith.add a (t k)) acc) (m + b * ks.length) := by
  induction ks generalizing acc m with
  | nil => exact hacc
  | cons k ks ih =>
    have hlen : m + b * (k :: ks).length = m + b + b * ks.length := by rw [List.length_cons]; ring
    rw [hlen] at hsum ⊢
    exact ih (fun k' hk' => ht k' (List.mem_cons_of_mem _ hk'))
      (hacc.add (ht k List.mem_cons_self) (by omega)) hsum

/-- 1.0 times a datum that is not NaN is that datum (R8). -/
theorem one_mul_of_number {a : F64} (h : isNaN a = false) : Arith.mul one a = a := by
  have hsigns : (sign one != sign a) = sign a := Bool.false_bne _
  cases hinf : isInf a
  · have hfin : isFinite a = true := by
      simp only [isNaN, isInf, isFinite, decide_eq_true_eq, decide_eq_false_iff_not] at *
      omega
    have hunit : units one = unitsPerOne := by rw [← ofNat_one, units_ofNat (by decide), Nat.one_mul]
    rw [mul_finite rfl hfin, hsigns, hunit, units, roundRatio_exact _ _ unitsPerOne_pos (of_decide_eq_true hfin).le,
      ofMag_sign_mag]
  · have hmag : mag a = infMag := of_decide_eq_true hinf
    have hnonzero : ¬(mag one = 0 ∨ mag a = 0) := by rw [hmag]; decide
    have hone : isNaN one = false := rfl
    simp only [Arith.mul, hone, h, hinf, Bool.or_true, Bool.or_self, Bool.false_eq_true, if_false, if_true,
      if_neg hnonzero, hsigns]
    rw [← hmag, ofMag_sign_mag]

/-- +0.0 times a finite datum without the sign bit is +0.0 (R8). -/
theorem zero_mul_of_finite {a : F64} (hfin : isFinite a = true) (hs : sign a = false) : Arith.mul zero a = zero := by
  have hzero : units zero = 0 := by decide
  rw [mul_finite rfl hfin, hs, hzero, Nat.zero_mul, roundRatio_zero]
  rfl

theorem zero_div_ofNat {w : Nat} (hpos : 0 < w) (hw : w < 2 ^ 53) : Arith.div zero (ofNat w) = zero := by
  have hzero : units zero = 0 := by decide
  rw [div_finite rfl (isFinite_ofNat hw) (mag_ofNat_ne_zero hpos hw), sign_ofNat, hzero, Nat.zero_mul,
    roundRatio_zero]
  rfl

end Sys2Proof.Arith
end

section
/-! SUPPORT. The weights of BASIS, and the components they give: bounded, and +0.0 on a black grid (R171 to R178). -/

namespace Sys2Proof.Machine

open Sys2Proof.Arith

/-! ## Arguments and weights -/

theorem absLe_pi : AbsLe pi 4 := ⟨by decide, by decide +kernel⟩

/-- An argument of COS is finite (R173, R178). -/
theorem absLe_basisArgument {i x w : Nat} (hi : i ≤ 8) (hx : x < 65536) (hpos : 0 < w) (hw : w < 65536) :
    AbsLe (basisArgument i x w) (4 * 8 * 65536) := by
  have hi' : AbsLe (ofNat i) 8 := (absLe_ofNat (by omega)).mono hi
  have hx' : AbsLe (ofNat x) 65536 := (absLe_ofNat (by omega)).mono hx.le
  have hproduct := (absLe_pi.mul hi' (by decide)).mul hx' (by decide)
  exact hproduct.div_ofNat (by decide) hpos (by omega)

/-- In column 0, and in the terms of index 0, the argument is +0.0 (R178). -/
theorem basisArgument_zero {i x w : Nat} (hi : i ≤ 8) (hx : x < 65536) (hpos : 0 < w) (hw : w < 65536)
    (h : i = 0 ∨ x = 0) : basisArgument i x w = zero := by
  have hproduct : mul (mul pi (ofNat i)) (ofNat x) = zero := by
    rcases h with rfl | rfl
    · have hpi : mul pi (ofNat 0) = zero := by decide +kernel
      rw [hpi, zero_mul_of_finite (isFinite_ofNat (by omega)) (sign_ofNat x)]
    · have hcolumn : ∀ i < 9, mul (mul pi (ofNat i)) (ofNat 0) = zero := by decide +kernel
      exact hcolumn i (by omega)
  rw [basisArgument, hproduct, zero_div_ofNat hpos (by omega)]

/-- A weight has absolute value at most 2 (R178). -/
theorem absLe_basisWeight {cfg : Config} (hcos : cfg.CosRange) {i j x y w h : Nat} (hi : i ≤ 8) (hj : j ≤ 8)
    (hx : x < w) (hw : w < 65536) (hy : y < h) (hh : h < 65536) : AbsLe (basisWeight cfg i j x y w h) 2 := by
  have hnorm : AbsLe (basisNorm i j) 2 := by
    unfold basisNorm
    split
    · exact absLe_one.mono (by decide)
    · exact absLe_two
  have hcosine {k z n : Nat} (hk : k ≤ 8) (hz : z < n) (hn : n < 65536) :
      AbsLe (cfg.cos (basisArgument k z n)) 1 := by
    obtain ⟨hlo, hhi⟩ := hcos _ (absLe_basisArgument hk (hz.trans hn) (Nat.zero_lt_of_lt hz) hn).1
    exact absLe_of_between hlo hhi
  have hproduct := (hnorm.mul (hcosine hi hx hw) (by decide)).mul (hcosine hj hy hh) (by decide)
  rw [basisWeight]
  exact hproduct.mono (by decide)

/-- The weights of the DC term are 1.0 (R178). -/
theorem basisWeight_dc {cfg : Config} (hcos : cfg.CosZero) {x y w h : Nat} (hx : x < w) (hw : w < 65536) (hy : y < h)
    (hh : h < 65536) : basisWeight cfg 0 0 x y w h = one := by
  have hnorm : basisNorm 0 0 = one := rfl
  have hsquare : mul one one = one := one_mul_of_number rfl
  rw [basisWeight, basisArgument_zero (by decide) (hx.trans hw) (Nat.zero_lt_of_lt hx) hw (.inl rfl),
    basisArgument_zero (by decide) (hy.trans hh) (Nat.zero_lt_of_lt hy) hh (.inl rfl), hcos, hnorm, hsquare, hsquare]

/-! ## Components -/

/-- The column and the row of pixel k lie in the grid. -/
theorem pixel_in_grid {w h k : Nat} (hk : k < w * h) : k % w < w ∧ k / w < h :=
  ⟨Nat.mod_lt _ (Nat.pos_of_mul_pos_right (Nat.zero_lt_of_lt hk)), Nat.div_lt_of_lt_mul hk⟩

theorem pixels_lt {w h : Nat} (hw : w < 65536) (hh : h < 65536) : w * h < 2 ^ 32 :=
  (Nat.mul_lt_mul'' hw hh).trans_eq (by norm_num)

/-- The reciprocal of W·H has absolute value at most 1, and no sign bit (R175). -/
theorem reciprocal_bound {n : Nat} (hpos : 0 < n) (hn : n < 2 ^ 53) :
    AbsLe (div one (ofNat n)) 1 ∧ sign (div one (ofNat n)) = false := by
  refine ⟨absLe_one.div_ofNat (by decide) hpos hn, ?_⟩
  rw [div_finite rfl (isFinite_ofNat hn) (mag_ofNat_ne_zero hpos hn), sign_ofMag_le _ (roundRatio_le_infMag _ _),
    sign_ofNat]
  rfl

section
variable {cfg : Config} {w h i j : Nat} (hcos : cfg.CosRange) (hw : 1 ≤ w) (hw' : w < 65536) (hh : 1 ≤ h)
  (hh' : h < 65536) (hi : i ≤ 8) (hj : j ≤ 8)
include hcos hw hw' hh hh' hi hj

/-- Every channel of every component is finite (R178). -/
theorem isFinite_basis_channel (hpow : cfg.PowRange) (pix : List Host.Cell) {c : Nat} (hc : c < 3) :
    isFinite ((basis cfg pix w h i j).channel c) = true := by
  have hpixels := pixels_lt hw' hh'
  have hterm (k : Nat) (hk : k ∈ List.range (w * h)) : AbsLe (pixelTerm cfg pix w h i j c k) 2 := by
    obtain ⟨hx, hy⟩ := pixel_in_grid (List.mem_range.mp hk)
    obtain ⟨hlo, hhi⟩ := toLinear_mem_unit hpow (Memory.read pix (4 * k + c))
    have hproduct := (absLe_basisWeight hcos hi hj hx hw' hy hh').mul (absLe_of_mem_unit hlo hhi) (by decide)
    rw [pixelTerm]
    exact hproduct.mono (by decide)
  have hsum := absLe_foldl_add (List.range (w * h)) hterm (absLe_ofMag_zero false 0)
    (by rw [List.length_range]; omega)
  obtain ⟨hscale, -⟩ := reciprocal_bound (Nat.mul_pos hw hh) (by omega)
  rw [basis_channel cfg pix w h i j hc]
  exact (hsum.mul hscale (by rw [List.length_range]; omega)).1

/-- A component of a black grid is +0.0 in every channel (R178). -/
theorem basis_black {pix : List Host.Cell}
    (hblack : ∀ a, a < 4 * (w * h) → a % 4 ≠ 3 → Memory.read pix a = 0) : basis cfg pix w h i j = ⟨0, 0, 0⟩ := by
  refine Triplet.eq_of_channels fun c hc => ?_
  have hterm (k : Nat) (hk : k ∈ List.range (w * h)) : ∃ s, pixelTerm cfg pix w h i j c k = ofMag s 0 := by
    have hkn := List.mem_range.mp hk
    obtain ⟨hx, hy⟩ := pixel_in_grid hkn
    obtain ⟨hfin, -⟩ := absLe_basisWeight hcos hi hj hx hw' hy hh'
    have hzero : units zero = 0 := by decide
    rw [pixelTerm, hblack (4 * k + c) (by omega) (by omega), toLinear_zero, mul_finite hfin rfl, hzero,
      Nat.mul_zero, roundRatio_zero]
    exact ⟨_, rfl⟩
  have hsum : (List.range (w * h)).foldl (fun acc k => add acc (pixelTerm cfg pix w h i j c k)) zero = zero := by
    refine List.foldlRecOn (motive := (· = zero)) _ _ rfl fun acc hacc k hk => ?_
    obtain ⟨s, hs⟩ := hterm k hk
    rw [hacc, hs]
    cases s <;> decide +kernel
  have hpixels := pixels_lt hw' hh'
  obtain ⟨⟨hfin, -⟩, hsign⟩ := reciprocal_bound (Nat.mul_pos hw hh) (show w * h < 2 ^ 53 by omega)
  rw [basis_channel cfg pix w h i j hc, hsum, zero_mul_of_finite hfin hsign]
  obtain rfl | rfl | rfl : c = 0 ∨ c = 1 ∨ c = 2 := by omega
  all_goals rfl

end

/-! ## The string of a black grid -/

/-- The scale of AC terms that are all +0.0 (R210, R211). -/
theorem scaleSelect_zeros (n : Nat) : (scaleSelect (List.replicate n ⟨0, 0, 0⟩)).q = 0 := by
  cases n with
  | zero => rfl
  | succ n =>
    have hmax : actualMax (List.replicate (n + 1) ⟨0, 0, 0⟩) = zero := by
      rw [actualMax_eq_foldl]
      refine List.foldlRecOn (motive := (· = zero)) _ _ rfl fun m hm v hv => ?_
      obtain ⟨t, ht, hvt⟩ := List.mem_flatMap.mp hv
      obtain rfl := List.eq_of_mem_replicate ht
      have hv0 : v = 0 := by simpa [Triplet.channels] using hvt
      rw [hm, hv0]
      decide
    rw [scaleSelect, if_neg (by simp), hmax]
    decide +kernel

/-- The packed digits of an AC term of +0.0 (R220, R221). -/
theorem quantAC_zero {cfg : Config} (hpow : cfg.PowZero) {m : F64} (hm : MaxLegal m) :
    quantAC cfg ⟨0, 0, 0⟩ m = 3429 := by
  obtain ⟨hfin, hpos, -⟩ := maxLegal_range hm
  have hdigit : quantACch cfg 0 m = 9 := quantACch_zero hfin hpos hpow rfl
  simp only [quantAC, hdigit]

theorem toGamma_zero (cfg : Config) : toGamma cfg 0 = 0 :=
  (toGamma_low (v := zero) rfl (by decide)).trans (by decide +kernel)

/-- The packed bytes of a DC term of +0.0 (R200). -/
theorem quantDC_zero (cfg : Config) : (quantDC cfg ⟨0, 0, 0⟩).toNat = 0 := by
  rw [quantDC_toNat, toGamma_zero]
  rfl

/-- The string of a grid whose components are all +0.0 (R262). -/
theorem hashString_zeros {cfg : Config} (hpow : cfg.PowZero) {nx ny n : Nat} (hflag : sizeFlag nx ny < 83) :
    hashString cfg nx ny (List.replicate (n + 1) ⟨0, 0, 0⟩) (scaleSelect (List.replicate n ⟨0, 0, 0⟩)) =
      digitChar (sizeFlag nx ny) ::
        (List.replicate 5 0x30#8 ++ (List.replicate n [0x66#8, 0x51#8]).flatten) := by
  have hq := scaleSelect_zeros n
  have hac (t : Triplet) (ht : t ∈ List.replicate n (⟨0, 0, 0⟩ : Triplet)) :
      base83 (quantAC cfg t (scaleSelect (List.replicate n ⟨0, 0, 0⟩)).maximum) 2 = [0x66#8, 0x51#8] := by
    obtain rfl := List.eq_of_mem_replicate ht
    rw [quantAC_zero hpow (scaleSelect_maximum_legal _)]
    decide
  rw [hashString_eq_cons hflag (by omega), hq, List.replicate_succ, List.headD_cons, List.tail_cons, quantDC_zero,
    base83_zero, List.flatMap_def, List.map_congr_left hac, List.map_const', List.length_replicate]
  rfl

end Sys2Proof.Machine
end

section
/-! SUPPORT. The statements about the functions of BASIS and the hash of a black image (41_basis.md, 44_encode.md),
settled. -/

namespace Sys2Proof.Machine

open Sys2Proof.Arith

/-- Settles O51: each channel is folded by itself, rows of columns are pixels in row-major order, and in the DC term
the weights are 1.0. -/
theorem basisIsTheWeightedSumOfThePixels : Obligations.BasisIsTheWeightedSumOfThePixels := by
  refine ⟨fun cfg pix w h i j c hc => basis_channel cfg pix w h i j hc, fun cfg i j x y w h => rfl,
    fun i x w hi hx hw hw' h => basisArgument_zero hi hx hw hw' h,
    fun cfg x y w h hcos hx hw hy hh => basisWeight_dc hcos hx hw hy hh,
    fun cfg pix w h c hcos hnumber hw hw' hh hh' hc => ?_⟩
  rw [basis_channel cfg pix w h 0 0 hc]
  refine congrArg (mul · _) (List.foldl_ext _ _ _ fun acc k hk => ?_)
  obtain ⟨hx, hy⟩ := pixel_in_grid (List.mem_range.mp hk)
  rw [pixelTerm, basisWeight_dc hcos hx hw' hy hh', one_mul_of_number (hnumber _)]

/-- Settles O52: W·H terms of absolute value at most 2 sum to at most 2^33, and the reciprocal is at most 1. -/
theorem basisResultsAreFinite : Obligations.BasisResultsAreFinite := by
  intro cfg pix w h i j hcos hpow hw hw' hh hh' hi hj
  rw [← Triplet.channel_zero, ← Triplet.channel_one, ← Triplet.channel_two]
  have hchannel {c : Nat} (hc : c < 3) := isFinite_basis_channel hcos hw hw' hh hh' hi hj hpow pix hc
  exact ⟨hchannel (by decide), hchannel (by decide), hchannel (by decide)⟩

/-- Settles O53: every product is a zero, whatever its sign, and leaves the sum at +0.0; so every field of the string
is the digits of what the quantizer gives for +0.0. -/
theorem blackImageHash : Obligations.BlackImageHash := by
  intro cfg pix w h nx ny hcos hpow hw hw' hh hh' hnx hnx9 hny hny9 hblack
  have hcomps : components cfg pix w h nx ny = List.replicate (nx * ny) ⟨0, 0, 0⟩ := by
    have hblackComponent (n : Nat) (hn : n ∈ List.range (nx * ny)) :
        basis cfg pix w h (n % nx) (n / nx) = ⟨0, 0, 0⟩ := by
      obtain ⟨hi, hj⟩ := pixel_in_grid (List.mem_range.mp hn)
      exact basis_black hcos hw hw' hh hh' (by omega) (by omega) hblack
    rw [components, List.map_congr_left hblackComponent, List.map_const', List.length_range]
  refine ⟨hcomps, ?_⟩
  obtain ⟨n, hn⟩ : ∃ n, nx * ny = n + 1 := ⟨nx * ny - 1, (Nat.sub_add_cancel (Nat.mul_pos hnx hny)).symm⟩
  have hflag : sizeFlag nx ny < 83 := Nat.lt_of_le_of_lt (sizeFlag_le hnx9 hny9) (by decide)
  rw [hcomps, hn, List.replicate_succ, List.tail_cons, ← List.replicate_succ]
  exact hashString_zeros hpow hflag

end Sys2Proof.Machine
end
